-- ==== Sys2Proof/Word.lean ====
section
/-! DEFINITION. The plain words of the block: bytes, byte sequences and the command word
(spec/00_scope.md R13 and R14, spec/30_encoding.md R114). -/

namespace Sys2Proof

/-- A byte is an unsigned 8-bit value (R13). -/
abbrev Byte := BitVec 8

/-- A byte sequence, first byte at index 0 (R14). -/
abbrev Bytes := List Byte

/-- The 32-bit command word (R114). -/
abbrev CmdWord := BitVec 32

/-- The 24-bit operand field IMM of a command word (R114). -/
abbrev Imm := BitVec 24

end Sys2Proof
end

