-- ==== Sys2Proof/Config.lean ====
section
/-! DEFINITION. What is fixed before the block runs: the construction parameters of
spec/00_scope.md R10, the environment parameters of R12, the fixed constants, the ports, and the
free values: uninterpreted constants for what the spec leaves open. -/

namespace Sys2Proof

/-- The protocol variant, `PROTOCOL` (R10). -/
inductive Protocol where
  | p5E4D
  | p7C6E
deriving DecidableEq, Repr

/-- The first byte an included header puts under the CRC, `HDR_CRC_FIRST` (R10, R112). -/
inductive HdrCrcFirst where
  | sync1
  | sync2
deriving DecidableEq, Repr

/-- How the fraction of a time token is read, `TIME_FRAC_MODE` (R10, R122, R217, R218). -/
inductive TimeFracMode where
  | integerMs
  | exact3
deriving DecidableEq, Repr

/-- One entry of `REGISTRY` (10_state.md R58). No rule reads `color`. -/
structure RegEntry where
  name  : Bytes
  id    : BitVec 32
  color : Bytes
deriving DecidableEq, Repr

/-- The configuration `CFG` (10_state.md R24), fixed from construction (R27). -/
structure Cfg where
  protocol            : Protocol
  includeHeaderCrc    : Bool
  hdrCrcFirst         : HdrCrcFirst
  maxFrame            : Nat
  maxErrors           : Nat
  rbSlots             : Nat
  slotSize            : Nat
  maxLines            : Nat
  timeFracMode        : TimeFracMode
  stopCheckAfterSleep : Bool
  registry            : List RegEntry
deriving DecidableEq, Repr

/-- The environment parameter `TEST_FN` (R12, 42_scheduler.md R220) as plain data. `finite d ex`
answers `d` except on the listed (id, params) pairs, where it answers the opposite; `application`
is the HOST's own function, of which nothing is known (assumption log 4). -/
inductive TestFn where
  | finite (dflt : Bool) (exceptions : List (BitVec 32 × List Bytes))
  | application
deriving DecidableEq, Repr

/-- The environment parameters of R12. No rule of the block reads any but `testFn`; the agents'
programs of 60_exceptions.md R303 and R304 take `minRead` and `readThreshold`. -/
structure Env where
  testFn        : TestFn
  readThreshold : Nat
  minRead       : Nat
  pollMs        : Nat
  queueDepth    : Nat
  joinTimeout   : Nat
deriving DecidableEq, Repr

/-- The three transaction ports (60_exceptions.md R299). -/
inductive Port where
  | host
  | prod
  | dec
deriving DecidableEq, Repr

/-- The two byte-addressed memories whose bytes are unspecified at construction
(20_memory.md R76, 70_reset_and_hazards.md R331). -/
inductive Space where
  | msgbuf
  | slot
deriving DecidableEq, Repr

namespace Config

/-- `SLICE_MS` (R10). -/
def sliceMs : Nat := 1000

/-- `MAX_SECONDS` (R10). -/
def maxSeconds : Nat := 65535

/-- `MAX_MILLIS` (R10). -/
def maxMillis : Nat := 999

/-- `SYNC1_5E4D` (R10). -/
def sync1of5E4D : Byte := 0x5E#8

/-- `SYNC2_5E4D` (R10). -/
def sync2of5E4D : Byte := 0x4D#8

/-- `SYNC1_7C6E` (R10). -/
def sync1of7C6E : Byte := 0x7C#8

/-- `SYNC2_7C6E` (R10). -/
def sync2of7C6E : Byte := 0x6E#8

/-- `CRC_POLY` (R10). -/
def crcPoly : Byte := 0x07#8

/-- `CRC_INIT` (R10). -/
def crcInit : Byte := 0x00#8

/-- The frame overhead of a P5E4D frame (10_state.md R26, 30_encoding.md R107). -/
def overhead5E4D : Nat := 6

/-- FREE VALUE: the unspecified byte that stands at an address of `MSGBUF` or `SLOT` until
something writes it (10_state.md R36, R41; 41_ringbuffer.md R194; assumption log 5). -/
opaque initialByte : Space → Nat → Byte

/-- FREE VALUE: the HOST's own test function (42_scheduler.md R220; assumption log 4). -/
opaque applicationTest : BitVec 32 → List Bytes → Bool

/-- FREE VALUE: one less than the milliseconds TIME advances `now` by when the agents have
nothing scheduled (60_exceptions.md R306; assumption log 2). -/
opaque idleAdvance : Nat → Nat

/-- The configuration of State.reset: R10's defaults, and for its OPEN parameters the values the
vectors of spec/95_test_vectors.md use. DESIGN CHOICE (assumption log 3). -/
def vectorCfg : Cfg where
  protocol            := .p5E4D
  includeHeaderCrc    := false
  hdrCrcFirst         := .sync1
  maxFrame            := 65536
  maxErrors           := 3
  rbSlots             := 2
  slotSize            := 4
  maxLines            := 16777216
  timeFracMode        := .integerMs
  stopCheckAfterSleep := false
  registry            :=
    [{ name := [0x41#8], id := 1#32, color := [] }, { name := [0x42#8], id := 2#32, color := [] }]

/-- The environment parameters of State.reset. DESIGN CHOICE (assumption log 4). -/
def vectorEnv : Env where
  testFn        := .finite true []
  readThreshold := 1
  minRead       := 1
  pollMs        := 10
  queueDepth    := 0
  joinTimeout   := 1000

end Config

namespace Cfg

/-- `MSGBUF_SIZE` (10_state.md R26). -/
def msgbufSize (cfg : Cfg) : Nat :=
  match cfg.protocol with
  | .p5E4D => cfg.maxFrame - Config.overhead5E4D
  | .p7C6E => 256

end Cfg

end Sys2Proof
end

