-- ==== Sys2Proof/Syntax.lean ====
section
/-! DEFINITION. The operations of the block, one constructor per row of spec/opcode_table.json
(spec/30_encoding.md R119). A constructor carries the operand field of the command word (R116)
and, where the operation takes one, its data block (R117). -/

namespace Sys2Proof

/-- An operation as an agent issues it: its operand and its data block. -/
inductive Instr where
  /-- `CODEC.RESET` (R152). -/
  | codecReset
  /-- `CODEC.REQ_RESET` (R153). -/
  | codecReqReset
  /-- `CODEC.DECODE [chunk]` (R154). -/
  | codecDecode (chunk : Bytes)
  /-- `CODEC.ENCODE addr, [payload]` (R171). -/
  | codecEncode (addr : BitVec 16) (payload : Bytes)
  /-- `CODEC.MSG_COPY` (R173). -/
  | codecMsgCopy
  /-- `RB.TRY_GET_WRITE` (R192). -/
  | rbTryGetWrite
  /-- `RB.FILL off, [data]` (R193). -/
  | rbFill (off : Imm) (data : Bytes)
  /-- `RB.COMMIT_WRITE n` (R194). -/
  | rbCommitWrite (n : Imm)
  /-- `RB.TRY_GET_READ` (R195). -/
  | rbTryGetRead
  /-- `RB.COMMIT_READ` (R196). -/
  | rbCommitRead
  /-- `RB.BYTES_AVAILABLE` (R197). -/
  | rbBytesAvailable
  /-- `RB.READ_HWM` (R198). -/
  | rbReadHwm
  /-- `SCH.LOAD`, its data block being `filename ++ [0x00] ++ text` (R213). -/
  | schLoad (block : Bytes)
  /-- `SCH.START lineNum` (R222). -/
  | schStart (lineNum : Imm)
  /-- `SCH.STEP lineNum` (R223). -/
  | schStep (lineNum : Imm)
  /-- `SCH.STOP` (R224). -/
  | schStop
  /-- `SCH.STOP_NEXT` (R225). -/
  | schStopNext
  /-- `SCH.STATUS` (R226). -/
  | schStatus
  /-- `SCH.EXEC_DONE r` (R227), `r` true for 1. -/
  | schExecDone (r : Bool)
deriving DecidableEq, Repr

end Sys2Proof
end

