-- ==== Sys2Proof/WellFormed.lean ====
section
/-! DEFINITION. Which configurations and which operations are well-formed
(spec/00_scope.md R11, spec/30_encoding.md R117). -/

namespace Sys2Proof

/-- The longest data block an operation may carry is one byte shorter than this (R117). -/
def dataBlockBound : Nat := 4294967296

namespace Instr

/-- The data block of an operation, empty where it takes none (R117). -/
def dataBlock : Instr → Bytes
  | .codecReset => []
  | .codecReqReset => []
  | .codecDecode chunk => chunk
  | .codecEncode _ payload => payload
  | .codecMsgCopy => []
  | .rbTryGetWrite => []
  | .rbFill _ data => data
  | .rbCommitWrite _ => []
  | .rbTryGetRead => []
  | .rbCommitRead => []
  | .rbBytesAvailable => []
  | .rbReadHwm => []
  | .schLoad block => block
  | .schStart _ => []
  | .schStep _ => []
  | .schStop => []
  | .schStopNext => []
  | .schStatus => []
  | .schExecDone _ => []

/-- An operation is well-formed when its data block has a length R117 allows. Its operand fields
fit by their types. -/
def wf (i : Instr) : Bool := decide (i.dataBlock.length < dataBlockBound)

end Instr

namespace Cfg

/-- `MAX_FRAME` is 65535 or 65536 (R10). -/
def wfFrame (cfg : Cfg) : Bool := cfg.maxFrame == 65535 || cfg.maxFrame == 65536

/-- `MAX_ERRORS` fits 32 bits (R10). -/
def wfErrors (cfg : Cfg) : Bool := decide (cfg.maxErrors < 4294967296)

/-- `RB_SLOTS` is 1 to 2^16 (R10). -/
def wfSlots (cfg : Cfg) : Bool := decide (1 ≤ cfg.rbSlots) && decide (cfg.rbSlots ≤ 65536)

/-- `SLOT_SIZE` is 1 to 2^24 - 1 (R10). -/
def wfSlotSize (cfg : Cfg) : Bool := decide (1 ≤ cfg.slotSize) && decide (cfg.slotSize ≤ 16777215)

/-- `MAX_LINES` is at most 2^24 (R10). -/
def wfLines (cfg : Cfg) : Bool := decide (cfg.maxLines ≤ 16777216)

/-- An included header CRC needs P5E4D (R10, R11). -/
def wfVariant (cfg : Cfg) : Bool := !cfg.includeHeaderCrc || cfg.protocol == .p5E4D

/-- `HDR_CRC_FIRST` is `SYNC2` only with an included header CRC (R10; assumption log 13). -/
def wfHdrCrcFirst (cfg : Cfg) : Bool := cfg.includeHeaderCrc || cfg.hdrCrcFirst == .sync1

/-- Registry names are non-empty and pairwise distinct, ids are pairwise distinct (R11, R58). -/
def wfRegistry (cfg : Cfg) : Bool :=
  cfg.registry.all (fun e => e.name != []) &&
    (decide ((cfg.registry.map RegEntry.name).Nodup) &&
      decide ((cfg.registry.map RegEntry.id).Nodup))

/-- A configuration is well-formed (R11). -/
def wf (cfg : Cfg) : Bool :=
  cfg.wfFrame && (cfg.wfErrors && (cfg.wfSlots && (cfg.wfSlotSize && (cfg.wfLines &&
    (cfg.wfVariant && (cfg.wfHdrCrcFirst && cfg.wfRegistry))))))

end Cfg

end Sys2Proof
end

