-- ==== Sys2Proof/Decode.lean ====
section
/-! DEFINITION. Decoding a command word and its data block, total and rejecting by name
(spec/30_encoding.md R114 to R120), and the encoder written from the same tables. -/

namespace Sys2Proof

/-- Why a command word is illegal: the five grounds of R118. Each gets the reply `ILLEGAL`. -/
inductive Illegal where
  /-- Its `UNIT` is reserved (R115). -/
  | reservedUnit
  /-- Its `OP` is not assigned in its unit (R119). -/
  | unassignedOp
  /-- A bit that R116 says must be 0 is 1. -/
  | mustBeZero
  /-- It carries a non-empty data block where R117 takes none. -/
  | unexpectedData
  /-- It arrives at a port that does not admit it (R120). -/
  | portNotAdmitted
deriving DecidableEq, Repr

/-! ### Fields of the command word (R114) -/

/-- `UNIT`, bits 31:28. -/
def unitOf (w : CmdWord) : Nat := (w.extractLsb' 28 4).toNat

/-- `OP`, bits 27:24. -/
def opOf (w : CmdWord) : Nat := (w.extractLsb' 24 4).toNat

/-- `IMM`, bits 23:0, an unsigned number that is never sign-extended, scaled or shifted (R116). -/
def immOf (w : CmdWord) : Imm := w.extractLsb' 0 24

/-- The command word with the given fields. -/
def cmd32 (unit op : BitVec 4) (imm : Imm) : CmdWord := (unit ++ op) ++ imm

/-! ### Operand assembly (R116, R117) -/

/-- An operation whose `IMM` must be 0 and that takes no data block. -/
def takeNothing (imm : Imm) (data : Bytes) (i : Instr) : Except Illegal Instr :=
  if imm = 0#24 then
    if data = [] then .ok i else .error .unexpectedData
  else .error .mustBeZero

/-- An operation whose `IMM` must be 0 and that takes a data block. -/
def takeData (imm : Imm) (data : Bytes) (i : Bytes → Instr) : Except Illegal Instr :=
  if imm = 0#24 then .ok (i data) else .error .mustBeZero

/-- An operation that takes the whole of `IMM` and no data block. -/
def takeImm (imm : Imm) (data : Bytes) (i : Imm → Instr) : Except Illegal Instr :=
  if data = [] then .ok (i imm) else .error .unexpectedData

/-- `CODEC.ENCODE`: the address operand is `IMM[15:0]`, `IMM[23:16]` must be 0. -/
def takeAddr (imm : Imm) (data : Bytes) : Except Illegal Instr :=
  if imm.extractLsb' 16 8 = 0#8 then .ok (.codecEncode (imm.extractLsb' 0 16) data)
  else .error .mustBeZero

/-- `SCH.EXEC_DONE`: `r` is `IMM[0]`, `IMM[23:1]` must be 0. -/
def takeResult (imm : Imm) (data : Bytes) : Except Illegal Instr :=
  if imm.extractLsb' 1 23 = 0#23 then
    if data = [] then .ok (.schExecDone (imm.getLsbD 0)) else .error .unexpectedData
  else .error .mustBeZero

/-! ### The opcode map (R119) -/

/-- Unit 0x1, CODEC. -/
def decodeCodec (op : Nat) (imm : Imm) (data : Bytes) : Except Illegal Instr :=
  match op with
  | 0x0 => takeNothing imm data .codecReset
  | 0x1 => takeNothing imm data .codecReqReset
  | 0x2 => takeData imm data .codecDecode
  | 0x3 => takeAddr imm data
  | 0x4 => takeNothing imm data .codecMsgCopy
  | _ => .error .unassignedOp

/-- Unit 0x2, RB. -/
def decodeRb (op : Nat) (imm : Imm) (data : Bytes) : Except Illegal Instr :=
  match op with
  | 0x0 => takeNothing imm data .rbTryGetWrite
  | 0x1 => .ok (.rbFill imm data)
  | 0x2 => takeImm imm data .rbCommitWrite
  | 0x3 => takeNothing imm data .rbTryGetRead
  | 0x4 => takeNothing imm data .rbCommitRead
  | 0x5 => takeNothing imm data .rbBytesAvailable
  | 0x6 => takeNothing imm data .rbReadHwm
  | _ => .error .unassignedOp

/-- Unit 0x3, SCH. -/
def decodeSch (op : Nat) (imm : Imm) (data : Bytes) : Except Illegal Instr :=
  match op with
  | 0x0 => takeData imm data .schLoad
  | 0x1 => takeImm imm data .schStart
  | 0x2 => takeImm imm data .schStep
  | 0x3 => takeNothing imm data .schStop
  | 0x4 => takeNothing imm data .schStopNext
  | 0x5 => takeNothing imm data .schStatus
  | 0x6 => takeResult imm data
  | _ => .error .unassignedOp

/-- The operation a command word and its data block stand for, or why they are illegal
(R115, R118, R119). -/
def decode (w : CmdWord) (data : Bytes) : Except Illegal Instr :=
  match unitOf w with
  | 0x1 => decodeCodec (opOf w) (immOf w) data
  | 0x2 => decodeRb (opOf w) (immOf w) data
  | 0x3 => decodeSch (opOf w) (immOf w) data
  | _ => .error .reservedUnit

/-! ### Port admission (R120) -/

/-- The admission table: at which port an operation is admitted. -/
def admits (i : Instr) (p : Port) : Bool :=
  match i with
  | .codecReset => p == .dec
  | .codecReqReset => true
  | .codecDecode _ => p == .dec
  | .codecEncode _ _ => p == .host
  | .codecMsgCopy => p == .dec
  | .rbTryGetWrite => p == .prod
  | .rbFill _ _ => p == .prod
  | .rbCommitWrite _ => p == .prod
  | .rbTryGetRead => p == .dec
  | .rbCommitRead => p == .dec
  | .rbBytesAvailable => true
  | .rbReadHwm => p == .host
  | .schLoad _ => p == .host
  | .schStart _ => p == .host
  | .schStep _ => p == .host
  | .schStop => p == .host
  | .schStopNext => p == .host
  | .schStatus => p == .host
  | .schExecDone _ => p == .host

/-- A port that admits the operation. -/
def admittedPort (i : Instr) : Port :=
  if admits i .host then .host else if admits i .prod then .prod else .dec

/-- The operation that arrives at a port, or why it is illegal there: the five grounds of R118. -/
def decodeAt (p : Port) (w : CmdWord) (data : Bytes) : Except Illegal Instr :=
  match decode w data with
  | .ok i => if admits i p then .ok i else .error .portNotAdmitted
  | .error e => .error e

/-! ### The encoder (R116, R119) -/

/-- The command word of an operation. -/
def encodeWord : Instr → CmdWord
  | .codecReset => cmd32 0x1#4 0x0#4 0#24
  | .codecReqReset => cmd32 0x1#4 0x1#4 0#24
  | .codecDecode _ => cmd32 0x1#4 0x2#4 0#24
  | .codecEncode addr _ => cmd32 0x1#4 0x3#4 (0#8 ++ addr)
  | .codecMsgCopy => cmd32 0x1#4 0x4#4 0#24
  | .rbTryGetWrite => cmd32 0x2#4 0x0#4 0#24
  | .rbFill off _ => cmd32 0x2#4 0x1#4 off
  | .rbCommitWrite n => cmd32 0x2#4 0x2#4 n
  | .rbTryGetRead => cmd32 0x2#4 0x3#4 0#24
  | .rbCommitRead => cmd32 0x2#4 0x4#4 0#24
  | .rbBytesAvailable => cmd32 0x2#4 0x5#4 0#24
  | .rbReadHwm => cmd32 0x2#4 0x6#4 0#24
  | .schLoad _ => cmd32 0x3#4 0x0#4 0#24
  | .schStart lineNum => cmd32 0x3#4 0x1#4 lineNum
  | .schStep lineNum => cmd32 0x3#4 0x2#4 lineNum
  | .schStop => cmd32 0x3#4 0x3#4 0#24
  | .schStopNext => cmd32 0x3#4 0x4#4 0#24
  | .schStatus => cmd32 0x3#4 0x5#4 0#24
  | .schExecDone r => cmd32 0x3#4 0x6#4 (0#23 ++ BitVec.ofBool r)

/-- The command word and the data block of an operation. -/
def encode (i : Instr) : CmdWord × Bytes := (encodeWord i, i.dataBlock)

/-! ### The opcode table's match and mask (R119) -/

/-- One row of the opcode map. -/
structure OpcodeRow where
  base : CmdWord
  mask : CmdWord
deriving DecidableEq, Repr

/-- The row of an operation: its `match` and its `mask`. -/
def opcodeRow : Instr → OpcodeRow
  | .codecReset => ⟨0x10000000#32, 0xFFFFFFFF#32⟩
  | .codecReqReset => ⟨0x11000000#32, 0xFFFFFFFF#32⟩
  | .codecDecode _ => ⟨0x12000000#32, 0xFFFFFFFF#32⟩
  | .codecEncode _ _ => ⟨0x13000000#32, 0xFFFF0000#32⟩
  | .codecMsgCopy => ⟨0x14000000#32, 0xFFFFFFFF#32⟩
  | .rbTryGetWrite => ⟨0x20000000#32, 0xFFFFFFFF#32⟩
  | .rbFill _ _ => ⟨0x21000000#32, 0xFF000000#32⟩
  | .rbCommitWrite _ => ⟨0x22000000#32, 0xFF000000#32⟩
  | .rbTryGetRead => ⟨0x23000000#32, 0xFFFFFFFF#32⟩
  | .rbCommitRead => ⟨0x24000000#32, 0xFFFFFFFF#32⟩
  | .rbBytesAvailable => ⟨0x25000000#32, 0xFFFFFFFF#32⟩
  | .rbReadHwm => ⟨0x26000000#32, 0xFFFFFFFF#32⟩
  | .schLoad _ => ⟨0x30000000#32, 0xFFFFFFFF#32⟩
  | .schStart _ => ⟨0x31000000#32, 0xFF000000#32⟩
  | .schStep _ => ⟨0x32000000#32, 0xFF000000#32⟩
  | .schStop => ⟨0x33000000#32, 0xFFFFFFFF#32⟩
  | .schStopNext => ⟨0x34000000#32, 0xFFFFFFFF#32⟩
  | .schStatus => ⟨0x35000000#32, 0xFFFFFFFF#32⟩
  | .schExecDone _ => ⟨0x36000000#32, 0xFFFFFFFE#32⟩

/-! ### The byte-wide form (20_memory.md R78) -/

/-- A number of `k` bytes as a byte-wide link carries it: the most significant byte first. -/
def msbFirst : Nat → Nat → Bytes
  | 0, _ => []
  | k + 1, v => BitVec.ofNat 8 (v / 256 ^ k) :: msbFirst k v

/-- The number a most-significant-first byte sequence carries. -/
def ofMsbFirst (s : Bytes) : Nat := s.foldl (fun v b => v * 256 + b.toNat) 0

/-- The operation an octet stream stands for: a command word in four bytes, most significant
first (R78), then all the rest as its data block. Where the data block stands on a byte-wide link,
with no length before it, is DESIGN CHOICE (assumption log 16). Fewer than four bytes hold no
command word. -/
def decodeOctets (s : Bytes) : Option Instr :=
  if s.length < 4 then none
  else (decode (BitVec.ofNat 32 (ofMsbFirst (s.take 4))) (s.drop 4)).toOption

/-- The octet stream of an operation: its word, most significant byte first (R78), then its data
block (DESIGN CHOICE, assumption log 16). -/
def encodeOctets (i : Instr) : Bytes := msbFirst 4 (encodeWord i).toNat ++ i.dataBlock

/-- The instruction read from a table word of `nbits` bits, the data block empty. -/
def decodeTableWord (nbits w : Nat) : Option Instr :=
  if nbits ≤ 32 then decodeOctets (msbFirst 4 (w % 2 ^ nbits)) else none

end Sys2Proof
end

