-- ==== Sys2Proof/Machine/State.lean ====
section
/-! DEFINITION. The state of the block as plain data: the tuple (CFG, CODEC, RB, SCH, EVQ) of
spec/10_state.md R21, the time input (R60), the environment parameters (00_scope.md R12), and the
model's own fields for the agents' schedule and for the reply of the last transaction. -/

namespace Sys2Proof.Machine

/-- The machine stops with one of these only in states no run reaches. All are SAFE: the model
stops where the spec says the situation cannot occur (assumption log 9). -/
inductive Fault where
  /-- Raised by the decoder, the emit procedure and `CODEC.MSG_COPY` for an index outside
  `MSGBUF` (20_memory.md R76, R79). Safe. -/
  | msgbufIndex
  /-- Raised by the ring buffer operations for a slot, an entry of `used`, or a byte of a slot that
  does not exist (20_memory.md R76). Safe. -/
  | slotIndex
  /-- Raised by the executor for an index outside `LINES` (20_memory.md R76). Safe. -/
  | lineIndex
  /-- Raised by the decoder in a state its variant never reaches (40_codec.md R155). Safe. -/
  | decoderState
deriving DecidableEq, Repr

/-- The model has no meaning for what it was given. -/
inductive Refusal where
  /-- Raised by `exec` for an instruction that has no meaning yet. Safe. -/
  | notModelled (mnemonic : String)
  /-- Raised for a transaction whose data block is longer than R117 lets an operation carry: no
  port can carry it (assumption log 10). Safe. -/
  | dataBlockTooLong
deriving DecidableEq, Repr

/-! ### Encoded enumerations -/

/-- The decoder state `dstate` (10_state.md R28). -/
inductive DState where
  | waitSync1
  | waitSync2
  | readAddr
  | readLenHi
  | readLenLo
  | readPayload
  | readCrc
  | readLen8
deriving DecidableEq, Repr

/-- The engine state `sch_state` (10_state.md R53). -/
inductive SchState where
  | none
  | loaded
  | running
  | loadedWithErrors
deriving DecidableEq, Repr

/-- The executor's phase `xphase` (10_state.md R56). -/
inductive XPhase where
  | idle
  | head
  | sleep
  | execWait
deriving DecidableEq, Repr

/-- The outstanding callout `callout` (10_state.md R57). Its encoding 3 is never written. -/
inductive Callout where
  | none
  | run
  | step
deriving DecidableEq, Repr

/-- Line error codes (30_encoding.md R131). -/
inductive LineErr where
  | none
  | tooFewTokens
  | badTime
  | unknownCmd
  | testFailed
deriving DecidableEq, Repr

/-- Decode error codes (30_encoding.md R128). -/
inductive ErrCode where
  | syncLost
  | sync2Missing
  | badCrc
  | oversized
deriving DecidableEq, Repr

/-! ### Events and replies -/

/-- Event records (30_encoding.md R130). -/
inductive Event where
  | msg (addr : Byte) (len : Nat) (payload : Bytes)
  | err (pos : Nat) (code : ErrCode)
  | stateChanged (state : SchState)
  | nextCommand (line : Nat)
  | finished (filename : Bytes)
  | stopped (filename : Bytes)
  | cmdExecError (line : Nat)
  | execReq (line : Nat) (cmdId : BitVec 32) (params : List Bytes)
deriving DecidableEq, Repr

/-- The values an `OK` reply carries (30_encoding.md R127). -/
inductive Values where
  | none
  | frame (frame : Bytes)
  | message (addr : Byte) (len : Nat) (payload : Bytes)
  | slot (slot : Nat)
  | slotData (slot : Nat) (len : Nat) (data : Bytes)
  | bytes (bytes : Nat)
  | hwm (hwm : Nat)
  | hadErrors (hadErrors : Bool)
  | status (state : SchState) (busy : Bool) (pos : Nat) (nlines : Nat)
deriving DecidableEq, Repr

/-- A reply: a status (30_encoding.md R126), and only with `OK` the values of R127. -/
inductive Reply where
  | ok (values : Values)
  | failed
  | illegal
  | busy
  | seqError
  | rangeError
deriving DecidableEq, Repr

/-! ### Memory -/

/-- The bytes of one address space that something has written, as (address, byte) pairs with
strictly rising addresses. An address that is not listed holds no value of its own: what it reads
as is the free value `Config.initialByte` (assumption log 5). -/
abbrev Memory := List Host.Cell

/-! ### The units -/

/-- CODEC (10_state.md R28 to R38). -/
structure Codec where
  dstate   : DState
  crc      : Byte
  len      : Nat
  idx      : Nat
  msgAddr  : Byte
  msgLen   : Nat
  msgValid : Bool
  lastOk   : Bool
  errCount : Nat
  resetReq : Bool
  msgbuf   : Memory
deriving DecidableEq, Repr

/-- RB (10_state.md R41 to R49). `slots` is `SLOT`, the byte at offset `o` of slot `s` standing at
address `s * SLOT_SIZE + o` (assumption log 11). -/
structure Rb where
  slots  : Memory
  used   : List Nat
  wr     : Nat
  rd     : Nat
  count  : Nat
  bytes  : Nat
  hwm    : Nat
  wrHeld : Bool
  rdHeld : Bool
deriving DecidableEq, Repr

/-- One CyclogramLine of `LINES` (10_state.md R54). -/
structure Line where
  text      : Bytes
  isCmd     : Bool
  delay     : Nat
  origDelay : Nat
  absTime   : Nat
  cmdName   : Bytes
  cmdId     : BitVec 32
  params    : List Bytes
  comment   : Bytes
  err       : LineErr
deriving DecidableEq, Repr

/-- SCH (10_state.md R52 to R57). `nlines` is the length of `lines` (assumption log 8). -/
structure Sch where
  schState    : SchState
  pos         : Nat
  lines       : List Line
  hadErrors   : Bool
  filename    : Bytes
  xphase      : XPhase
  slice       : Nat
  wake        : Nat
  callout     : Callout
  calloutLine : Nat
  stopNext    : Bool
  stopIssuer  : Nat
  finished    : Bool
deriving DecidableEq, Repr

/-- What an agent does next (20_memory.md R80; assumption log 1). -/
inductive Input where
  /-- The agent of the port issues a transaction (60_exceptions.md R299). -/
  | op (port : Port) (word : CmdWord) (data : Bytes)
  /-- The EXECUTOR has its turn (60_exceptions.md R301). -/
  | executor
  /-- TIME advances `now` by a positive number of milliseconds (60_exceptions.md R306). -/
  | time (ms : Nat)
deriving DecidableEq, Repr

/-- The whole state. -/
structure State where
  /-- `CFG` (10_state.md R24). -/
  cfg       : Cfg
  /-- The environment parameters (00_scope.md R12). -/
  env       : Env
  /-- CODEC. -/
  codec     : Codec
  /-- RB. -/
  rb        : Rb
  /-- SCH. -/
  sch       : Sch
  /-- `EVQ`, oldest record first (10_state.md R61). -/
  evq       : List Event
  /-- The time input, in milliseconds (10_state.md R60). -/
  now       : Nat
  /-- The MODEL's own: what the agents do next, in order (assumption log 1). -/
  inputs    : List Input
  /-- The MODEL's own: the port of the transaction the last step completed, if it completed one
  (assumption log 6). -/
  issuer    : Option Port
  /-- The MODEL's own: the reply of that transaction (assumption log 6). -/
  reply     : Option Reply
  /-- The MODEL's own: the counter that the free value `Config.idleAdvance` is applied to
  (assumption log 2). -/
  idleTicks : Nat
deriving DecidableEq, Repr

/-! ### Construction (70_reset_and_hazards.md R331) -/

/-- CODEC after construction. -/
def Codec.reset : Codec where
  dstate   := .waitSync1
  crc      := 0x00#8
  len      := 0
  idx      := 0
  msgAddr  := 0x00#8
  msgLen   := 0
  msgValid := false
  lastOk   := false
  errCount := 0
  resetReq := false
  msgbuf   := []

/-- RB after construction with `n` slots. -/
def Rb.reset (n : Nat) : Rb where
  slots  := []
  used   := List.replicate n 0
  wr     := 0
  rd     := 0
  count  := 0
  bytes  := 0
  hwm    := 0
  wrHeld := false
  rdHeld := false

/-- SCH after construction. -/
def Sch.reset : Sch where
  schState    := .none
  pos         := 0
  lines       := []
  hadErrors   := false
  filename    := []
  xphase      := .idle
  slice       := 0
  wake        := 0
  callout     := .none
  calloutLine := 0
  stopNext    := false
  stopIssuer  := 0
  finished    := false

/-- The block after construction reset with the given configuration, before any agent acts. -/
def State.resetWith (cfg : Cfg) (env : Env) (now : Nat) : State where
  cfg       := cfg
  env       := env
  codec     := Codec.reset
  rb        := Rb.reset cfg.rbSlots
  sch       := Sch.reset
  evq       := []
  now       := now
  inputs    := []
  issuer    := none
  reply     := none
  idleTicks := 0

/-- Construction: a block from a well-formed configuration, and none from an ill-formed one
(00_scope.md R11). -/
def State.construct (cfg : Cfg) (env : Env) (now : Nat) : Option State :=
  if cfg.wf then some (State.resetWith cfg env now) else none

/-- The block right after construction reset, with the configuration of assumption logs 3 and 4
and `now` at 0. -/
def State.reset : State := State.resetWith Config.vectorCfg Config.vectorEnv 0

end Sys2Proof.Machine
end

