-- ==== Sys2Proof/Machine/Crc.lean ====
section
/-! DEFINITION. CRC-8 with polynomial 0x07, most significant bit first, initial value 0x00, no
reflection, final XOR 0x00 (spec/30_encoding.md R110, R111; assumption log 14). -/

namespace Sys2Proof.Machine

/-- One shift of the table's definition: shift left, and XOR the polynomial in when bit 7 was 1. -/
def crcShift (c : Byte) : Byte := if c.msb then (c <<< 1) ^^^ Config.crcPoly else c <<< 1

/-- `CRC_TABLE[i]`: `i` shifted 8 times (R111). -/
def crcTable (i : Byte) : Byte :=
  crcShift (crcShift (crcShift (crcShift (crcShift (crcShift (crcShift (crcShift i)))))))

/-- `crc8_update(c, b)` (R111). -/
def crc8Update (c b : Byte) : Byte := crcTable (c ^^^ b)

/-- `crc8_update` folded over a byte sequence from a running value. -/
def crc8From (c : Byte) (s : Bytes) : Byte := s.foldl crc8Update c

/-- `crc8(s)` (R111). -/
def crc8 (s : Bytes) : Byte := crc8From Config.crcInit s

end Sys2Proof.Machine
end

