-- ==== Sys2Proof/Machine/Ops.lean ====
section
/-! DEFINITION. The named operations over the state that every meaning is written with: the
encodings of its enumerations, reading and writing memory, emitting events, replying, and the
decoder's error procedure, which is the block's only shared way of raising an error (the block has
no traps, spec/60_exceptions.md R292). -/

namespace Sys2Proof.Machine

/-- The outcome of one step of the block. -/
abbrev Out := Host.Outcome State Fault Refusal

/-! ### Numeric encodings -/

/-- 10_state.md R28. -/
def DState.code : DState → BitVec 3
  | .waitSync1 => 0
  | .waitSync2 => 1
  | .readAddr => 2
  | .readLenHi => 3
  | .readLenLo => 4
  | .readPayload => 5
  | .readCrc => 6
  | .readLen8 => 7

/-- 10_state.md R53. -/
def SchState.code : SchState → BitVec 2
  | .none => 0
  | .loaded => 1
  | .running => 2
  | .loadedWithErrors => 3

/-- 10_state.md R56. -/
def XPhase.code : XPhase → BitVec 2
  | .idle => 0
  | .head => 1
  | .sleep => 2
  | .execWait => 3

/-- 10_state.md R57. -/
def Callout.code : Callout → BitVec 2
  | .none => 0
  | .run => 1
  | .step => 2

/-- 30_encoding.md R131. -/
def LineErr.code : LineErr → BitVec 4
  | .none => 0
  | .tooFewTokens => 1
  | .badTime => 2
  | .unknownCmd => 3
  | .testFailed => 4

/-- 30_encoding.md R128. -/
def ErrCode.code : ErrCode → BitVec 8
  | .syncLost => 1
  | .sync2Missing => 2
  | .badCrc => 3
  | .oversized => 4

/-- The status code of a reply (30_encoding.md R126). -/
def Reply.statusCode : Reply → BitVec 8
  | .ok _ => 0
  | .failed => 1
  | .illegal => 2
  | .busy => 3
  | .seqError => 4
  | .rangeError => 5

/-- The tag of an event record (30_encoding.md R130). -/
def Event.tag : Event → BitVec 8
  | .msg _ _ _ => 0x01
  | .err _ _ => 0x02
  | .stateChanged _ => 0x10
  | .nextCommand _ => 0x11
  | .finished _ => 0x12
  | .stopped _ => 0x13
  | .cmdExecError _ => 0x14
  | .execReq _ _ _ => 0x15

/-! ### Memory (20_memory.md R76 to R81) -/

/-- The byte something has written at an address, if anything has. -/
def Memory.byteAt : Memory → Nat → Option Byte
  | [], _ => none
  | c :: m, a => if c.1 = a then some c.2 else Memory.byteAt m a

/-- Write one byte, keeping the addresses strictly rising. -/
def Memory.put : Memory → Nat → Byte → Memory
  | [], a, b => [(a, b)]
  | c :: m, a, b =>
    if a < c.1 then (a, b) :: c :: m
    else if a = c.1 then (a, b) :: m
    else c :: Memory.put m a b

/-- The canonical form: addresses strictly rising. What an unlisted address reads as is no listed
value, so no entry is redundant (assumption log 5). -/
def Memory.wf (m : Memory) : Bool := decide ((m.map Prod.fst).Pairwise (· < ·))

/-- What a byte reads as: the value last written, or the free value of its address. -/
def readByte (space : Space) (m : Memory) (a : Nat) : Byte :=
  (m.byteAt a).getD (Config.initialByte space a)

/-- `n` consecutive bytes from address `a`. -/
def readBytes (space : Space) (m : Memory) (a : Nat) : Nat → Bytes
  | 0 => []
  | n + 1 => readByte space m a :: readBytes space m (a + 1) n

/-- Write a byte sequence from address `a` on. -/
def writeBytes (m : Memory) (a : Nat) : Bytes → Memory
  | [] => m
  | b :: bs => writeBytes (m.put a b) (a + 1) bs

/-- `MemRead(MSGBUF, 0, n)` (00_scope.md R15). -/
def msgbufRead (cfg : Cfg) (c : Codec) (n : Nat) : Except Fault Bytes :=
  if n ≤ cfg.msgbufSize then .ok (readBytes .msgbuf c.msgbuf 0 n) else .error .msgbufIndex

/-- `MemWrite(MSGBUF, i, 1, [b])` (00_scope.md R15). -/
def msgbufWrite (cfg : Cfg) (c : Codec) (i : Nat) (b : Byte) : Except Fault Memory :=
  if i < cfg.msgbufSize then .ok (c.msgbuf.put i b) else .error .msgbufIndex

/-- The address in `SLOT` of offset `o` of slot `i` (20_memory.md R76; assumption log 11). -/
def slotAddr (cfg : Cfg) (i o : Nat) : Nat := i * cfg.slotSize + o

/-- `MemRead(SLOT[i], 0, n)` (00_scope.md R15). -/
def slotRead (cfg : Cfg) (r : Rb) (i n : Nat) : Except Fault Bytes :=
  if i < cfg.rbSlots ∧ n ≤ cfg.slotSize then
    .ok (readBytes .slot r.slots (slotAddr cfg i 0) n)
  else .error .slotIndex

/-- `MemWrite(SLOT[i], o, |data|, data)` (00_scope.md R15). -/
def slotWrite (cfg : Cfg) (r : Rb) (i o : Nat) (data : Bytes) : Except Fault Memory :=
  if i < cfg.rbSlots ∧ o + data.length ≤ cfg.slotSize then
    .ok (writeBytes r.slots (slotAddr cfg i o) data)
  else .error .slotIndex

/-! ### Updates of the state -/

/-- Replace CODEC. -/
def State.withCodec (s : State) (c : Codec) : State := { s with codec := c }

/-- Replace RB. -/
def State.withRb (s : State) (r : Rb) : State := { s with rb := r }

/-- Replace SCH. -/
def State.withSch (s : State) (x : Sch) : State := { s with sch := x }

/-- `emit` each record, in order (00_scope.md R15, 30_encoding.md R129). -/
def State.emit (s : State) (es : List Event) : State := { s with evq := s.evq ++ es }

/-- `reply` (00_scope.md R15, 30_encoding.md R125). -/
def State.answer (s : State) (r : Reply) : State := { s with reply := some r }

/-- The state in which the transaction at the head of the schedule is taken: the rest of the
schedule remains, the issuer is noted, no reply has been given. -/
def State.received (s : State) (p : Port) (rest : List Input) : State :=
  { s with inputs := rest, issuer := some p, reply := none }

/-- The state in which an agent without a port has its turn: the rest of the schedule remains, no
transaction is answered. -/
def State.turn (s : State) (rest : List Input) : State :=
  { s with inputs := rest, issuer := none, reply := none }

/-- TIME advances `now` (60_exceptions.md R306). -/
def State.advance (s : State) (ms : Nat) : State := { s with now := s.now + ms }

/-- TIME advances `now` by a free positive amount (60_exceptions.md R306; assumption log 2). -/
def State.idle (s : State) : State :=
  { s with now := s.now + (Config.idleAdvance s.idleTicks + 1), idleTicks := s.idleTicks + 1 }

/-! ### Outcomes -/

/-- End the operation with a reply. -/
def State.done (s : State) (r : Reply) : Out := .next (s.answer r)

/-- Go on with a checked result, or stop with its fault. -/
def orFault {α : Type} (r : Except Fault α) (k : α → Out) : Out :=
  match r with
  | .ok a => k a
  | .error f => .fault f

/-! ### The decoder's error procedure (40_codec.md R157) -/

/-- `raise DecodeError(pos, code)`: clears `last_ok`, and while fewer than `MAX_ERRORS` errors have
been emitted since the last decoder reset emits the record and counts it. It does not trap and does
not change `dstate`: the calling step sets it. -/
def raiseDecodeError (cfg : Cfg) (c : Codec) (pos : Nat) (code : ErrCode) : Codec × List Event :=
  if c.errCount < cfg.maxErrors then
    ({ c with lastOk := false, errCount := c.errCount + 1 }, [.err pos code])
  else ({ c with lastOk := false }, [])

end Sys2Proof.Machine
end

