-- ==== Sys2Proof/Machine/Operands.lean ====
section
/-! DEFINITION. The operand forms of the operations: the two halves of a length field, and the data
block of `SCH.LOAD` (spec/00_scope.md R14, spec/30_encoding.md R116, R117). -/

namespace Sys2Proof.Machine

/-- `hi8(v) = v[15:8]` (R14). -/
def hi8 (v : Nat) : Byte := BitVec.ofNat 8 (v / 256)

/-- `lo8(v) = v[7:0]` (R14). -/
def lo8 (v : Nat) : Byte := BitVec.ofNat 8 v

/-- A byte sequence cut at the first byte equal to `x`, which belongs to neither part; none when
there is no such byte. -/
def cutAt (x : Byte) : Bytes → Option (Bytes × Bytes)
  | [] => none
  | b :: bs =>
    if b = x then some ([], bs)
    else
      match cutAt x bs with
      | none => none
      | some (l, r) => some (b :: l, r)

/-- The file name and the text of a `SCH.LOAD` data block, split at its first zero byte
(R117, 42_scheduler.md R213). -/
def loadBlock (block : Bytes) : Option (Bytes × Bytes) := cutAt 0x00#8 block

/-- An operand that is an unsigned number (R116). -/
def operandNat {w : Nat} (v : BitVec w) : Nat := v.toNat

end Sys2Proof.Machine
end

