-- ==== Sys2Proof/Machine/Codec.lean ====
section
/-! DEFINITION. The CODEC family: the decoder's procedures and byte steps, the encoder, and the
meanings of the five CODEC operations (spec/40_codec.md). -/

namespace Sys2Proof.Machine

/-! ### Procedures -/

/-- What a byte step leaves: CODEC and the records it emitted, in order. -/
abbrev CodecStep := Except Fault (Codec × List Event)

/-- `DoReset` (R152). `msg_addr`, `msg_len` and `MSGBUF` keep their contents. -/
def doReset (c : Codec) : Codec :=
  { c with
    dstate := .waitSync1, crc := 0x00#8, len := 0, idx := 0, msgValid := false, lastOk := false,
    errCount := 0, resetReq := false }

/-- `Emit` (R156), followed by the return to `WAIT_SYNC1` that both callers make (R165, R170). -/
def emitMessage (cfg : Cfg) (c : Codec) : CodecStep :=
  match msgbufRead cfg c c.len with
  | .ok payload =>
    .ok ({ c with msgLen := c.len, msgValid := true, lastOk := true, dstate := .waitSync1 },
      [.msg c.msgAddr c.len payload])
  | .error f => .error f

/-- `HdrCrc(b)` (R158): the running CRC after a header byte. -/
def hdrCrc (cfg : Cfg) (crc b : Byte) : Byte :=
  if cfg.includeHeaderCrc then crc8Update crc b else crc

/-- The running CRC after SYNC1 (R159). -/
def sync1Crc (cfg : Cfg) : Byte :=
  if cfg.includeHeaderCrc && cfg.hdrCrcFirst == .sync1 then
    crc8Update Config.crcInit Config.sync1of5E4D
  else Config.crcInit

/-- Raise a decode error and return to `WAIT_SYNC1`, the recovery of every error but `SYNC_LOST`,
which is already there (60_exceptions.md R293, R296). -/
def failFrame (cfg : Cfg) (c : Codec) (pos : Nat) (code : ErrCode) : Codec × List Event :=
  let r := raiseDecodeError cfg c pos code
  ({ r.1 with dstate := .waitSync1 }, r.2)

/-- A byte that is not SYNC1 in sync search: `SYNC_LOST` when the previous frame completed
successfully, otherwise nothing (R159, R166). -/
def missSync1 (cfg : Cfg) (c : Codec) (pos : Nat) : Codec × List Event :=
  if c.lastOk then raiseDecodeError cfg c pos .syncLost else (c, [])

/-! ### P5E4D byte steps (R159 to R165) -/

/-- `WAIT_SYNC1` (R159). -/
def p5WaitSync1 (cfg : Cfg) (c : Codec) (b : Byte) (pos : Nat) : CodecStep :=
  if b = Config.sync1of5E4D then .ok ({ c with crc := sync1Crc cfg, dstate := .waitSync2 }, [])
  else .ok (missSync1 cfg c pos)

/-- `WAIT_SYNC2` (R160). -/
def p5WaitSync2 (cfg : Cfg) (c : Codec) (b : Byte) (pos : Nat) : CodecStep :=
  if b = Config.sync2of5E4D then
    .ok ({ c with crc := hdrCrc cfg c.crc b, dstate := .readAddr }, [])
  else .ok (failFrame cfg c pos .sync2Missing)

/-- `READ_ADDR` (R161). -/
def p5ReadAddr (cfg : Cfg) (c : Codec) (b : Byte) : CodecStep :=
  .ok ({ c with
    msgAddr := b, msgValid := false, crc := hdrCrc cfg c.crc b, dstate := .readLenHi }, [])

/-- `READ_LEN_HI` (R162). -/
def p5ReadLenHi (cfg : Cfg) (c : Codec) (b : Byte) : CodecStep :=
  .ok ({ c with len := b.toNat * 256, crc := hdrCrc cfg c.crc b, dstate := .readLenLo }, [])

/-- `READ_LEN_LO` (R163). -/
def p5ReadLenLo (cfg : Cfg) (c : Codec) (b : Byte) (pos : Nat) : CodecStep :=
  let c1 := { c with len := c.len + b.toNat, crc := hdrCrc cfg c.crc b, idx := 0 }
  if cfg.maxFrame < c1.len + Config.overhead5E4D then .ok (failFrame cfg c1 pos .oversized)
  else if c1.len = 0 then .ok ({ c1 with dstate := .readCrc }, [])
  else .ok ({ c1 with dstate := .readPayload }, [])

/-- `READ_PAYLOAD` (R164). -/
def p5ReadPayload (cfg : Cfg) (c : Codec) (b : Byte) : CodecStep :=
  match msgbufWrite cfg c c.idx b with
  | .ok m =>
    .ok ({ c with
      msgbuf := m, crc := crc8Update c.crc b, idx := c.idx + 1,
      dstate := if c.idx + 1 = c.len then .readCrc else c.dstate }, [])
  | .error f => .error f

/-- `READ_CRC` (R165). -/
def p5ReadCrc (cfg : Cfg) (c : Codec) (b : Byte) (pos : Nat) : CodecStep :=
  if b = c.crc then emitMessage cfg c else .ok (failFrame cfg c pos .badCrc)

/-- The P5E4D step that matches `dstate` (R155). -/
def p5Step (cfg : Cfg) (c : Codec) (b : Byte) (pos : Nat) : CodecStep :=
  match c.dstate with
  | .waitSync1 => p5WaitSync1 cfg c b pos
  | .waitSync2 => p5WaitSync2 cfg c b pos
  | .readAddr => p5ReadAddr cfg c b
  | .readLenHi => p5ReadLenHi cfg c b
  | .readLenLo => p5ReadLenLo cfg c b pos
  | .readPayload => p5ReadPayload cfg c b
  | .readCrc => p5ReadCrc cfg c b pos
  | .readLen8 => .error .decoderState

/-! ### P7C6E byte steps (R166 to R170) -/

/-- `WAIT_SYNC1` (R166). -/
def p7WaitSync1 (cfg : Cfg) (c : Codec) (b : Byte) (pos : Nat) : CodecStep :=
  if b = Config.sync1of7C6E then .ok ({ c with dstate := .waitSync2 }, [])
  else .ok (missSync1 cfg c pos)

/-- `WAIT_SYNC2` (R167). -/
def p7WaitSync2 (cfg : Cfg) (c : Codec) (b : Byte) (pos : Nat) : CodecStep :=
  if b = Config.sync2of7C6E then .ok ({ c with dstate := .readAddr }, [])
  else .ok (failFrame cfg c pos .sync2Missing)

/-- `READ_ADDR` (R168). -/
def p7ReadAddr (c : Codec) (b : Byte) : CodecStep :=
  .ok ({ c with msgAddr := b, msgValid := false, dstate := .readLen8 }, [])

/-- `READ_LEN8` (R169). -/
def p7ReadLen8 (c : Codec) (b : Byte) : CodecStep :=
  .ok ({ c with len := if b.toNat = 0 then 256 else b.toNat, idx := 0, dstate := .readPayload }, [])

/-- `READ_PAYLOAD` (R170). -/
def p7ReadPayload (cfg : Cfg) (c : Codec) (b : Byte) : CodecStep :=
  match msgbufWrite cfg c c.idx b with
  | .ok m =>
    if c.idx + 1 = c.len then emitMessage cfg { c with msgbuf := m, idx := c.idx + 1 }
    else .ok ({ c with msgbuf := m, idx := c.idx + 1 }, [])
  | .error f => .error f

/-- The P7C6E step that matches `dstate` (R155). -/
def p7Step (cfg : Cfg) (c : Codec) (b : Byte) (pos : Nat) : CodecStep :=
  match c.dstate with
  | .waitSync1 => p7WaitSync1 cfg c b pos
  | .waitSync2 => p7WaitSync2 cfg c b pos
  | .readAddr => p7ReadAddr c b
  | .readLen8 => p7ReadLen8 c b
  | .readPayload => p7ReadPayload cfg c b
  | .readLenHi => .error .decoderState
  | .readLenLo => .error .decoderState
  | .readCrc => .error .decoderState

/-- `DecodeByte(b, pos)` (R155). -/
def decodeByte (cfg : Cfg) (c : Codec) (b : Byte) (pos : Nat) : CodecStep :=
  match cfg.protocol with
  | .p5E4D => p5Step cfg c b pos
  | .p7C6E => p7Step cfg c b pos

/-- The byte steps of a chunk whose first byte has the given position, in byte order (R154). -/
def decodeChunk (cfg : Cfg) (c : Codec) (pos : Nat) : Bytes → CodecStep
  | [] => .ok (c, [])
  | b :: bs =>
    match decodeByte cfg c b pos with
    | .error f => .error f
    | .ok (c1, e1) =>
      match decodeChunk cfg c1 (pos + 1) bs with
      | .error f => .error f
      | .ok (c2, e2) => .ok (c2, e1 ++ e2)

/-! ### The encoder (R171) -/

/-- The five header bytes of a P5E4D frame (30_encoding.md R107). -/
def header5E4D (addr : Byte) (n : Nat) : Bytes :=
  [Config.sync1of5E4D, Config.sync2of5E4D, addr, hi8 n, lo8 n]

/-- The bytes the CRC of a P5E4D frame covers (30_encoding.md R112). -/
def crcCover (cfg : Cfg) (addr : Byte) (payload : Bytes) : Bytes :=
  let hdr := header5E4D addr payload.length
  if cfg.includeHeaderCrc then
    match cfg.hdrCrcFirst with
    | .sync1 => hdr ++ payload
    | .sync2 => hdr.drop 1 ++ payload
  else payload

/-- The P5E4D frame of a payload (30_encoding.md R107). -/
def frame5E4D (cfg : Cfg) (addr : Byte) (payload : Bytes) : Bytes :=
  header5E4D addr payload.length ++ payload ++ [crc8 (crcCover cfg addr payload)]

/-- The P7C6E frame of a payload (30_encoding.md R109). -/
def frame7C6E (addr : Byte) (payload : Bytes) : Bytes :=
  [Config.sync1of7C6E, Config.sync2of7C6E, addr, lo8 payload.length] ++ payload

/-- The encoded frame, none where R171 replies `FAILED`. -/
def encodeFrame (cfg : Cfg) (addr : BitVec 16) (payload : Bytes) : Option Bytes :=
  if 255 < operandNat addr then none
  else
    match cfg.protocol with
    | .p5E4D =>
      if cfg.maxFrame < payload.length + Config.overhead5E4D then none
      else some (frame5E4D cfg (addr.setWidth 8) payload)
    | .p7C6E =>
      if payload.length = 0 ∨ 256 < payload.length then none
      else some (frame7C6E (addr.setWidth 8) payload)

/-! ### The operations -/

/-- `CODEC.RESET` (R152). -/
def execCodecReset (s : State) : Out := (s.withCodec (doReset s.codec)).done (.ok .none)

/-- `CODEC.REQ_RESET` (R153). -/
def execCodecReqReset (s : State) : Out :=
  (s.withCodec { s.codec with resetReq := true }).done (.ok .none)

/-- The decoder a `CODEC.DECODE` starts from: reset first when that was requested (R154). -/
def decodeStart (c : Codec) : Codec := if c.resetReq then doReset c else c

/-- `CODEC.DECODE [chunk]` (R154). -/
def execCodecDecode (chunk : Bytes) (s : State) : Out :=
  orFault (decodeChunk s.cfg (decodeStart s.codec) 0 chunk) fun r =>
    ((s.withCodec r.1).emit r.2).done (.ok .none)

/-- `CODEC.ENCODE addr, [payload]` (R171). -/
def execCodecEncode (addr : BitVec 16) (payload : Bytes) (s : State) : Out :=
  match encodeFrame s.cfg addr payload with
  | some f => s.done (.ok (.frame f))
  | none => s.done .failed

/-- `CODEC.MSG_COPY` (R173). -/
def execCodecMsgCopy (s : State) : Out :=
  if s.codec.msgValid then
    orFault (msgbufRead s.cfg s.codec s.codec.msgLen) fun payload =>
      s.done (.ok (.message s.codec.msgAddr s.codec.msgLen payload))
  else s.done .failed

end Sys2Proof.Machine
end

