-- ==== Sys2Proof/Machine/Flags.lean ====
section
/-! DEFINITION. The conditions the operations test and the flags and statistics they compute. The
block has no arithmetic condition flags (spec/10_state.md R22); its flag bits are `msg_valid`,
`last_ok`, `reset_req`, `wr_held`, `rd_held`, `had_errors`, `stop_next` and `finished`. -/

namespace Sys2Proof.Machine

/-- `busy` (42_scheduler.md R212). -/
def Sch.busy (x : Sch) : Bool := x.xphase != .idle || x.callout != .none

/-- The ring buffer is full (41_ringbuffer.md R192). -/
def Rb.full (cfg : Cfg) (r : Rb) : Bool := decide (cfg.rbSlots ≤ r.count)

/-- The ring buffer is empty (41_ringbuffer.md R195). -/
def Rb.empty (r : Rb) : Bool := r.count == 0

/-- A cursor moved on by one, modulo `RB_SLOTS` (41_ringbuffer.md R202). -/
def cursorNext (cfg : Cfg) (i : Nat) : Nat := (i + 1) % cfg.rbSlots

/-- The high-water mark after a commit that left `bytes` (41_ringbuffer.md R194). -/
def hwmAfter (hwm bytes : Nat) : Nat := max hwm bytes

/-- `had_errors`: some line has an error code (42_scheduler.md R213). -/
def hadErrorsOf (ls : List Line) : Bool := ls.any (fun l => l.err != .none)

/-- An executor step is enabled (42_scheduler.md R229, R230). -/
def executorEnabled (now : Nat) (x : Sch) : Bool :=
  match x.xphase with
  | .idle => false
  | .head => true
  | .sleep => decide (x.wake ≤ now)
  | .execWait => false

end Sys2Proof.Machine
end

