-- ==== Sys2Proof/Machine/Ring.lean ====
section
/-! DEFINITION. The RB family: the meanings of the seven ring buffer operations
(spec/41_ringbuffer.md). -/

namespace Sys2Proof.Machine

/-- The entry of `used` for a slot (10_state.md R42). -/
def usedAt (r : Rb) (i : Nat) : Except Fault Nat :=
  match r.used[i]? with
  | some n => .ok n
  | none => .error .slotIndex

/-- RB after a commit of `n` bytes (R194). -/
def commitWrite (cfg : Cfg) (r : Rb) (n : Nat) : Rb :=
  { r with
    used := r.used.set r.wr n
    wr := cursorNext cfg r.wr
    count := r.count + 1
    bytes := r.bytes + n
    hwm := hwmAfter r.hwm (r.bytes + n)
    wrHeld := false }

/-- RB after the read slot with `n` used bytes is committed (R196). -/
def commitRead (cfg : Cfg) (r : Rb) (n : Nat) : Rb :=
  { r with
    bytes := r.bytes - n
    rd := cursorNext cfg r.rd
    count := r.count - 1
    rdHeld := false }

/-- `RB.TRY_GET_WRITE` (R192). -/
def execRbTryGetWrite (s : State) : Out :=
  if s.rb.full s.cfg then s.done .failed
  else (s.withRb { s.rb with wrHeld := true }).done (.ok (.slot s.rb.wr))

/-- `RB.FILL off, [data]` (R193). -/
def execRbFill (off : Imm) (data : Bytes) (s : State) : Out :=
  if s.rb.wrHeld then
    if s.cfg.slotSize < operandNat off + data.length then s.done .rangeError
    else
      orFault (slotWrite s.cfg s.rb s.rb.wr (operandNat off) data) fun m =>
        (s.withRb { s.rb with slots := m }).done (.ok .none)
  else s.done .seqError

/-- `RB.COMMIT_WRITE n` (R194). -/
def execRbCommitWrite (n : Imm) (s : State) : Out :=
  if s.rb.wrHeld then
    if s.cfg.slotSize < operandNat n then s.done .rangeError
    else
      orFault (usedAt s.rb s.rb.wr) fun _ =>
        (s.withRb (commitWrite s.cfg s.rb (operandNat n))).done (.ok .none)
  else s.done .seqError

/-- `RB.TRY_GET_READ` (R195). -/
def execRbTryGetRead (s : State) : Out :=
  if s.rb.empty then s.done .failed
  else
    orFault (usedAt s.rb s.rb.rd) fun n =>
      orFault (slotRead s.cfg s.rb s.rb.rd n) fun data =>
        (s.withRb { s.rb with rdHeld := true }).done (.ok (.slotData s.rb.rd n data))

/-- `RB.COMMIT_READ` (R196). -/
def execRbCommitRead (s : State) : Out :=
  if s.rb.rdHeld then
    orFault (usedAt s.rb s.rb.rd) fun n =>
      (s.withRb (commitRead s.cfg s.rb n)).done (.ok .none)
  else s.done .seqError

/-- `RB.BYTES_AVAILABLE` (R197). -/
def execRbBytesAvailable (s : State) : Out := s.done (.ok (.bytes s.rb.bytes))

/-- `RB.READ_HWM` (R198). -/
def execRbReadHwm (s : State) : Out :=
  (s.withRb { s.rb with hwm := 0 }).done (.ok (.hwm s.rb.hwm))

end Sys2Proof.Machine
end

