-- ==== Sys2Proof/Machine/Parse.lean ====
section
/-! DEFINITION. The cyclogram file format: splitting a text into lines, a line into tokens, the time
token, the registry lookup, the test oracle, and one parsed line (spec/30_encoding.md R121, R122,
R131; spec/42_scheduler.md R214, R216 to R220). -/

namespace Sys2Proof.Machine

/-! ### Bytes of the format (R121) -/

/-- LF. -/
def lf : Byte := 0x0A#8

/-- CR. -/
def cr : Byte := 0x0D#8

/-- `#`, which starts the comment. -/
def hash : Byte := 0x23#8

/-- `.`, which separates seconds from milliseconds. -/
def point : Byte := 0x2E#8

/-- Whitespace is SP and HT. -/
def isBlank (b : Byte) : Bool := b == 0x20#8 || b == 0x09#8

/-- `DIGIT` (R122). -/
def isDigit (b : Byte) : Bool := decide (0x30 ≤ b.toNat) && decide (b.toNat ≤ 0x39)

/-! ### Lines (R214) -/

/-- The lines of a text, each without its LF; `cur` is the part of the current line read so far. -/
def cutLines (cur : Bytes) : Bytes → List Bytes
  | [] => if cur = [] then [] else [cur]
  | b :: bs => if b = lf then cur :: cutLines [] bs else cutLines (cur ++ [b]) bs

/-- A line without the single CR at its end. -/
def dropCr (l : Bytes) : Bytes := if l.getLast? = some cr then l.dropLast else l

/-- `SplitLines(text)` (R214). -/
def splitLines (text : Bytes) : List Bytes := (cutLines [] text).map dropCr

/-! ### Tokens (R216) -/

/-- The maximal runs of bytes other than SP and HT; `cur` is the run read so far. -/
def cutTokens (cur : Bytes) : Bytes → List Bytes
  | [] => if cur = [] then [] else [cur]
  | b :: bs =>
    if isBlank b then
      if cur = [] then cutTokens [] bs else cur :: cutTokens [] bs
    else cutTokens (cur ++ [b]) bs

/-- The tokens of a line's body, in order. -/
def tokensOf (body : Bytes) : List Bytes := cutTokens [] body

/-- A line's body and its comment: the bytes before and after its first `#` (R216). -/
def bodyAndComment (t : Bytes) : Bytes × Bytes :=
  match cutAt hash t with
  | some (body, comment) => (body, comment)
  | none => (t, [])

/-! ### The time token (R122, R217, R218) -/

/-- `DIGITS`: one or more digits (R122). -/
def isDigits (s : Bytes) : Bool := s != [] && s.all isDigit

/-- The exact decimal value of a digit string (R217). -/
def decimal (s : Bytes) : Nat := s.foldl (fun v b => v * 10 + (b.toNat - 0x30)) 0

/-- The fraction's digits are well-formed in the mode (R122). -/
def isFraction (mode : TimeFracMode) (s : Bytes) : Bool :=
  match mode with
  | .integerMs => isDigits s
  | .exact3 => s.length == 3 && s.all isDigit

/-- The seconds and milliseconds of a token that matches the grammar of R122. -/
def timeFields (mode : TimeFracMode) (s : Bytes) : Option (Nat × Nat) :=
  match cutAt point s with
  | none => if isDigits s then some (decimal s, 0) else none
  | some (secs, frac) =>
    if isDigits secs && isFraction mode frac then some (decimal secs, decimal frac) else none

/-- `ParseTime(s)`: the delay in milliseconds, none where it answers `(false, 0)` (R217, R218). -/
def parseTime (mode : TimeFracMode) (s : Bytes) : Option Nat :=
  match timeFields mode s with
  | none => none
  | some (secs, ms) =>
    if Config.maxSeconds < secs ∨ Config.maxMillis < ms then none else some (secs * 1000 + ms)

/-! ### Registry and test oracle (R219, R220) -/

/-- The registry entry whose name equals the byte sequence exactly (R219). -/
def lookup (reg : List RegEntry) (name : Bytes) : Option RegEntry :=
  reg.find? (fun e => e.name == name)

/-- `TestOracle(id, params)` (R220; assumption log 4). -/
def testOracle (f : TestFn) (id : BitVec 32) (params : List Bytes) : Bool :=
  match f with
  | .finite dflt exceptions => if (id, params) ∈ exceptions then !dflt else dflt
  | .application => Config.applicationTest id params

/-! ### One line (R216) -/

/-- A line with its text and comment and no token. -/
def blankLine (t comment : Bytes) : Line where
  text      := t
  isCmd     := false
  delay     := 0
  origDelay := 0
  absTime   := 0
  cmdName   := []
  cmdId     := 0#32
  params    := []
  comment   := comment
  err       := .none

/-- The checks on the command name and its parameters, the last two of R216. -/
def resolveCommand (cfg : Cfg) (env : Env) (e : Line) : Line :=
  match lookup cfg.registry e.cmdName with
  | none => { e with err := .unknownCmd }
  | some r =>
    { e with
      cmdId := r.id
      err := if testOracle env.testFn r.id e.params then .none else .testFailed }

/-- A line that holds tokens, from its first token on: the checks in R216's order. -/
def commandLine (cfg : Cfg) (env : Env) (e : Line) (time : Bytes) : List Bytes → Line
  | [] => { e with isCmd := true, err := .tooFewTokens }
  | name :: params =>
    let e1 := { e with isCmd := true, cmdName := name, params := params }
    match parseTime cfg.timeFracMode time with
    | none => { e1 with err := .badTime }
    | some ms => resolveCommand cfg env { e1 with delay := ms, origDelay := ms }

/-- `ParseLine(t)` (R216). -/
def parseLine (cfg : Cfg) (env : Env) (t : Bytes) : Line :=
  let bc := bodyAndComment t
  match tokensOf bc.1 with
  | [] => blankLine t bc.2
  | time :: rest => commandLine cfg env (blankLine t bc.2) time rest

end Sys2Proof.Machine
end

