-- ==== Sys2Proof/Machine/Scheduler.lean ====
section
/-! DEFINITION. The SCH family: the scheduler's helpers, its exit sequence, the completions of the
split transactions, and the meanings of the seven SCH operations (spec/42_scheduler.md). -/

namespace Sys2Proof.Machine

/-! ### Helpers (R212, R215) -/

/-- `first_cmd_at_or_after(k)` among lines whose first one has index `i` (R212). -/
def firstCmdFrom (i k : Nat) : List Line → Option Nat
  | [] => none
  | l :: ls => if decide (k ≤ i) && l.isCmd then some i else firstCmdFrom (i + 1) k ls

/-- `first_cmd_at_or_after(k)` (R212). -/
def firstCmdAtOrAfter (ls : List Line) (k : Nat) : Option Nat := firstCmdFrom 0 k ls

/-- `next_cmd_after(k)` (R212). -/
def nextCmdAfter (ls : List Line) (k : Nat) : Option Nat := firstCmdAtOrAfter ls (k + 1)

/-- `ComputeAbs(t, k)` among lines whose first one has index `i` (R215). -/
def absTimesFrom (i k t : Nat) : List Line → List Line
  | [] => []
  | l :: ls =>
    if i < k then l :: absTimesFrom (i + 1) k t ls
    else
      let t1 := if l.isCmd then t + l.origDelay else t
      { l with absTime := t1 } :: absTimesFrom (i + 1) k t1 ls

/-- `ComputeAbs(t0, k)` (R215). -/
def computeAbs (ls : List Line) (t0 k : Nat) : List Line := absTimesFrom 0 k t0 ls

/-- `nlines` (10_state.md R55). -/
def Sch.nlines (x : Sch) : Nat := x.lines.length

/-- What a scheduler procedure leaves: SCH and the records it emitted, in order. -/
abbrev SchStep := Except Fault (Sch × List Event)

/-- `SetState(s)`: emits even when the state does not change (R212). -/
def setState (x : Sch) (st : SchState) : Sch × List Event :=
  ({ x with schState := st }, [.stateChanged st])

/-- The line table with the remaining delay of line `i` replaced. -/
def setDelay (ls : List Line) (i d : Nat) : List Line :=
  ls.modify i (fun l => { l with delay := d })

/-- The line an executor step works on; an index outside `LINES` stops the machine
(assumption log 9). -/
def lineAt (x : Sch) (i : Nat) : Except Fault Line :=
  match x.lines[i]? with
  | some l => .ok l
  | none => .error .lineIndex

/-! ### The exit sequence (R232) -/

/-- The first act of `ExitRun`: the natural end of a run. -/
def endRun (x : Sch) : Sch × List Event :=
  if x.schState = .running then setState x .loaded else (x, [])

/-- The position after an exit and whether it is announced: with `stop_next`, the command after
`stop_issuer`, unless there is none or it is the position already (R232, conflict C7). -/
def exitPos (x : Sch) : Nat × List Event :=
  if x.stopNext then
    match nextCmdAfter x.lines x.stopIssuer with
    | some q => if q = x.pos then (x.pos, []) else (q, [.nextCommand q])
    | none => (x.pos, [])
  else (x.pos, [])

/-- `ExitRun()` (R232). -/
def exitRun (x : Sch) : SchStep :=
  match lineAt x x.pos with
  | .error f => .error f
  | .ok l =>
    let r := endRun x
    let p := exitPos x
    .ok ({ r.1 with
        lines := setDelay x.lines x.pos l.origDelay
        pos := p.1
        stopNext := false
        finished := false
        xphase := .idle
        callout := .none
        slice := 0 },
      r.2 ++ p.2 ++ [.stopped x.filename] ++ if x.finished then [.finished x.filename] else [])

/-! ### Completions of the split transactions (R228, R231) -/

/-- The record of a failed exec function (R228, R231). -/
def execError (r : Bool) (line : Nat) : List Event := if r then [] else [.cmdExecError line]

/-- `StepDone(r)` (R228). -/
def stepDone (x : Sch) (r : Bool) : Sch × List Event :=
  match nextCmdAfter x.lines x.calloutLine with
  | some q =>
    ({ x with pos := q, callout := .none }, execError r x.calloutLine ++ [.nextCommand q])
  | none => ({ x with pos := x.calloutLine, callout := .none }, execError r x.calloutLine)

/-- `RunDone(r)` (R231). -/
def runDone (x : Sch) (r : Bool) : SchStep :=
  match lineAt x x.calloutLine with
  | .error f => .error f
  | .ok l =>
    let x1 := { x with lines := setDelay x.lines x.calloutLine l.origDelay, callout := .none }
    match nextCmdAfter x.lines x.calloutLine with
    | some q =>
      .ok ({ x1 with pos := q, xphase := .head }, execError r x.calloutLine ++ [.nextCommand q])
    | none =>
      match exitRun { x1 with finished := true } with
      | .error f => .error f
      | .ok (x2, es) => .ok (x2, execError r x.calloutLine ++ es)

/-! ### Loading (R213) -/

/-- SCH after a load of the given lines, up to the state change. It clears what R213's pseudocode
clears; `callout_line` and `stop_issuer`, which R213's summary of the flags written may also mean,
stay (DEDUCED, assumption log 18). -/
def loadTable (x : Sch) (fname : Bytes) (ls : List Line) : Sch :=
  { x with
    lines := ls
    filename := fname
    hadErrors := hadErrorsOf ls
    pos := (firstCmdAtOrAfter ls 0).getD 0
    xphase := .idle
    slice := 0
    callout := .none
    stopNext := false
    finished := false }

/-- The end of a load: the error state, or the absolute times and `LOADED` (R213). -/
def finishLoad (now : Nat) (x : Sch) : Sch × List Event :=
  if x.hadErrors then setState x .loadedWithErrors
  else setState { x with lines := computeAbs x.lines now 0 } .loaded

/-! ### The operations -/

/-- `SCH.LOAD "filename", "text"` (R213). -/
def execSchLoad (block : Bytes) (s : State) : Out :=
  if s.sch.busy then s.done .busy
  else
    match loadBlock block with
    | none => s.done .rangeError
    | some (fname, text) =>
      let texts := splitLines text
      if s.cfg.maxLines < texts.length then s.done .rangeError
      else
        let r := finishLoad s.now (loadTable s.sch fname (texts.map (parseLine s.cfg s.env)))
        ((s.withSch r.1).emit r.2).done (.ok (.hadErrors r.1.hadErrors))

/-- SCH after an accepted start at line `p` (R222). -/
def startRun (now : Nat) (x : Sch) (p : Nat) : Sch × List Event :=
  let r := setState { x with
    pos := p, stopNext := false, finished := false, lines := computeAbs x.lines now p } .running
  ({ r.1 with xphase := .head }, r.2)

/-- `SCH.START lineNum` (R222). -/
def execSchStart (lineNum : Imm) (s : State) : Out :=
  if s.sch.busy then s.done .busy
  else if s.sch.schState ≠ .loaded then s.done .failed
  else
    match firstCmdAtOrAfter s.sch.lines (operandNat lineNum) with
    | none => s.done .failed
    | some p =>
      let r := startRun s.now s.sch p
      ((s.withSch r.1).emit r.2).done (.ok .none)

/-- The callout record of a line (R223, R230). -/
def execReqOf (p : Nat) (l : Line) : Event := .execReq p l.cmdId l.params

/-- `SCH.STEP lineNum`, the issue half (R223). -/
def execSchStep (lineNum : Imm) (s : State) : Out :=
  if s.sch.busy then s.done .busy
  else if s.sch.schState ≠ .loaded then s.done .failed
  else
    match firstCmdAtOrAfter s.sch.lines (operandNat lineNum) with
    | none => s.done .failed
    | some p =>
      orFault (lineAt s.sch p) fun l =>
        ((s.withSch { s.sch with callout := .step, calloutLine := p }).emit
          [execReqOf p l]).done (.ok .none)

/-- `SCH.STOP` (R224). -/
def execSchStop (s : State) : Out :=
  if s.sch.schState ≠ .running then s.done .failed
  else
    let r := setState s.sch .loaded
    ((s.withSch r.1).emit r.2).done (.ok .none)

/-- `SCH.STOP_NEXT` (R225). -/
def execSchStopNext (s : State) : Out :=
  if s.sch.schState ≠ .running then s.done .failed
  else
    let r := setState { s.sch with stopNext := true, stopIssuer := s.sch.pos } .loaded
    ((s.withSch r.1).emit r.2).done (.ok .none)

/-- `SCH.STATUS` (R226). -/
def execSchStatus (s : State) : Out :=
  s.done (.ok (.status s.sch.schState s.sch.busy s.sch.pos s.sch.nlines))

/-- `SCH.EXEC_DONE r` (R227). -/
def execSchExecDone (r : Bool) (s : State) : Out :=
  match s.sch.callout with
  | .none => s.done .seqError
  | .step =>
    let q := stepDone s.sch r
    ((s.withSch q.1).emit q.2).done (.ok .none)
  | .run =>
    orFault (runDone s.sch r) fun q => ((s.withSch q.1).emit q.2).done (.ok .none)

/-! ### Executor steps (R229, R230) -/

/-- `HEAD` (R229). -/
def headStep (now : Nat) (x : Sch) : SchStep :=
  if x.schState ≠ .running then exitRun x
  else
    match lineAt x x.pos with
    | .error f => .error f
    | .ok l =>
      let n := min l.delay Config.sliceMs
      .ok ({ x with slice := n, wake := now + n, xphase := .sleep }, [])

/-- `WAKE` (R230), with the configuration's `STOP_CHECK_AFTER_SLEEP`. -/
def wakeStep (stopCheck : Bool) (x : Sch) : SchStep :=
  if stopCheck = true ∧ x.schState ≠ .running then exitRun x
  else
    match lineAt x x.pos with
    | .error f => .error f
    | .ok l =>
      let d := l.delay - x.slice
      let x1 := { x with lines := setDelay x.lines x.pos d }
      if d = 0 then
        .ok ({ x1 with callout := .run, calloutLine := x.pos, xphase := .execWait },
          [execReqOf x.pos l])
      else .ok ({ x1 with xphase := .head }, [])

/-- The executor step of the phase: `HEAD` at the loop head, `WAKE` in a slice (R301). Where
neither is enabled nothing happens. -/
def executorStep (cfg : Cfg) (now : Nat) (x : Sch) : SchStep :=
  if executorEnabled now x then
    match x.xphase with
    | .head => headStep now x
    | .sleep => wakeStep cfg.stopCheckAfterSleep x
    | .idle => .ok (x, [])
    | .execWait => .ok (x, [])
  else .ok (x, [])

/-- The EXECUTOR's turn. -/
def executorTurn (s : State) : Out :=
  orFault (executorStep s.cfg s.now s.sch) fun r => .next ((s.withSch r.1).emit r.2)

end Sys2Proof.Machine
end

