-- ==== Sys2Proof/Machine/Dispatch.lean ====
section
/-! DEFINITION. The meaning of every operation, one arm per constructor of `Instr`. -/

namespace Sys2Proof.Machine

/-- The meaning of an operation that its port admits. -/
def exec (i : Instr) (s : State) : Host.Outcome State Fault Refusal :=
  match i with
  | .codecReset => Sys2Proof.Machine.execCodecReset s
  | .codecReqReset => Sys2Proof.Machine.execCodecReqReset s
  | .codecDecode chunk => Sys2Proof.Machine.execCodecDecode chunk s
  | .codecEncode addr payload => Sys2Proof.Machine.execCodecEncode addr payload s
  | .codecMsgCopy => Sys2Proof.Machine.execCodecMsgCopy s
  | .rbTryGetWrite => Sys2Proof.Machine.execRbTryGetWrite s
  | .rbFill off data => Sys2Proof.Machine.execRbFill off data s
  | .rbCommitWrite n => Sys2Proof.Machine.execRbCommitWrite n s
  | .rbTryGetRead => Sys2Proof.Machine.execRbTryGetRead s
  | .rbCommitRead => Sys2Proof.Machine.execRbCommitRead s
  | .rbBytesAvailable => Sys2Proof.Machine.execRbBytesAvailable s
  | .rbReadHwm => Sys2Proof.Machine.execRbReadHwm s
  | .schLoad block => Sys2Proof.Machine.execSchLoad block s
  | .schStart lineNum => Sys2Proof.Machine.execSchStart lineNum s
  | .schStep lineNum => Sys2Proof.Machine.execSchStep lineNum s
  | .schStop => Sys2Proof.Machine.execSchStop s
  | .schStopNext => Sys2Proof.Machine.execSchStopNext s
  | .schStatus => Sys2Proof.Machine.execSchStatus s
  | .schExecDone r => Sys2Proof.Machine.execSchExecDone r s

end Sys2Proof.Machine
end

