-- ==== Sys2Proof/Machine/Transact.lean ====
section
/-! DEFINITION. What one action of an agent does: a transaction at a port (spec/30_encoding.md
R117, R118, R125; spec/60_exceptions.md R299), the EXECUTOR's turn (R301), an advance of TIME
(R306), and a step in which no agent has anything scheduled. -/

namespace Sys2Proof.Machine

/-- One transaction, the schedule already moved past it: an illegal one gets the reply `ILLEGAL`
and changes nothing (R118), any other runs its operation. A data block longer than a port can carry
is refused (assumption log 10). -/
def transact (p : Port) (w : CmdWord) (data : Bytes) (s : State) : Out :=
  if data.length < dataBlockBound then
    match decodeAt p w data with
    | .ok i => exec i s
    | .error _ => s.done .illegal
  else .refused .dataBlockTooLong

/-- A step in which no agent has anything scheduled: an enabled executor step is taken, and
otherwise TIME advances (42_scheduler.md R233, 60_exceptions.md R306; assumption log 2). -/
def idleStep (s : State) : Out :=
  if executorEnabled s.now s.sch then executorTurn s else .next s.idle

/-- The step that the schedule says comes next. -/
def runInputs (s : State) : List Input → Out
  | [] => idleStep (s.turn [])
  | .op p w data :: rest => transact p w data (s.received p rest)
  | .executor :: rest => executorTurn (s.turn rest)
  | .time ms :: rest => .next ((s.turn rest).advance ms)

/-- The state with the operation of a command word and an empty data block put at the head of the
schedule, at a port that admits it (the HOST's where the word is illegal). -/
def placeWord (s : State) (w : CmdWord) : State :=
  let p := match decode w [] with
    | .ok i => admittedPort i
    | .error _ => .host
  { s with inputs := .op p w [] :: s.inputs }

end Sys2Proof.Machine
end

