-- ==== Sys2Proof/Safety.lean ====
section
/-! DEFINITION. What claims about the block are stated in: the ranges and invariants the spec gives
its registers (spec/10_state.md R23, R28 to R62), the ranges of event fields (spec/30_encoding.md
R130), and which outcomes are safe. -/

namespace Sys2Proof.Machine

/-! ### Outcomes -/

/-- The step did not stop with a fault. -/
def noFault : Out → Bool
  | .next _ => true
  | .fault _ => false
  | .refused _ => true

/-- An action an agent can take: a data block of a length R117 allows, an advance of TIME by a
positive number (R306). -/
def Input.wf : Input → Bool
  | .op _ _ data => decide (data.length < dataBlockBound)
  | .executor => true
  | .time ms => decide (0 < ms)

/-! ### Events (30_encoding.md R130) -/

/-- The fields of an event record are in the widths of R130. -/
def Event.inRange : Event → Bool
  | .msg _ len payload => decide (len < 65536) && payload.length == len
  | .err pos _ => decide (pos < 4294967296)
  | .stateChanged _ => true
  | .nextCommand line => decide (line < 16777216)
  | .finished _ => true
  | .stopped _ => true
  | .cmdExecError line => decide (line < 16777216)
  | .execReq line _ _ => decide (line < 16777216)

/-! ### CODEC (10_state.md R28 to R40) -/

/-- The decoder states a variant reaches (R28). -/
def DState.reachable (p : Protocol) (d : DState) : Bool :=
  match p with
  | .p5E4D => d != .readLen8
  | .p7C6E => d != .readLenHi && d != .readLenLo && d != .readCrc

/-- The decoder states in which the last emitted message is still whole (R34): those before the
next frame's ADDR byte. -/
def DState.viewIntact (d : DState) : Bool :=
  d == .waitSync1 || d == .waitSync2 || d == .readAddr

/-- Every address of a memory is below a bound. -/
def Memory.below (m : Memory) (n : Nat) : Prop := ∀ c ∈ m, c.1 < n

/-- Every address below a bound holds a value that something has written. -/
def Memory.covers (m : Memory) (n : Nat) : Prop := ∀ i, i < n → (m.byteAt i).isSome = true

/-- The ranges and relations of the codec registers. `idx ≤ len` (R31) does not hold between the
two length bytes of a P5E4D frame (assumption log 12). -/
structure CodecInv (cfg : Cfg) (c : Codec) : Prop where
  /-- R28: the variant's states only. -/
  dstate : c.dstate.reachable cfg.protocol = true
  /-- R30. -/
  len : c.len < 65536
  /-- R31's width. -/
  idx : c.idx < 65536
  /-- R31, outside `READ_LEN_LO`. -/
  idxLen : c.dstate ≠ .readLenLo → c.idx ≤ c.len
  /-- R162: the high byte alone. -/
  lenHi : c.dstate = .readLenLo → c.len ≤ 65280
  /-- R33. -/
  msgLen : c.msgLen ≤ cfg.msgbufSize
  /-- R37. -/
  errCount : c.errCount ≤ cfg.maxErrors
  /-- R163, R164: a payload byte is due and has a place in `MSGBUF`. -/
  payload : c.dstate = .readPayload → c.idx < c.len ∧ c.len ≤ cfg.msgbufSize
  /-- R163, R164: the payload is complete. -/
  complete : c.dstate = .readCrc → c.idx = c.len ∧ c.len ≤ cfg.msgbufSize
  /-- R34. -/
  view : c.msgValid = true → c.dstate.viewIntact = true
  /-- The canonical form of `MSGBUF`. -/
  canonical : c.msgbuf.wf = true
  /-- R76: the addresses of `MSGBUF`. -/
  below : c.msgbuf.below cfg.msgbufSize
  /-- R36: what a frame in progress will read, it has written. -/
  written : c.dstate = .readPayload ∨ c.dstate = .readCrc → c.msgbuf.covers c.idx
  /-- R36: what a valid message view reads, its frame has written. -/
  viewWritten : c.msgValid = true → c.msgbuf.covers c.msgLen

/-! ### RB (10_state.md R41 to R51) -/

/-- The sum of the used-lengths of the unread slots (R46, R50 item 2). -/
def unreadBytes (cfg : Cfg) (r : Rb) : Nat :=
  ((List.range r.count).map (fun k => r.used.getD ((r.rd + k) % cfg.rbSlots) 0)).sum

/-- The contents of the unread slots, oldest first: the first used-length bytes of each. -/
def unreadSlots (cfg : Cfg) (r : Rb) : List Bytes :=
  (List.range r.count).map fun k =>
    readBytes .slot r.slots (slotAddr cfg ((r.rd + k) % cfg.rbSlots) 0)
      (r.used.getD ((r.rd + k) % cfg.rbSlots) 0)

/-- The ranges of R51 and the invariants of R50. -/
structure RbInv (cfg : Cfg) (r : Rb) : Prop where
  /-- R42: one entry a slot. -/
  usedLength : r.used.length = cfg.rbSlots
  /-- R42. -/
  usedRange : ∀ n ∈ r.used, n ≤ cfg.slotSize
  /-- R43. -/
  wr : r.wr < cfg.rbSlots
  /-- R44. -/
  rd : r.rd < cfg.rbSlots
  /-- R45. -/
  count : r.count ≤ cfg.rbSlots
  /-- R50 item 1. -/
  cursors : r.wr = (r.rd + r.count) % cfg.rbSlots
  /-- R50 item 2. -/
  bytes : r.bytes = unreadBytes cfg r
  /-- R50 item 3. -/
  wrHeld : r.wrHeld = true → r.count < cfg.rbSlots
  /-- R50 item 4. -/
  rdHeld : r.rdHeld = true → 1 ≤ r.count
  /-- R50 item 6. -/
  hwm : r.hwm ≤ cfg.rbSlots * cfg.slotSize
  /-- The canonical form of `SLOT`. -/
  canonical : r.slots.wf = true
  /-- R76: the addresses of `SLOT`. -/
  below : r.slots.below (cfg.rbSlots * cfg.slotSize)

/-! ### SCH (10_state.md R52 to R62) -/

/-- The largest delay (42_scheduler.md R218). -/
def maxDelay : Nat := 65535999

/-- A command stands at an index of `LINES`. -/
def Sch.cmdAt (x : Sch) (i : Nat) : Prop := ∃ l, x.lines[i]? = some l ∧ l.isCmd = true

/-- The remaining delays equal the original ones on every line but perhaps one. -/
def Sch.delaysWhole (x : Sch) (but : Option Nat) : Prop :=
  ∀ i l, x.lines[i]? = some l → some i ≠ but → l.delay = l.origDelay

/-- The ranges of R52 to R57 and the invariants of R62. -/
structure SchInv (cfg : Cfg) (x : Sch) : Prop where
  /-- R55. -/
  nlines : x.nlines ≤ cfg.maxLines
  /-- R54. -/
  delays : ∀ l ∈ x.lines, l.delay ≤ l.origDelay ∧ l.origDelay ≤ maxDelay
  /-- R52. -/
  pos : x.pos < max x.nlines 1
  /-- R56. -/
  slice : x.slice ≤ Config.sliceMs
  /-- R57. -/
  calloutLine : x.calloutLine < 16777216
  /-- R57. -/
  stopIssuer : x.stopIssuer < 16777216
  /-- R62 item 1. -/
  restored : x.xphase = .idle → x.delaysWhole none
  /-- Only the command being counted down differs from its original delay (R90). -/
  counting : x.xphase ≠ .idle → x.delaysWhole (some x.pos)
  /-- R62 item 2. -/
  running : x.schState = .running → x.xphase ≠ .idle
  /-- R62 item 3. -/
  callout : x.callout = .run ↔ x.xphase = .execWait
  /-- R62 item 4. -/
  stepping : x.callout = .step → x.xphase = .idle ∧ x.schState = .loaded
  /-- R62 item 5. -/
  noErrors : x.schState = .loaded ∨ x.schState = .running → x.hadErrors = false
  /-- R62 item 6, for the whole life of the executor. -/
  atCommand : x.xphase ≠ .idle → x.cmdAt x.pos
  /-- R234: the executor lives in these states only. -/
  alive : x.xphase ≠ .idle → x.schState = .running ∨ x.schState = .loaded
  /-- R229, R230: the slice is part of the remaining delay. -/
  sliceFits : x.xphase = .sleep → ∀ l, x.lines[x.pos]? = some l → x.slice ≤ l.delay
  /-- R230: the callout is for the command at the position. -/
  calloutAt : x.callout = .run → x.calloutLine = x.pos
  /-- R223: the callout of a step is for a command. -/
  stepAt : x.callout = .step → x.cmdAt x.calloutLine
  /-- R225: a pending `stop_next` belongs to a stopped run that has not exited. -/
  stopNext : x.stopNext = true → x.xphase ≠ .idle ∧ x.schState = .loaded
  /-- R231, R232: `finished` is set and cleared within one step. -/
  finished : x.finished = false

/-! ### The whole state -/

/-- The invariant of the block. -/
structure Inv (s : State) : Prop where
  cfg : s.cfg.wf = true
  codec : CodecInv s.cfg s.codec
  rb : RbInv s.cfg s.rb
  sch : SchInv s.cfg s.sch
  evq : ∀ e ∈ s.evq, e.inRange = true
  /-- R229, R235: a slice ends within `SLICE_MS` of any moment it is slept in. -/
  wakeNear : s.sch.xphase = .sleep → s.sch.wake ≤ s.now + Config.sliceMs

/-! ### The message view (R34, 40_codec.md R156, R173) -/

/-- Address, length and payload of the last `MSG` record of an event stream. -/
def lastMsg : List Event → Option (Byte × Nat × Bytes)
  | [] => none
  | e :: es =>
    match lastMsg es, e with
    | some m, _ => some m
    | none, .msg addr len payload => some (addr, len, payload)
    | none, _ => none

/-- A valid message view holds the last message emitted (R34). -/
def ViewInv (s : State) : Prop :=
  s.codec.msgValid = true →
    lastMsg s.evq = some
      (s.codec.msgAddr, s.codec.msgLen, readBytes .msgbuf s.codec.msgbuf 0 s.codec.msgLen)

/-! ### Words the statements use -/

/-- The next step takes the transaction of an operation, at a port that admits it. -/
def takes (s : State) (i : Instr) : Prop :=
  ∃ p w data rest, s.inputs = .op p w data :: rest ∧ decodeAt p w data = .ok i

/-- The next step gives the EXECUTOR its turn (60_exceptions.md R301): the schedule says so, or
nothing is scheduled (assumption log 2). -/
def executorActs (s : State) : Prop :=
  s.inputs = [] ∨ ∃ rest, s.inputs = .executor :: rest

/-- An exit sequence ran between the two states: it emits `STOPPED` (42_scheduler.md R232). -/
def exited (s t : State) : Prop :=
  ∃ es, t.evq = s.evq ++ es ∧ .stopped s.sch.filename ∈ es

/-- An operation's encoding and admission: the only word and data block that decode to it, and the
only ports that admit it (30_encoding.md R119, R120). -/
def EncodedAs (i : Instr) (w : CmdWord) (data : Bytes) (ports : List Port) : Prop :=
  (∀ w' data', decode w' data' = .ok i ↔ w' = w ∧ data' = data) ∧
    ∀ p, admits i p = true ↔ p ∈ ports

/-- CODEC and the records after a decode error that leaves the decoder in sync search
(40_codec.md R157 and the calling step). -/
def erred (cfg : Cfg) (c : Codec) (pos : Nat) (code : ErrCode) : Codec × List Event :=
  ({ c with
      dstate := .waitSync1
      lastOk := false
      errCount := if c.errCount < cfg.maxErrors then c.errCount + 1 else c.errCount },
    if c.errCount < cfg.maxErrors then [.err pos code] else [])

/-- The first sync byte of the variant (00_scope.md R10). -/
def sync1Of (cfg : Cfg) : Byte :=
  match cfg.protocol with
  | .p5E4D => 0x5E#8
  | .p7C6E => 0x7C#8

/-- An `ERR` record with its position moved on by `k`; any other record as it is (R174). -/
def shiftErr (k : Nat) : Event → Event
  | .err pos code => .err (pos + k) code
  | .msg addr len payload => .msg addr len payload
  | .stateChanged st => .stateChanged st
  | .nextCommand line => .nextCommand line
  | .finished f => .finished f
  | .stopped f => .stopped f
  | .cmdExecError line => .cmdExecError line
  | .execReq line id params => .execReq line id params

/-- The record is an `ERR`. -/
def Event.isErr : Event → Bool
  | .err _ _ => true
  | .msg _ _ _ => false
  | .stateChanged _ => false
  | .nextCommand _ => false
  | .finished _ => false
  | .stopped _ => false
  | .cmdExecError _ => false
  | .execReq _ _ _ => false

/-- The operations that take a data block (30_encoding.md R117). -/
def takesBlock : Instr → Bool
  | .codecDecode _ => true
  | .codecEncode _ _ => true
  | .rbFill _ _ => true
  | .schLoad _ => true
  | .codecReset => false
  | .codecReqReset => false
  | .codecMsgCopy => false
  | .rbTryGetWrite => false
  | .rbCommitWrite _ => false
  | .rbTryGetRead => false
  | .rbCommitRead => false
  | .rbBytesAvailable => false
  | .rbReadHwm => false
  | .schStart _ => false
  | .schStep _ => false
  | .schStop => false
  | .schStopNext => false
  | .schStatus => false
  | .schExecDone _ => false

/-- The values an `OK` reply to the operation carries (30_encoding.md R127). -/
def valuesFit : Instr → Values → Prop
  | .codecEncode _ _, v => ∃ f, v = .frame f
  | .codecMsgCopy, v => ∃ addr payload, v = .message addr payload.length payload
  | .rbTryGetWrite, v => ∃ n, v = .slot n
  | .rbTryGetRead, v => ∃ n data, v = .slotData n data.length data
  | .rbBytesAvailable, v => ∃ n, v = .bytes n
  | .rbReadHwm, v => ∃ n, v = .hwm n
  | .schLoad _, v => ∃ e, v = .hadErrors e
  | .schStatus, v => ∃ st b p n, v = .status st b p n
  | .codecReset, v => v = .none
  | .codecReqReset, v => v = .none
  | .codecDecode _, v => v = .none
  | .rbFill _ _, v => v = .none
  | .rbCommitWrite _, v => v = .none
  | .rbCommitRead, v => v = .none
  | .schStart _, v => v = .none
  | .schStep _, v => v = .none
  | .schStop, v => v = .none
  | .schStopNext, v => v = .none
  | .schExecDone _, v => v = .none

/-- The bytes an accepted write commit adds (41_ringbuffer.md R199). -/
def committedBy (i : Instr) (t : State) : Nat :=
  match i, t.reply with
  | .rbCommitWrite n, some (.ok _) => n.toNat
  | _, _ => 0

/-- The bytes an accepted read commit takes away (41_ringbuffer.md R199). -/
def consumedBy (i : Instr) (s t : State) : Nat :=
  match i, t.reply with
  | .rbCommitRead, some (.ok _) => s.rb.used.getD s.rb.rd 0
  | _, _ => 0

/-- The prompt schedule (42_scheduler.md R233) of a countdown of `d` ms with `n` full slices before
the last: the loop head, the slice's time, the wake. -/
def countdownInputs : Nat → Nat → List Input
  | 0, 0 => [.executor, .executor]
  | 0, d + 1 => [.executor, .time (d + 1), .executor]
  | n + 1, d => .executor :: .time 1000 :: .executor :: countdownInputs n (d - 1000)

/-- The original delay of the line at an index. -/
def delayAt (ls : List Line) (c : Nat) : Nat := (ls[c]?.map Line.origDelay).getD 0

/-- The callout record of the line at an index (42_scheduler.md R230). -/
def execReqAt (ls : List Line) (c : Nat) : List Event := (ls[c]?.map (execReqOf c)).toList

/-- Consecutive commands of a table up to its last one (42_scheduler.md R236). -/
def commandsToEnd (ls : List Line) : List Nat → Prop
  | [] => False
  | [c] => nextCmdAfter ls c = none
  | c :: d :: cs => nextCmdAfter ls c = some d ∧ commandsToEnd ls (d :: cs)

/-- The prompt schedule of a run through the given commands: each countdown, then the HOST's answer
of success (42_scheduler.md R233). -/
def runSchedule (ls : List Line) : List Nat → List Input
  | [] => []
  | c :: cs =>
    countdownInputs ((delayAt ls c - 1) / 1000) (delayAt ls c) ++
      .op .host 0x36000001#32 [] :: runSchedule ls cs

/-- The records of a run through the given commands, from its first loop head to its exit
(42_scheduler.md R236). -/
def runEvents (ls : List Line) (filename : Bytes) : List Nat → List Event
  | [] => []
  | [c] => execReqAt ls c ++ [.stateChanged .loaded, .stopped filename, .finished filename]
  | c :: d :: cs => execReqAt ls c ++ .nextCommand d :: runEvents ls filename (d :: cs)

end Sys2Proof.Machine
end

