-- ==== Sys2Proof/Certificates/Slice0/Obligations.lean ====
section
/-! DEFINITION. The statements for the provers: what the operations, the executor's steps and the
block as a whole do, each with the rule of spec/ it formalises. A record update in a next state says
the result and the frame at once: every field it does not name is unchanged, all memory included. -/

open Sys2Proof Sys2Proof.Machine

/-! ### Encoding (30_encoding.md) -/

/-- Every operation's encoding decodes to it, as a word, as octets and at a port that admits it;
and no other word and data block decode to it. That the data block follows the word's four octets is
the model's choice (assumption log 16). -/
def Obligations.DecodeReadsBackExactlyTheEncoding : Prop :=
  ∀ i : Instr,
    (∀ (w : CmdWord) (data : Bytes), decode w data = .ok i ↔ (w, data) = encode i) ∧
      decodeAt (admittedPort i) (encode i).1 (encode i).2 = .ok i ∧
      decodeOctets (encodeOctets i) = some i

/-- Matching an operation's row by match and mask is being that operation, or another of its row. -/
def Obligations.OpcodeMapSelectsByMatchAndMask : Prop :=
  ∀ (i : Instr) (w : CmdWord) (data : Bytes),
    (decode w data = .ok i → w &&& (opcodeRow i).mask = (opcodeRow i).base) ∧
      (w &&& (opcodeRow i).mask = (opcodeRow i).base → takesBlock i = true ∨ data = [] →
        ∃ j, decode w data = .ok j ∧ opcodeRow j = opcodeRow i)

/-- A few words written out from the spec's encodings decode to what they stand for. -/
def Obligations.SampleWordsDecode : Prop :=
  decode 0x10000000#32 [] = .ok .codecReset ∧
    decode 0x130000AA#32 [0x01#8] = .ok (.codecEncode 0x00AA#16 [0x01#8]) ∧
    decode 0x21000002#32 [0xAA#8, 0xBB#8] = .ok (.rbFill 2#24 [0xAA#8, 0xBB#8]) ∧
    decode 0x22000004#32 [] = .ok (.rbCommitWrite 4#24) ∧
    decode 0x31000003#32 [] = .ok (.schStart 3#24) ∧
    decode 0x36000001#32 [] = .ok (.schExecDone true) ∧
    decode 0x36000000#32 [] = .ok (.schExecDone false)

/-- R118's five grounds, and what an illegal command word gets. -/
def Obligations.IllegalWordsAreExactlyR118AndChangeNothing : Prop :=
  ∀ (p : Port) (w : CmdWord) (data : Bytes) (unit op imm : Nat),
    unit = w.toNat / 268435456 → op = w.toNat / 16777216 % 16 → imm = w.toNat % 16777216 →
    ((∃ e, decodeAt p w data = .error e) ↔
      -- the unit is reserved
      (unit = 0 ∨ 4 ≤ unit) ∨
      -- the operation is not assigned in its unit
      (unit = 1 ∧ 5 ≤ op ∨ (unit = 2 ∨ unit = 3) ∧ 7 ≤ op) ∨
      -- a bit that must be 0 is 1
      (unit = 1 ∧ op ≠ 3 ∧ imm ≠ 0 ∨ unit = 1 ∧ op = 3 ∧ imm / 65536 ≠ 0 ∨
        unit = 2 ∧ op ≠ 1 ∧ op ≠ 2 ∧ imm ≠ 0 ∨
        unit = 3 ∧ op ≠ 1 ∧ op ≠ 2 ∧ op ≠ 6 ∧ imm ≠ 0 ∨ unit = 3 ∧ op = 6 ∧ imm / 2 ≠ 0) ∨
      -- a data block where none is taken
      (data ≠ [] ∧ ¬(unit = 1 ∧ (op = 2 ∨ op = 3) ∨ unit = 2 ∧ op = 1 ∨ unit = 3 ∧ op = 0)) ∨
      -- the port does not admit it
      (p ≠ .dec ∧ (unit = 1 ∧ (op = 0 ∨ op = 2 ∨ op = 4) ∨ unit = 2 ∧ (op = 3 ∨ op = 4)) ∨
        p ≠ .prod ∧ unit = 2 ∧ op ≤ 2 ∨
        p ≠ .host ∧ (unit = 1 ∧ op = 3 ∨ unit = 2 ∧ op = 6 ∨ unit = 3))) ∧
    ∀ (s : State) (rest : List Input), s.inputs = .op p w data :: rest →
      data.length < dataBlockBound → (∃ e, decodeAt p w data = .error e) →
      step s = .next { s with inputs := rest, issuer := some p, reply := some .illegal }

/-! ### One step (20_memory.md R80) -/

/-- When the transaction that comes next decodes to an operation its port admits, the step is that
operation's meaning, in the state that has taken the transaction from the schedule. -/
def Obligations.StepRunsTheDecodedOperation : Prop :=
  ∀ (s : State) (p : Port) (w : CmdWord) (data : Bytes) (rest : List Input) (i : Instr),
    s.inputs = .op p w data :: rest → decode w data = .ok i → i.wf = true → admits i p = true →
    step s = exec i { s with inputs := rest, issuer := some p, reply := none }

/-- The turns of the agents without a port, and a step in which nothing is scheduled (the model's
choices of assumption logs 1 and 2). -/
def Obligations.StepTakesTheTurnOfExecutorOrTime : Prop :=
  ∀ (s : State) (rest : List Input),
    (∀ ms, s.inputs = .time ms :: rest →
      step s = .next { s with inputs := rest, issuer := none, reply := none, now := s.now + ms }) ∧
    (s.inputs = .executor :: rest →
      (s.sch.xphase = .idle ∨ s.sch.xphase = .execWait ∨
        s.sch.xphase = .sleep ∧ s.now < s.sch.wake) →
      step s = .next { s with inputs := rest, issuer := none, reply := none }) ∧
    (s.inputs = [] →
      (s.sch.xphase = .head ∨ s.sch.xphase = .sleep ∧ s.sch.wake ≤ s.now) →
      step s = step { s with inputs := [.executor] }) ∧
    (s.inputs = [] →
      (s.sch.xphase = .idle ∨ s.sch.xphase = .execWait ∨
        s.sch.xphase = .sleep ∧ s.now < s.sch.wake) →
      ∃ ms, 0 < ms ∧
        step s = .next { s with
          issuer := none, reply := none, now := s.now + ms, idleTicks := s.idleTicks + 1 })

/-! ### CODEC (40_codec.md) -/

/-- R152. -/
def Obligations.CodecResetResult : Prop :=
  EncodedAs .codecReset 0x10000000#32 [] [.dec] ∧
    ∀ s : State, exec .codecReset s = .next { s with
      codec := { s.codec with
        dstate := .waitSync1, crc := 0x00#8, len := 0, idx := 0, msgValid := false,
        lastOk := false, errCount := 0, resetReq := false }
      reply := some (.ok .none) }

/-- R153: the request itself, that a second one changes nothing more, and that the next decode is
what it would be right after a reset. -/
def Obligations.CodecReqResetActsAtTheNextDecode : Prop :=
  EncodedAs .codecReqReset 0x11000000#32 [] [.host, .prod, .dec] ∧
    ∀ s : State,
      exec .codecReqReset s = .next { s with
        codec := { s.codec with resetReq := true }, reply := some (.ok .none) } ∧
      ∀ t u : State, exec .codecReqReset s = .next t → exec .codecReset s = .next u →
        exec .codecReqReset t = .next t ∧ exec .codecReset t = .next u ∧
          ∀ chunk, exec (.codecDecode chunk) t = exec (.codecDecode chunk) u

/-- R154: an empty chunk, a chunk and one more byte, and that every chunk completes. -/
def Obligations.CodecDecodeResult : Prop :=
  (∀ chunk, EncodedAs (.codecDecode chunk) 0x12000000#32 chunk [.dec]) ∧
    ∀ s : State,
      exec (.codecDecode []) s = .next { s with
        codec :=
          if s.codec.resetReq then
            { s.codec with
              dstate := .waitSync1, crc := 0x00#8, len := 0, idx := 0, msgValid := false,
              lastOk := false, errCount := 0, resetReq := false }
          else s.codec
        reply := some (.ok .none) } ∧
      (∀ chunk b t c es, exec (.codecDecode chunk) s = .next t →
        decodeByte s.cfg t.codec b chunk.length = .ok (c, es) →
        exec (.codecDecode (chunk ++ [b])) s =
          .next { t with codec := c, evq := t.evq ++ es }) ∧
      (CodecInv s.cfg s.codec → ∀ chunk, ∃ c es,
        exec (.codecDecode chunk) s = .next { s with
          codec := c, evq := s.evq ++ es, reply := some (.ok .none) })

/-- R159, R160. -/
def Obligations.P5SyncSearchSteps : Prop :=
  ∀ (cfg : Cfg) (c : Codec) (b : Byte) (pos : Nat), cfg.protocol = .p5E4D →
    (c.dstate = .waitSync1 → decodeByte cfg c b pos = .ok (
      if b = 0x5E#8 then
        ({ c with
            crc := if cfg.includeHeaderCrc = true ∧ cfg.hdrCrcFirst = .sync1 then 0x9D#8 else 0x00#8
            dstate := .waitSync2 }, [])
      else if c.lastOk then erred cfg c pos .syncLost
      else (c, []))) ∧
    (c.dstate = .waitSync2 → decodeByte cfg c b pos = .ok (
      if b = 0x4D#8 then
        ({ c with
            crc := if cfg.includeHeaderCrc then crc8Update c.crc b else c.crc
            dstate := .readAddr }, [])
      else erred cfg c pos .sync2Missing))

/-- R161 to R163. -/
def Obligations.P5HeaderSteps : Prop :=
  ∀ (cfg : Cfg) (c : Codec) (b : Byte) (pos : Nat) (crc : Byte), cfg.protocol = .p5E4D →
    crc = (if cfg.includeHeaderCrc then crc8Update c.crc b else c.crc) →
    (c.dstate = .readAddr → decodeByte cfg c b pos = .ok
      ({ c with msgAddr := b, msgValid := false, crc := crc, dstate := .readLenHi }, [])) ∧
    (c.dstate = .readLenHi → decodeByte cfg c b pos = .ok
      ({ c with len := b.toNat * 256, crc := crc, dstate := .readLenLo }, [])) ∧
    (c.dstate = .readLenLo → decodeByte cfg c b pos = .ok (
      if cfg.maxFrame < c.len + b.toNat + 6 then
        erred cfg { c with len := c.len + b.toNat, crc := crc, idx := 0 } pos .oversized
      else if c.len + b.toNat = 0 then
        ({ c with len := 0, crc := crc, idx := 0, dstate := .readCrc }, [])
      else
        ({ c with len := c.len + b.toNat, crc := crc, idx := 0, dstate := .readPayload }, [])))

/-- R164, R165. -/
def Obligations.P5PayloadAndCrcSteps : Prop :=
  ∀ (cfg : Cfg) (c : Codec) (b : Byte) (pos : Nat), cfg.protocol = .p5E4D →
    (c.dstate = .readPayload → c.idx < cfg.msgbufSize → ∃ m,
      decodeByte cfg c b pos = .ok
        ({ c with
            msgbuf := m, crc := crc8Update c.crc b, idx := c.idx + 1
            dstate := if c.idx + 1 = c.len then .readCrc else .readPayload }, []) ∧
      ∀ a, readByte .msgbuf m a = if a = c.idx then b else readByte .msgbuf c.msgbuf a) ∧
    (c.dstate = .readCrc → b = c.crc → c.len ≤ cfg.msgbufSize →
      decodeByte cfg c b pos = .ok
        ({ c with msgLen := c.len, msgValid := true, lastOk := true, dstate := .waitSync1 },
          [.msg c.msgAddr c.len (readBytes .msgbuf c.msgbuf 0 c.len)])) ∧
    (c.dstate = .readCrc → b ≠ c.crc → decodeByte cfg c b pos = .ok (erred cfg c pos .badCrc))

/-- R166 to R170. -/
def Obligations.P7ByteSteps : Prop :=
  ∀ (cfg : Cfg) (c : Codec) (b : Byte) (pos : Nat), cfg.protocol = .p7C6E →
    (c.dstate = .waitSync1 → decodeByte cfg c b pos = .ok (
      if b = 0x7C#8 then ({ c with dstate := .waitSync2 }, [])
      else if c.lastOk then erred cfg c pos .syncLost
      else (c, []))) ∧
    (c.dstate = .waitSync2 → decodeByte cfg c b pos = .ok (
      if b = 0x6E#8 then ({ c with dstate := .readAddr }, [])
      else erred cfg c pos .sync2Missing)) ∧
    (c.dstate = .readAddr → decodeByte cfg c b pos = .ok
      ({ c with msgAddr := b, msgValid := false, dstate := .readLen8 }, [])) ∧
    (c.dstate = .readLen8 → decodeByte cfg c b pos = .ok
      ({ c with len := if b = 0x00#8 then 256 else b.toNat, idx := 0, dstate := .readPayload },
        [])) ∧
    (c.dstate = .readPayload → c.idx < 256 → ∃ m,
      (∀ a, readByte .msgbuf m a = if a = c.idx then b else readByte .msgbuf c.msgbuf a) ∧
      (c.idx + 1 ≠ c.len →
        decodeByte cfg c b pos = .ok ({ c with msgbuf := m, idx := c.idx + 1 }, [])) ∧
      (c.idx + 1 = c.len →
        decodeByte cfg c b pos = .ok
          ({ c with
              msgbuf := m, idx := c.idx + 1, msgLen := c.len, msgValid := true, lastOk := true
              dstate := .waitSync1 },
            [.msg c.msgAddr c.len (readBytes .msgbuf m 0 c.len)])))

/-- R171. -/
def Obligations.CodecEncodeResult : Prop :=
  ∀ (addr : BitVec 16) (payload : Bytes),
    EncodedAs (.codecEncode addr payload) (0x13000000#32 ||| addr.setWidth 32) payload [.host] ∧
    ∀ s : State,
      (255 < addr.toNat →
        exec (.codecEncode addr payload) s = .next { s with reply := some .failed }) ∧
      (addr.toNat ≤ 255 → s.cfg.protocol = .p5E4D →
        (s.cfg.maxFrame < payload.length + 6 →
          exec (.codecEncode addr payload) s = .next { s with reply := some .failed }) ∧
        (payload.length + 6 ≤ s.cfg.maxFrame → ∀ hdr cov : Bytes,
          hdr = [0x5E#8, 0x4D#8, addr.setWidth 8, BitVec.ofNat 8 (payload.length / 256),
            BitVec.ofNat 8 payload.length] →
          cov = (if s.cfg.includeHeaderCrc = false then payload
            else if s.cfg.hdrCrcFirst = .sync1 then hdr ++ payload
            else hdr.drop 1 ++ payload) →
          exec (.codecEncode addr payload) s = .next { s with
            reply := some (.ok (.frame (hdr ++ payload ++ [crc8 cov]))) })) ∧
      (addr.toNat ≤ 255 → s.cfg.protocol = .p7C6E →
        (payload.length = 0 ∨ 256 < payload.length →
          exec (.codecEncode addr payload) s = .next { s with reply := some .failed }) ∧
        (0 < payload.length → payload.length ≤ 256 →
          exec (.codecEncode addr payload) s = .next { s with
            reply := some (.ok (.frame
              ([0x7C#8, 0x6E#8, addr.setWidth 8, BitVec.ofNat 8 payload.length] ++ payload))) }))

/-- R173. -/
def Obligations.CodecMsgCopyResult : Prop :=
  EncodedAs .codecMsgCopy 0x14000000#32 [] [.dec] ∧
    ∀ s : State,
      (s.codec.msgValid = false →
        exec .codecMsgCopy s = .next { s with reply := some .failed }) ∧
      (s.codec.msgValid = true → s.codec.msgLen ≤ s.cfg.msgbufSize → ∃ payload,
        exec .codecMsgCopy s = .next { s with
          reply := some (.ok (.message s.codec.msgAddr s.codec.msgLen payload)) } ∧
        payload.length = s.codec.msgLen ∧
        ∀ k, k < s.codec.msgLen → payload[k]? = some (readByte .msgbuf s.codec.msgbuf k))

/-- R172: from sync search with no reset requested, decoding an encoded frame emits exactly its
message, which can then be copied out. -/
def Obligations.RoundTrip : Prop :=
  ∀ (s t : State) (addr : BitVec 16) (payload f : Bytes), s.cfg.wf = true →
    s.codec.dstate = .waitSync1 → s.codec.resetReq = false →
    exec (.codecEncode addr payload) s = .next t → t.reply = some (.ok (.frame f)) →
    ∃ u, exec (.codecDecode f) s = .next u ∧
      u.evq = s.evq ++ [.msg (addr.setWidth 8) payload.length payload] ∧
      u.codec.dstate = .waitSync1 ∧ u.codec.lastOk = true ∧ u.codec.msgValid = true ∧
      exec .codecMsgCopy u = .next { u with
        reply := some (.ok (.message (addr.setWidth 8) payload.length payload)) }

/-- R174: decoding a chunk in two parts or at once. -/
def Obligations.FragmentationInvariance : Prop :=
  ∀ (s : State) (a b : Bytes), CodecInv s.cfg s.codec →
    ∃ ta tb tj ea eb, exec (.codecDecode a) s = .next ta ∧ exec (.codecDecode b) ta = .next tb ∧
      exec (.codecDecode (a ++ b)) s = .next tj ∧
      ta.evq = s.evq ++ ea ∧ tb.evq = s.evq ++ ea ++ eb ∧
      tj = { tb with evq := s.evq ++ ea ++ eb.map (shiftErr a.length) }

/-- R175: garbage without the first sync byte, then a frame. -/
def Obligations.ResyncAfterGarbage : Prop :=
  ∀ (s t : State) (g f payload : Bytes) (addr : BitVec 16), s.cfg.wf = true →
    s.codec.dstate = .waitSync1 → s.codec.resetReq = false →
    g ≠ [] → (∀ b ∈ g, b ≠ sync1Of s.cfg) →
    exec (.codecEncode addr payload) s = .next t → t.reply = some (.ok (.frame f)) →
    ∃ u, exec (.codecDecode (g ++ f)) s = .next u ∧ u.codec.dstate = .waitSync1 ∧
      u.evq = s.evq ++
        (if s.codec.lastOk = true ∧ s.codec.errCount < s.cfg.maxErrors then [.err 0 .syncLost]
          else []) ++
        [.msg (addr.setWidth 8) payload.length payload]

/-- R176, and more: any one payload or CRC byte changed to any other value is detected; a changed
address byte is detected exactly when the CRC covers the header. -/
def Obligations.ChangedByteIsDetected : Prop :=
  ∀ (s t : State) (f payload : Bytes) (addr : BitVec 16) (j : Nat) (x : Byte), s.cfg.wf = true →
    s.cfg.protocol = .p5E4D → s.codec.dstate = .waitSync1 → s.codec.resetReq = false →
    exec (.codecEncode addr payload) s = .next t → t.reply = some (.ok (.frame f)) →
    j < f.length → f[j]? ≠ some x →
    (5 ≤ j ∨ j = 2 ∧ s.cfg.includeHeaderCrc = true →
      ∃ u, exec (.codecDecode (f.set j x)) s = .next u ∧ u.codec.dstate = .waitSync1 ∧
        u.codec.msgValid = false ∧
        u.evq = s.evq ++
          if s.codec.errCount < s.cfg.maxErrors then [.err (f.length - 1) .badCrc] else []) ∧
    (j = 2 → s.cfg.includeHeaderCrc = false →
      ∃ u, exec (.codecDecode (f.set j x)) s = .next u ∧ u.codec.dstate = .waitSync1 ∧
        u.evq = s.evq ++ [.msg x payload.length payload])

/-- R157, R37: a decode without a reset counts exactly the errors it reports, and never past
`MAX_ERRORS`. -/
def Obligations.ErrorReportsAreCountedAndLimited : Prop :=
  ∀ (s t : State) (chunk : Bytes), s.codec.resetReq = false →
    exec (.codecDecode chunk) s = .next t →
    ∃ es, t.evq = s.evq ++ es ∧
      t.codec.errCount = s.codec.errCount + (es.filter Event.isErr).length ∧
      (s.codec.errCount ≤ s.cfg.maxErrors → t.codec.errCount ≤ s.cfg.maxErrors)

/-- R34, R92: a valid message view holds the last message emitted, through every step. -/
def Obligations.StepKeepsTheMessageView : Prop :=
  ∀ s t : State, Inv s → ViewInv s → step s = .next t → ViewInv t

/-- R110, R177 (general knowledge in the spec: assumption log 14): the check value, and linearity. -/
def Obligations.CrcIsLinear : Prop :=
  crc8 [0x31#8, 0x32#8, 0x33#8, 0x34#8, 0x35#8, 0x36#8, 0x37#8, 0x38#8, 0x39#8] = 0xF4#8 ∧
    ∀ a b : Bytes, a.length = b.length →
      crc8 (List.zipWith (· ^^^ ·) a b) = crc8 a ^^^ crc8 b

/-! ### RB (41_ringbuffer.md) -/

/-- R192. -/
def Obligations.RbTryGetWriteResult : Prop :=
  EncodedAs .rbTryGetWrite 0x20000000#32 [] [.prod] ∧
    ∀ s : State,
      (s.cfg.rbSlots ≤ s.rb.count →
        exec .rbTryGetWrite s = .next { s with reply := some .failed }) ∧
      (s.rb.count < s.cfg.rbSlots →
        exec .rbTryGetWrite s = .next { s with
          rb := { s.rb with wrHeld := true }, reply := some (.ok (.slot s.rb.wr)) })

/-- R193: the bytes at `off` of the write slot change and no other byte of any slot does. -/
def Obligations.RbFillResult : Prop :=
  ∀ (off : Imm) (data : Bytes),
    EncodedAs (.rbFill off data) (0x21000000#32 ||| off.setWidth 32) data [.prod] ∧
    ∀ s : State,
      (s.rb.wrHeld = false →
        exec (.rbFill off data) s = .next { s with reply := some .seqError }) ∧
      (s.rb.wrHeld = true → s.cfg.slotSize < off.toNat + data.length →
        exec (.rbFill off data) s = .next { s with reply := some .rangeError }) ∧
      (s.rb.wrHeld = true → off.toNat + data.length ≤ s.cfg.slotSize → s.rb.wr < s.cfg.rbSlots →
        ∃ m, exec (.rbFill off data) s = .next { s with
            rb := { s.rb with slots := m }, reply := some (.ok .none) } ∧
          (∀ k, k < data.length →
            some (readByte .slot m (slotAddr s.cfg s.rb.wr (off.toNat + k))) = data[k]?) ∧
          ∀ a, (∀ k, k < data.length → a ≠ slotAddr s.cfg s.rb.wr (off.toNat + k)) →
            readByte .slot m a = readByte .slot s.rb.slots a)

/-- R194. -/
def Obligations.RbCommitWriteResult : Prop :=
  ∀ n : Imm,
    EncodedAs (.rbCommitWrite n) (0x22000000#32 ||| n.setWidth 32) [] [.prod] ∧
    ∀ s : State,
      (s.rb.wrHeld = false →
        exec (.rbCommitWrite n) s = .next { s with reply := some .seqError }) ∧
      (s.rb.wrHeld = true → s.cfg.slotSize < n.toNat →
        exec (.rbCommitWrite n) s = .next { s with reply := some .rangeError }) ∧
      (s.rb.wrHeld = true → n.toNat ≤ s.cfg.slotSize → s.rb.wr < s.rb.used.length →
        exec (.rbCommitWrite n) s = .next { s with
          rb := { s.rb with
            used := s.rb.used.set s.rb.wr n.toNat
            wr := (s.rb.wr + 1) % s.cfg.rbSlots
            count := s.rb.count + 1
            bytes := s.rb.bytes + n.toNat
            hwm := max s.rb.hwm (s.rb.bytes + n.toNat)
            wrHeld := false }
          reply := some (.ok .none) })

/-- R195. -/
def Obligations.RbTryGetReadResult : Prop :=
  EncodedAs .rbTryGetRead 0x23000000#32 [] [.dec] ∧
    ∀ s : State,
      (s.rb.count = 0 → exec .rbTryGetRead s = .next { s with reply := some .failed }) ∧
      ∀ n, 0 < s.rb.count → s.rb.used[s.rb.rd]? = some n → s.rb.rd < s.cfg.rbSlots →
        n ≤ s.cfg.slotSize →
        ∃ data, exec .rbTryGetRead s = .next { s with
            rb := { s.rb with rdHeld := true }
            reply := some (.ok (.slotData s.rb.rd n data)) } ∧
          data.length = n ∧
          ∀ k, k < n →
            data[k]? = some (readByte .slot s.rb.slots (slotAddr s.cfg s.rb.rd k))

/-- R196. -/
def Obligations.RbCommitReadResult : Prop :=
  EncodedAs .rbCommitRead 0x24000000#32 [] [.dec] ∧
    ∀ s : State,
      (s.rb.rdHeld = false → exec .rbCommitRead s = .next { s with reply := some .seqError }) ∧
      ∀ n, s.rb.rdHeld = true → s.rb.used[s.rb.rd]? = some n →
        exec .rbCommitRead s = .next { s with
          rb := { s.rb with
            bytes := s.rb.bytes - n
            rd := (s.rb.rd + 1) % s.cfg.rbSlots
            count := s.rb.count - 1
            rdHeld := false }
          reply := some (.ok .none) }

/-- R197, R198: reading the high-water mark clears it, reading the bytes available changes
nothing. -/
def Obligations.RbStatisticsResults : Prop :=
  EncodedAs .rbBytesAvailable 0x25000000#32 [] [.host, .prod, .dec] ∧
    EncodedAs .rbReadHwm 0x26000000#32 [] [.host] ∧
    ∀ s : State,
      exec .rbBytesAvailable s = .next { s with reply := some (.ok (.bytes s.rb.bytes)) } ∧
      exec .rbReadHwm s = .next { s with
        rb := { s.rb with hwm := 0 }, reply := some (.ok (.hwm s.rb.hwm)) }

/-- R87, R199, R200: the unread slots are a queue of byte sequences. An accepted write commit
appends the write slot's first `n` bytes, an accepted read commit removes the oldest entry, every
other operation leaves the queue as it is, and a get for reading answers its oldest entry. The bytes
available move by exactly what accepted commits add and take away. -/
def Obligations.UnreadSlotsAreAQueue : Prop :=
  ∀ (s t : State) (i : Instr), s.cfg.wf = true → RbInv s.cfg s.rb → exec i s = .next t →
    (∀ n, i = .rbCommitWrite n → t.reply = some (.ok .none) →
      unreadSlots t.cfg t.rb =
        unreadSlots s.cfg s.rb ++
          [readBytes .slot s.rb.slots (slotAddr s.cfg s.rb.wr 0) n.toNat]) ∧
    (i = .rbCommitRead → t.reply = some (.ok .none) →
      ∃ d, unreadSlots s.cfg s.rb = d :: unreadSlots t.cfg t.rb) ∧
    ((∀ n, i = .rbCommitWrite n → t.reply ≠ some (.ok .none)) →
      (i = .rbCommitRead → t.reply ≠ some (.ok .none)) →
      unreadSlots t.cfg t.rb = unreadSlots s.cfg s.rb) ∧
    (i = .rbTryGetRead → ∀ n len d, t.reply = some (.ok (.slotData n len d)) →
      n = s.rb.rd ∧ (unreadSlots s.cfg s.rb).head? = some d) ∧
    t.rb.bytes + consumedBy i s t = s.rb.bytes + committedBy i t

/-! ### SCH: the file (42_scheduler.md R212 to R220) -/

/-- R212: the helpers. -/
def Obligations.SchedulerHelpers : Prop :=
  (∀ (ls : List Line) (k i : Nat), firstCmdAtOrAfter ls k = some i ↔
    (k ≤ i ∧ ∃ l, ls[i]? = some l ∧ l.isCmd = true) ∧
      ∀ j l, k ≤ j → j < i → ls[j]? = some l → l.isCmd = false) ∧
    (∀ (ls : List Line) (k : Nat), firstCmdAtOrAfter ls k = none ↔
      ∀ i l, k ≤ i → ls[i]? = some l → l.isCmd = false) ∧
    (∀ (ls : List Line) (k : Nat), nextCmdAfter ls k = firstCmdAtOrAfter ls (k + 1)) ∧
    (∀ x : Sch, x.busy = true ↔ x.xphase ≠ .idle ∨ x.callout ≠ .none) ∧
    ∀ (x : Sch) (st : SchState),
      setState x st = ({ x with schState := st }, [.stateChanged st])

/-- R213. That `callout_line` and `stop_issuer` stay over a load is the model's reading of the rule
(assumption log 18). -/
def Obligations.SchLoadResult : Prop :=
  (∀ block, EncodedAs (.schLoad block) 0x30000000#32 block [.host]) ∧
    ∀ (s : State) (block : Bytes),
      (s.sch.busy = true → exec (.schLoad block) s = .next { s with reply := some .busy }) ∧
      (s.sch.busy = false → 0x00#8 ∉ block →
        exec (.schLoad block) s = .next { s with reply := some .rangeError }) ∧
      ∀ (fname text : Bytes) (ls : List Line) (errs : Bool), s.sch.busy = false →
        block = fname ++ 0x00#8 :: text → 0x00#8 ∉ fname →
        ls = (splitLines text).map (parseLine s.cfg s.env) →
        (errs = true ↔ ∃ l ∈ ls, l.err ≠ .none) →
        (s.cfg.maxLines < (splitLines text).length →
          exec (.schLoad block) s = .next { s with reply := some .rangeError }) ∧
        ((splitLines text).length ≤ s.cfg.maxLines →
          exec (.schLoad block) s = .next { s with
            sch := { s.sch with
              lines := if errs then ls else computeAbs ls s.now 0
              filename := fname
              hadErrors := errs
              pos := (firstCmdAtOrAfter ls 0).getD 0
              xphase := .idle
              slice := 0
              callout := .none
              stopNext := false
              finished := false
              schState := if errs then .loadedWithErrors else .loaded }
            evq := s.evq ++ [.stateChanged (if errs then .loadedWithErrors else .loaded)]
            reply := some (.ok (.hadErrors errs)) })

/-- R214: the last line, and each line before it. A line is any bytes without LF. -/
def Obligations.SplitLinesLaws : Prop :=
  ∀ l : Bytes, 0x0A#8 ∉ l → ∀ chop : Bytes,
    (l = chop ++ [0x0D#8] ∨ chop = l ∧ l.getLast? ≠ some 0x0D#8) →
    splitLines l = (if l = [] then [] else [chop]) ∧
      ∀ rest : Bytes, splitLines (l ++ 0x0A#8 :: rest) = chop :: splitLines rest

/-- R215: which lines `ComputeAbs` sets, and to what. -/
def Obligations.ComputeAbsSumsDelays : Prop :=
  ∀ (ls : List Line) (t0 k : Nat),
    (computeAbs ls t0 k).length = ls.length ∧
    ∀ (i : Nat) (l : Line), ls[i]? = some l →
      (i < k → (computeAbs ls t0 k)[i]? = some l) ∧
      (k ≤ i → (computeAbs ls t0 k)[i]? = some { l with
        absTime := t0 + (((ls.take (i + 1)).drop k).map
          (fun m => if m.isCmd then m.origDelay else 0)).sum })

/-- R216: the tokens are the maximal runs of bytes other than SP and HT, in order. -/
def Obligations.TokensAreMaximalRuns : Prop :=
  tokensOf [] = [] ∧
    (∀ (b : Byte) (rest : Bytes), b = 0x20#8 ∨ b = 0x09#8 →
      tokensOf (b :: rest) = tokensOf rest) ∧
    ∀ (run rest : Bytes), run ≠ [] → (∀ b ∈ run, b ≠ 0x20#8 ∧ b ≠ 0x09#8) →
      (rest.head? = none ∨ rest.head? = some 0x20#8 ∨ rest.head? = some 0x09#8) →
      tokensOf (run ++ rest) = run :: tokensOf rest

/-- R216: one line, its checks in order and what each leaves. -/
def Obligations.ParseLineChecksInOrder : Prop :=
  ∀ (cfg : Cfg) (env : Env) (t body comment : Bytes) (e : Line),
    0x23#8 ∉ body → (t = body ++ 0x23#8 :: comment ∨ t = body ∧ comment = []) →
    e = {
      text := t, isCmd := true, delay := 0, origDelay := 0, absTime := 0, cmdName := []
      cmdId := 0#32, params := [], comment := comment, err := .none } →
    (tokensOf body = [] → parseLine cfg env t = { e with isCmd := false }) ∧
    (∀ time, tokensOf body = [time] → parseLine cfg env t = { e with err := .tooFewTokens }) ∧
    ∀ time name params, tokensOf body = time :: name :: params →
      (parseTime cfg.timeFracMode time = none →
        parseLine cfg env t = { e with cmdName := name, params := params, err := .badTime }) ∧
      ∀ ms, parseTime cfg.timeFracMode time = some ms →
        ((∀ r ∈ cfg.registry, r.name ≠ name) →
          parseLine cfg env t = { e with
            cmdName := name, params := params, delay := ms, origDelay := ms
            err := .unknownCmd }) ∧
        ∀ r, lookup cfg.registry name = some r →
          parseLine cfg env t = { e with
            cmdName := name, params := params, delay := ms, origDelay := ms, cmdId := r.id
            err := if testOracle env.testFn r.id params then .none else .testFailed }

/-- R122, R217, R218: what a time token is and what it is worth. -/
def Obligations.TimeTokens : Prop :=
  (∀ mode secs, isDigits secs = true →
    parseTime mode secs = if decimal secs ≤ 65535 then some (decimal secs * 1000) else none) ∧
  (∀ mode secs frac, isDigits secs = true → isDigits frac = true →
    (mode = .exact3 → frac.length = 3) →
    parseTime mode (secs ++ 0x2E#8 :: frac) =
      if decimal secs ≤ 65535 ∧ decimal frac ≤ 999 then some (decimal secs * 1000 + decimal frac)
      else none) ∧
  (∀ mode s ms, parseTime mode s = some ms →
    ms ≤ 65535999 ∧ (isDigits s = true ∨ ∃ secs frac, s = secs ++ 0x2E#8 :: frac ∧
      isDigits secs = true ∧ isDigits frac = true ∧ (mode = .exact3 → frac.length = 3))) ∧
  (∀ s : Bytes, isDigits s = true ↔ s ≠ [] ∧ ∀ b ∈ s, 0x30 ≤ b.toNat ∧ b.toNat ≤ 0x39) ∧
  decimal [] = 0 ∧ ∀ (s : Bytes) (b : Byte), decimal (s ++ [b]) = decimal s * 10 + (b.toNat - 0x30)

/-- R219: the registry lookup is exact. -/
def Obligations.RegistryLookupIsExact : Prop :=
  ∀ (reg : List RegEntry) (name : Bytes),
    (lookup reg name = none ↔ ∀ e ∈ reg, e.name ≠ name) ∧
    (∀ e, lookup reg name = some e → e ∈ reg ∧ e.name = name) ∧
    ((reg.map RegEntry.name).Nodup → ∀ e ∈ reg, e.name = name → lookup reg name = some e)

/-! ### SCH: the HOST's operations (42_scheduler.md R222 to R231) -/

/-- R222. -/
def Obligations.SchStartResult : Prop :=
  ∀ lineNum : Imm,
    EncodedAs (.schStart lineNum) (0x31000000#32 ||| lineNum.setWidth 32) [] [.host] ∧
    ∀ s : State,
      (s.sch.busy = true → exec (.schStart lineNum) s = .next { s with reply := some .busy }) ∧
      (s.sch.busy = false →
        s.sch.schState ≠ .loaded ∨ firstCmdAtOrAfter s.sch.lines lineNum.toNat = none →
        exec (.schStart lineNum) s = .next { s with reply := some .failed }) ∧
      ∀ p, s.sch.busy = false → s.sch.schState = .loaded →
        firstCmdAtOrAfter s.sch.lines lineNum.toNat = some p →
        exec (.schStart lineNum) s = .next { s with
          sch := { s.sch with
            pos := p, stopNext := false, finished := false
            lines := computeAbs s.sch.lines s.now p
            schState := .running
            xphase := .head }
          evq := s.evq ++ [.stateChanged .running]
          reply := some (.ok .none) }

/-- R223. -/
def Obligations.SchStepIssueResult : Prop :=
  ∀ lineNum : Imm,
    EncodedAs (.schStep lineNum) (0x32000000#32 ||| lineNum.setWidth 32) [] [.host] ∧
    ∀ s : State,
      (s.sch.busy = true → exec (.schStep lineNum) s = .next { s with reply := some .busy }) ∧
      (s.sch.busy = false →
        s.sch.schState ≠ .loaded ∨ firstCmdAtOrAfter s.sch.lines lineNum.toNat = none →
        exec (.schStep lineNum) s = .next { s with reply := some .failed }) ∧
      ∀ p, s.sch.busy = false → s.sch.schState = .loaded →
        firstCmdAtOrAfter s.sch.lines lineNum.toNat = some p →
        ∃ l, s.sch.lines[p]? = some l ∧
          exec (.schStep lineNum) s = .next { s with
            sch := { s.sch with callout := .step, calloutLine := p }
            evq := s.evq ++ [.execReq p l.cmdId l.params]
            reply := some (.ok .none) }

/-- R224, R225. -/
def Obligations.SchStopResults : Prop :=
  EncodedAs .schStop 0x33000000#32 [] [.host] ∧
    EncodedAs .schStopNext 0x34000000#32 [] [.host] ∧
    ∀ s : State,
      (s.sch.schState ≠ .running →
        exec .schStop s = .next { s with reply := some .failed } ∧
          exec .schStopNext s = .next { s with reply := some .failed }) ∧
      (s.sch.schState = .running →
        exec .schStop s = .next { s with
          sch := { s.sch with schState := .loaded }
          evq := s.evq ++ [.stateChanged .loaded]
          reply := some (.ok .none) } ∧
        exec .schStopNext s = .next { s with
          sch := { s.sch with stopNext := true, stopIssuer := s.sch.pos, schState := .loaded }
          evq := s.evq ++ [.stateChanged .loaded]
          reply := some (.ok .none) })

/-- R226. -/
def Obligations.SchStatusResult : Prop :=
  EncodedAs .schStatus 0x35000000#32 [] [.host] ∧
    ∀ (s : State) (busy : Bool),
      (busy = true ↔ s.sch.xphase ≠ .idle ∨ s.sch.callout ≠ .none) →
      exec .schStatus s = .next { s with
        reply := some (.ok (.status s.sch.schState busy s.sch.pos s.sch.lines.length)) }

/-- R227, R228: the answer with no callout outstanding, and the completion of a step. -/
def Obligations.SchExecDoneOfStepResult : Prop :=
  ∀ r : Bool,
    EncodedAs (.schExecDone r) (if r then 0x36000001#32 else 0x36000000#32) [] [.host] ∧
    ∀ s : State,
      (s.sch.callout = .none →
        exec (.schExecDone r) s = .next { s with reply := some .seqError }) ∧
      (s.sch.callout = .step → ∀ q, nextCmdAfter s.sch.lines s.sch.calloutLine = some q →
        exec (.schExecDone r) s = .next { s with
          sch := { s.sch with pos := q, callout := .none }
          evq := s.evq ++ (if r then [] else [.cmdExecError s.sch.calloutLine]) ++ [.nextCommand q]
          reply := some (.ok .none) }) ∧
      (s.sch.callout = .step → nextCmdAfter s.sch.lines s.sch.calloutLine = none →
        exec (.schExecDone r) s = .next { s with
          sch := { s.sch with pos := s.sch.calloutLine, callout := .none }
          evq := s.evq ++ (if r then [] else [.cmdExecError s.sch.calloutLine])
          reply := some (.ok .none) })

/-- R231: the completion of a run's callout. After the last command the exit sequence runs at once;
unless an earlier stop was issued at another command, it leaves the position on that command and
emits no `NEXT_COMMAND`. -/
def Obligations.SchExecDoneOfRunResult : Prop :=
  ∀ (r : Bool) (s : State) (c : Nat) (l : Line), s.sch.callout = .run → c = s.sch.calloutLine →
    s.sch.lines[c]? = some l →
    (∀ q, nextCmdAfter s.sch.lines c = some q →
      exec (.schExecDone r) s = .next { s with
        sch := { s.sch with
          lines := s.sch.lines.set c { l with delay := l.origDelay }
          callout := .none, pos := q, xphase := .head }
        evq := s.evq ++ (if r then [] else [.cmdExecError c]) ++ [.nextCommand q]
        reply := some (.ok .none) }) ∧
    (nextCmdAfter s.sch.lines c = none → s.sch.pos < s.sch.lines.length →
      ∃ x es, exitRun { s.sch with
          lines := s.sch.lines.set c { l with delay := l.origDelay }
          callout := .none, finished := true } = .ok (x, es) ∧
        exec (.schExecDone r) s = .next { s with
          sch := x
          evq := s.evq ++ (if r then [] else [.cmdExecError c]) ++ es
          reply := some (.ok .none) } ∧
        (s.sch.pos = c → s.sch.stopNext = false ∨ s.sch.stopIssuer = c →
          x.pos = c ∧ ∀ q, .nextCommand q ∉ es))

/-! ### SCH: the executor (42_scheduler.md R229 to R238) -/

/-- R229. -/
def Obligations.HeadStepResult : Prop :=
  ∀ (s : State) (rest : List Input) (l : Line), s.inputs = .executor :: rest →
    s.sch.xphase = .head → s.sch.lines[s.sch.pos]? = some l →
    (s.sch.schState = .running →
      step s = .next { s with
        inputs := rest, issuer := none, reply := none
        sch := { s.sch with
          slice := min l.delay 1000, wake := s.now + min l.delay 1000, xphase := .sleep } }) ∧
    (s.sch.schState ≠ .running → ∃ x es, exitRun s.sch = .ok (x, es) ∧
      step s = .next { s with
        inputs := rest, issuer := none, reply := none, sch := x, evq := s.evq ++ es })

/-- R230. -/
def Obligations.WakeStepResult : Prop :=
  ∀ (s : State) (rest : List Input) (l : Line), s.inputs = .executor :: rest →
    s.sch.xphase = .sleep → s.sch.wake ≤ s.now → s.sch.lines[s.sch.pos]? = some l →
    (s.cfg.stopCheckAfterSleep = true ∧ s.sch.schState ≠ .running →
      ∃ x es, exitRun s.sch = .ok (x, es) ∧
        step s = .next { s with
          inputs := rest, issuer := none, reply := none, sch := x, evq := s.evq ++ es }) ∧
    (s.cfg.stopCheckAfterSleep = false ∨ s.sch.schState = .running → s.sch.slice ≤ l.delay →
      (l.delay - s.sch.slice = 0 →
        step s = .next { s with
          inputs := rest, issuer := none, reply := none
          sch := { s.sch with
            lines := s.sch.lines.set s.sch.pos { l with delay := 0 }
            callout := .run, calloutLine := s.sch.pos, xphase := .execWait }
          evq := s.evq ++ [.execReq s.sch.pos l.cmdId l.params] }) ∧
      (l.delay - s.sch.slice ≠ 0 →
        step s = .next { s with
          inputs := rest, issuer := none, reply := none
          sch := { s.sch with
            lines := s.sch.lines.set s.sch.pos { l with delay := l.delay - s.sch.slice }
            xphase := .head } }))

/-- R232: everything an exit does. -/
def Obligations.ExitRunResult : Prop :=
  ∀ (x : Sch) (l : Line) (p : Nat) (moved : List Event), x.lines[x.pos]? = some l →
    ((∃ q, x.stopNext = true ∧ nextCmdAfter x.lines x.stopIssuer = some q ∧ q ≠ x.pos ∧
        p = q ∧ moved = [.nextCommand q]) ∨
      (∀ q, x.stopNext = true → nextCmdAfter x.lines x.stopIssuer = some q → q = x.pos) ∧
        p = x.pos ∧ moved = []) →
    exitRun x = .ok
      ({ x with
          schState := if x.schState = .running then .loaded else x.schState
          lines := x.lines.set x.pos { l with delay := l.origDelay }
          pos := p
          stopNext := false
          finished := false
          xphase := .idle
          callout := .none
          slice := 0 },
        (if x.schState = .running then [.stateChanged .loaded] else []) ++ moved ++
          [.stopped x.filename] ++ (if x.finished then [.finished x.filename] else []))

/-- R234: the transitions of the engine state and of the executor's phase, each with its cause (an
operation taken, or the EXECUTOR's turn) and its condition; a phase that ends in `IDLE` ends there
through the exit sequence. -/
def Obligations.SchedulerTransitions : Prop :=
  ∀ s t : State, Inv s → step s = .next t →
    (t.sch.schState = s.sch.schState ∨
      ∃ i, takes s i ∧
        ((∃ block, i = .schLoad block) ∧ s.sch.busy = false ∧
            (t.sch.schState = .loaded ∨ t.sch.schState = .loadedWithErrors) ∨
          (∃ k, i = .schStart k ∧ firstCmdAtOrAfter s.sch.lines k.toNat = some t.sch.pos) ∧
            s.sch.busy = false ∧ s.sch.schState = .loaded ∧ t.sch.schState = .running ∨
          (i = .schStop ∨ i = .schStopNext) ∧ s.sch.schState = .running ∧
            t.sch.schState = .loaded ∨
          (∃ r, i = .schExecDone r) ∧ s.sch.callout = .run ∧
            nextCmdAfter s.sch.lines s.sch.calloutLine = none ∧ s.sch.schState = .running ∧
            t.sch.schState = .loaded ∧ t.sch.xphase = .idle)) ∧
    (t.sch.xphase = s.sch.xphase ∨
      (∃ k, takes s (.schStart k)) ∧ s.sch.xphase = .idle ∧ t.sch.xphase = .head ∧
        t.sch.schState = .running ∨
      executorActs s ∧ s.sch.xphase = .head ∧ t.sch.xphase = .sleep ∧ s.sch.schState = .running ∨
      executorActs s ∧ s.sch.xphase = .head ∧ t.sch.xphase = .idle ∧ s.sch.schState ≠ .running ∧
        exited s t ∨
      executorActs s ∧ s.sch.xphase = .sleep ∧
        (t.sch.xphase = .head ∨ t.sch.xphase = .execWait) ∧ s.sch.wake ≤ s.now ∨
      executorActs s ∧ s.sch.xphase = .sleep ∧ t.sch.xphase = .idle ∧ s.sch.wake ≤ s.now ∧
        s.cfg.stopCheckAfterSleep = true ∧ s.sch.schState ≠ .running ∧ exited s t ∨
      (∃ r, takes s (.schExecDone r)) ∧ s.sch.xphase = .execWait ∧ s.sch.callout = .run ∧
        t.sch.callout = .none ∧
        ((∃ q, nextCmdAfter s.sch.lines s.sch.calloutLine = some q ∧ t.sch.pos = q ∧
            t.sch.xphase = .head) ∨
          nextCmdAfter s.sch.lines s.sch.calloutLine = none ∧ t.sch.xphase = .idle ∧
            exited s t))

/-- R238: from the loop head, the countdown of the command at `pos` under the prompt schedule: one
slice for each started second, and the callout exactly its remaining delay later. -/
def Obligations.CountdownTakesItsDelay : Prop :=
  ∀ (s : State) (l : Line) (rest : List Input) (n : Nat), s.sch.xphase = .head →
    s.sch.schState = .running → s.sch.lines[s.sch.pos]? = some l → n = (l.delay - 1) / 1000 →
    s.inputs = countdownInputs n l.delay ++ rest →
    core.run (countdownInputs n l.delay).length s = .next { s with
      inputs := rest, issuer := none, reply := none
      now := s.now + l.delay
      evq := s.evq ++ [.execReq s.sch.pos l.cmdId l.params]
      sch := { s.sch with
        lines := s.sch.lines.set s.sch.pos { l with delay := 0 }
        slice := l.delay - n * 1000
        wake := s.now + l.delay
        callout := .run
        calloutLine := s.sch.pos
        xphase := .execWait } }

/-- R236: a run under the prompt schedule. Each command's callout comes at the start time plus the
delays up to and including its own; the run ends at the start time plus all delays. -/
def Obligations.RunTiming : Prop :=
  ∀ (s : State) (lineNum : Imm) (cs : List Nat) (rest : List Input), Inv s →
    s.sch.busy = false → s.sch.schState = .loaded →
    firstCmdAtOrAfter s.sch.lines lineNum.toNat = cs.head? → commandsToEnd s.sch.lines cs →
    s.inputs = .op .host (0x31000000#32 ||| lineNum.setWidth 32) [] ::
      (runSchedule s.sch.lines cs ++ rest) →
    (∃ t, core.run (1 + (runSchedule s.sch.lines cs).length) s = .next t ∧
      t.inputs = rest ∧ t.now = s.now + (cs.map (delayAt s.sch.lines)).sum ∧
      t.evq = s.evq ++ .stateChanged .running :: runEvents s.sch.lines s.sch.filename cs ∧
      t.sch.schState = .loaded ∧ t.sch.xphase = .idle ∧ cs.getLast? = some t.sch.pos) ∧
    ∀ before c after, cs = before ++ c :: after →
      ∃ k t, core.run k s = .next t ∧
        t.now = s.now + (before.map (delayAt s.sch.lines)).sum + delayAt s.sch.lines c ∧
        (∃ es, t.evq = s.evq ++ es ++ execReqAt s.sch.lines c) ∧
        t.sch.callout = .run ∧ t.sch.calloutLine = c

/-- R235: with no check after a sleep, a stop accepted during a slice is followed by the exit when
the slice ends, at most 1000 ms later. If it was a command's last slice, that one command still
runs: its callout comes first, and the HOST's answer and the executor's turn end in the exit at the
same time. -/
def Obligations.StopLatency : Prop :=
  ∀ (s : State) (l : Line) (rest : List Input), Inv s → s.sch.xphase = .sleep →
    s.sch.schState = .running → s.cfg.stopCheckAfterSleep = false →
    s.sch.lines[s.sch.pos]? = some l →
    s.inputs = .op .host 0x33000000#32 [] :: .time (s.sch.wake - s.now) :: .executor ::
      .executor :: rest →
    ∃ t, core.run 4 s = .next t ∧ t.inputs = rest ∧ t.now ≤ s.now + 1000 ∧
      t.now = max s.now s.sch.wake ∧ t.sch.pos = s.sch.pos ∧
      (s.sch.slice < l.delay → t.sch.xphase = .idle ∧
        t.sch.lines[s.sch.pos]? = some { l with delay := l.origDelay } ∧
        t.evq = s.evq ++ [.stateChanged .loaded, .stopped s.sch.filename]) ∧
      (s.sch.slice = l.delay → t.sch.xphase = .execWait ∧
        t.evq = s.evq ++
          [.stateChanged .loaded, .execReq s.sch.pos l.cmdId l.params] ∧
        ∀ (r : Bool) (rest' : List Input),
          rest = .op .host (if r then 0x36000001#32 else 0x36000000#32) [] :: .executor :: rest' →
          ∃ u, core.run 6 s = .next u ∧ u.inputs = rest' ∧ u.now = t.now ∧
            u.sch.xphase = .idle ∧ u.sch.schState = .loaded ∧
            u.sch.lines[s.sch.pos]? = some { l with delay := l.origDelay } ∧
            u.sch.pos = (nextCmdAfter s.sch.lines s.sch.pos).getD s.sch.pos ∧
            u.evq = t.evq ++ (if r then [] else [.cmdExecError s.sch.pos]) ++
              match nextCmdAfter s.sch.lines s.sch.pos with
              | some q => [.nextCommand q, .stopped s.sch.filename]
              | none => [.stopped s.sch.filename, .finished s.sch.filename])

/-- R225, conflict C7: a command that stops its own run with `SCH.STOP_NEXT` leaves the position on
the next command, announced once. -/
def Obligations.EmbeddedStopAdvancesOnce : Prop :=
  ∀ (s : State) (r : Bool) (q : Nat) (rest : List Input), Inv s → s.sch.callout = .run →
    s.sch.schState = .running → nextCmdAfter s.sch.lines s.sch.pos = some q →
    s.inputs = .op .host 0x34000000#32 [] ::
      .op .host (if r then 0x36000001#32 else 0x36000000#32) [] :: .executor :: rest →
    ∃ t, core.run 3 s = .next t ∧ t.inputs = rest ∧ t.sch.pos = q ∧ t.sch.xphase = .idle ∧
      t.sch.schState = .loaded ∧ t.sch.stopNext = false ∧
      t.evq = s.evq ++ [.stateChanged .loaded] ++
        (if r then [] else [.cmdExecError s.sch.pos]) ++
        [.nextCommand q, .stopped s.sch.filename]

/-! ### The whole block -/

/-- R11, with R10's legal values: from which configurations a block is constructed. That `SYNC2` is
the value R10 allows only with a header CRC is a reading of its table (assumption log 13). -/
def Obligations.OnlyWellFormedConfigurationsConstruct : Prop :=
  ∀ (cfg : Cfg) (env : Env) (now : Nat),
    (∃ s, State.construct cfg env now = some s) ↔
      (cfg.maxFrame = 65535 ∨ cfg.maxFrame = 65536) ∧ cfg.maxErrors ≤ 4294967295 ∧
      (1 ≤ cfg.rbSlots ∧ cfg.rbSlots ≤ 65536) ∧ (1 ≤ cfg.slotSize ∧ cfg.slotSize ≤ 16777215) ∧
      cfg.maxLines ≤ 16777216 ∧ (cfg.includeHeaderCrc = true → cfg.protocol = .p5E4D) ∧
      (cfg.hdrCrcFirst = .sync2 → cfg.includeHeaderCrc = true) ∧
      (∀ e ∈ cfg.registry, e.name ≠ []) ∧
      ∀ (i j : Nat) (e d : RegEntry), i < j → cfg.registry[i]? = some e → cfg.registry[j]? = some d →
        e.name ≠ d.name ∧ e.id ≠ d.id

/-- R331: what construction leaves, and that the invariants (R50, R62) hold of it. R331 leaves the
bytes of `MSGBUF` and `SLOT` unspecified: that the model then lists none, and reads each as a free
value, is its choice (assumption log 5), and so is the form the invariants give to the memories. -/
def Obligations.ConstructionReset : Prop :=
  ∀ (cfg : Cfg) (env : Env) (now : Nat) (s : State), State.construct cfg env now = some s →
    s.cfg = cfg ∧ s.env = env ∧ s.now = now ∧ s.evq = [] ∧
    s.codec = {
      dstate := .waitSync1, crc := 0x00#8, len := 0, idx := 0, msgAddr := 0x00#8, msgLen := 0
      msgValid := false, lastOk := false, errCount := 0, resetReq := false, msgbuf := [] } ∧
    s.rb = {
      slots := [], used := List.replicate cfg.rbSlots 0, wr := 0, rd := 0, count := 0, bytes := 0
      hwm := 0, wrHeld := false, rdHeld := false } ∧
    s.sch = {
      schState := .none, pos := 0, lines := [], hadErrors := false, filename := [], xphase := .idle
      slice := 0, wake := 0, callout := .none, calloutLine := 0, stopNext := false, stopIssuer := 0
      finished := false } ∧
    Inv s ∧ ViewInv s

/-- The reset state is one such construction. -/
def Obligations.ResetSatisfiesTheInvariant : Prop :=
  Inv State.reset ∧ ViewInv State.reset ∧
    State.construct Config.vectorCfg Config.vectorEnv 0 = some State.reset

/-- R23, R50, R62 and the ranges of the registers: every step keeps the invariant. Two of its
clauses are the model's choice: `idx ≤ len` (R31) is not claimed between the two length bytes, where
R162 breaks it (assumption log 12), and the memories have a canonical form (assumption log 5). -/
def Obligations.StepKeepsTheInvariant : Prop :=
  ∀ s t : State, Inv s → step s = .next t → Inv t

/-- R302: no sequence of actions leads out of the rules. Where the invariant holds, every action an
agent can take has a next state. -/
def Obligations.EveryStepHasANextState : Prop :=
  ∀ s : State, Inv s → (∀ a, s.inputs.head? = some a → a.wf = true) →
    ∃ t, step s = .next t

/-- R125 to R127: an operation gets exactly one reply; with `OK` come the values listed for it, and
with any other status nothing has changed. -/
def Obligations.EveryOperationReplies : Prop :=
  ∀ (s : State) (i : Instr), Inv s → ∃ t r, exec i s = .next t ∧ t.reply = some r ∧
    (∀ v, r = .ok v → valuesFit i v) ∧
    ((∀ v, r ≠ .ok v) → t = { s with reply := some r })

/-- R21, R39: the units share no register, and encoding reads none. -/
def Obligations.UnitsAreSeparate : Prop :=
  ∀ (s t : State) (i : Instr), exec i s = .next t →
    (unitOf (encodeWord i) = 1 → t.rb = s.rb ∧ t.sch = s.sch) ∧
    (unitOf (encodeWord i) = 2 → t.codec = s.codec ∧ t.sch = s.sch ∧ t.evq = s.evq) ∧
    (unitOf (encodeWord i) = 3 → t.codec = s.codec ∧ t.rb = s.rb) ∧
    ∀ (addr : BitVec 16) (payload : Bytes) (u : State), i = .codecEncode addr payload →
      u.cfg = s.cfg → t = { s with reply := t.reply } ∧
        exec i u = .next { u with reply := t.reply }

/-- R27, R60, R61: the configuration is fixed, events are only appended, time never goes back. -/
def Obligations.ConfigurationEventsAndTimeOnlyGrow : Prop :=
  ∀ s t : State, step s = .next t →
    t.cfg = s.cfg ∧ t.env = s.env ∧ s.now ≤ t.now ∧ ∃ es, t.evq = s.evq ++ es

/-- R306, R233 (with assumption log 2): when no agent has anything scheduled, every sleep ends. -/
def Obligations.EverySleepEnds : Prop :=
  ∀ s : State, s.inputs = [] → s.sch.xphase = .sleep →
    ∃ k t, k ≤ s.sch.wake - s.now ∧ core.run k s = .next t ∧ s.sch.wake ≤ t.now ∧
      t.sch = s.sch ∧ t.evq = s.evq ∧ executorEnabled t.now t.sch = true
end

