-- ==== Sys2Proof/Laws/Memory.lean ====
section
/-! SUPPORT. Laws of the memory operations: a read after a write, what a write leaves alone, the
canonical form, and the checked accesses to `MSGBUF` and `SLOT`. -/

namespace Sys2Proof.Machine

/-! ### One byte -/

@[simp] theorem byteAt_nil (a : Nat) : Memory.byteAt [] a = none := rfl

theorem byteAt_cons (c : Host.Cell) (m : Memory) (a : Nat) :
    Memory.byteAt (c :: m) a = if c.1 = a then some c.2 else Memory.byteAt m a := rfl

/-- A read after a write to the same address gives the value written. -/
@[simp] theorem byteAt_put_same (m : Memory) (a : Nat) (b : Byte) :
    (m.put a b).byteAt a = some b := by
  induction m with
  | nil => simp [Memory.put, Memory.byteAt]
  | cons c m ih =>
    by_cases h1 : a < c.1
    · simp [Memory.put, Memory.byteAt, h1]
    · by_cases h2 : a = c.1
      · simp [Memory.put, Memory.byteAt, h2]
      · have h3 : c.1 ≠ a := fun h => h2 h.symm
        simp [Memory.put, h1, h2, byteAt_cons, h3, ih]

/-- A write leaves every other address alone. -/
theorem byteAt_put_other (m : Memory) {a x : Nat} (b : Byte) (h : x ≠ a) :
    (m.put a b).byteAt x = m.byteAt x := by
  have ha : a ≠ x := fun e => h e.symm
  induction m with
  | nil => simp [Memory.put, Memory.byteAt, ha]
  | cons c m ih =>
    by_cases h1 : a < c.1
    · simp [Memory.put, h1, byteAt_cons, ha]
    · by_cases h2 : a = c.1
      · subst h2
        simp [Memory.put, byteAt_cons, ha]
      · simp [Memory.put, h1, h2, byteAt_cons, ih]

/-- A read after a write, at any address. -/
theorem byteAt_put (m : Memory) (a x : Nat) (b : Byte) :
    (m.put a b).byteAt x = if x = a then some b else m.byteAt x := by
  by_cases h : x = a
  · subst h; simp
  · simp [h, byteAt_put_other m b h]

/-! ### The canonical form -/

/-- The addresses a write leaves are those that were there and the one written. -/
theorem mem_put_fst {m : Memory} {a : Nat} {b : Byte} {x : Nat}
    (h : x ∈ (m.put a b).map Prod.fst) : x = a ∨ x ∈ m.map Prod.fst := by
  induction m with
  | nil => simpa [Memory.put] using h
  | cons c m ih =>
    by_cases h1 : a < c.1
    · simpa [Memory.put, h1] using h
    · by_cases h2 : a = c.1
      · subst h2
        right
        simpa [Memory.put] using h
      · simp only [Memory.put, h1, h2, if_false, List.map_cons, List.mem_cons] at h ⊢
        rcases h with h | h
        · exact .inr (.inl h)
        · rcases ih h with h | h
          · exact .inl h
          · exact .inr (.inr h)

theorem wf_iff (m : Memory) : m.wf = true ↔ (m.map Prod.fst).Pairwise (· < ·) := by
  simp [Memory.wf]

/-- A write keeps the canonical form. -/
theorem put_wf {m : Memory} (a : Nat) (b : Byte) (h : m.wf = true) : (m.put a b).wf = true := by
  rw [wf_iff] at h ⊢
  induction m with
  | nil => simp [Memory.put]
  | cons c m ih =>
    rw [List.map_cons, List.pairwise_cons] at h
    by_cases h1 : a < c.1
    · simp only [Memory.put, h1, if_true, List.map_cons, List.pairwise_cons, List.mem_cons]
      refine ⟨?_, h.1, h.2⟩
      rintro x (rfl | hx)
      · exact h1
      · exact lt_trans h1 (h.1 x hx)
    · by_cases h2 : a = c.1
      · subst h2
        simpa [Memory.put, List.pairwise_cons] using h
      · simp only [Memory.put, h1, h2, if_false, List.map_cons, List.pairwise_cons]
        refine ⟨?_, ih h.2⟩
        intro x hx
        rcases mem_put_fst hx with rfl | hx
        · omega
        · exact h.1 x hx

/-- A write below a bound keeps every address below it. -/
theorem put_below {m : Memory} {a n : Nat} (b : Byte) (h : m.below n) (ha : a < n) :
    (m.put a b).below n := by
  intro c hc
  rcases mem_put_fst (List.mem_map_of_mem (f := Prod.fst) hc) with h1 | h1
  · omega
  · obtain ⟨d, hd, hd2⟩ := List.mem_map.1 h1
    have := h d hd
    omega

/-- A write adds its address to the written ones. -/
theorem put_covers {m : Memory} {n : Nat} (b : Byte) (h : m.covers n) :
    (m.put n b).covers (n + 1) := by
  intro i hi
  rw [byteAt_put]
  split
  · rfl
  · exact h i (by omega)

/-! ### Byte sequences -/

@[simp] theorem readBytes_length (sp : Space) (m : Memory) (a n : Nat) :
    (readBytes sp m a n).length = n := by
  induction n generalizing a with
  | zero => rfl
  | succ n ih => simp [readBytes, ih]

theorem readBytes_getElem? (sp : Space) (m : Memory) (a n i : Nat) (h : i < n) :
    (readBytes sp m a n)[i]? = some (readByte sp m (a + i)) := by
  induction n generalizing a i with
  | zero => omega
  | succ n ih =>
    cases i with
    | zero => simp [readBytes]
    | succ i =>
      rw [readBytes, List.getElem?_cons_succ, ih (a + 1) i (by omega)]
      congr 2
      omega

/-- Two memories that agree on a range read the same there. -/
theorem readBytes_congr {sp : Space} {m m' : Memory} {a n : Nat}
    (h : ∀ i, a ≤ i → i < a + n → m.byteAt i = m'.byteAt i) :
    readBytes sp m a n = readBytes sp m' a n := by
  induction n generalizing a with
  | zero => rfl
  | succ n ih =>
    rw [readBytes, readBytes, readByte, readByte, h a (by omega) (by omega),
      ih (a := a + 1) fun i h1 h2 => h i (by omega) (by omega)]

/-- A sequence read across two adjacent ranges. -/
theorem readBytes_add (sp : Space) (m : Memory) (a n k : Nat) :
    readBytes sp m a (n + k) = readBytes sp m a n ++ readBytes sp m (a + n) k := by
  induction n generalizing a with
  | zero => simp [readBytes]
  | succ n ih =>
    rw [Nat.add_right_comm, readBytes, readBytes, ih, List.cons_append]
    congr 3
    omega

/-- What a written byte sequence leaves at every address. -/
theorem byteAt_writeBytes (m : Memory) (a x : Nat) (bs : Bytes) :
    (writeBytes m a bs).byteAt x =
      if a ≤ x ∧ x < a + bs.length then bs[x - a]? else m.byteAt x := by
  induction bs generalizing m a with
  | nil => simp [writeBytes]
  | cons b bs ih =>
    rw [writeBytes, ih, byteAt_put]
    by_cases h0 : x = a
    · subst h0
      simp
    · by_cases h1 : a + 1 ≤ x ∧ x < a + 1 + bs.length
      · have h2 : a ≤ x ∧ x < a + (b :: bs).length := by
          rw [List.length_cons]; omega
        rw [if_pos h1, if_pos h2, show x - a = (x - (a + 1)) + 1 by omega,
          List.getElem?_cons_succ]
      · have h2 : ¬(a ≤ x ∧ x < a + (b :: bs).length) := by
          rw [List.length_cons]; omega
        rw [if_neg h1, if_neg h2, if_neg h0]

theorem writeBytes_wf {m : Memory} (a : Nat) (bs : Bytes) (h : m.wf = true) :
    (writeBytes m a bs).wf = true := by
  induction bs generalizing m a with
  | nil => exact h
  | cons b bs ih => exact ih (a + 1) (put_wf a b h)

theorem writeBytes_below {m : Memory} {a n : Nat} {bs : Bytes} (h : m.below n)
    (hb : a + bs.length ≤ n) : (writeBytes m a bs).below n := by
  induction bs generalizing m a with
  | nil => exact h
  | cons b bs ih =>
    rw [List.length_cons] at hb
    exact ih (put_below b h (by omega)) (by omega)

/-- A byte sequence is read back as it was written. -/
theorem readBytes_writeBytes (sp : Space) (m : Memory) (a : Nat) (bs : Bytes) :
    readBytes sp (writeBytes m a bs) a bs.length = bs := by
  apply List.ext_getElem?
  intro i
  by_cases h : i < bs.length
  · rw [readBytes_getElem? _ _ _ _ _ h, readByte, byteAt_writeBytes, if_pos (by omega)]
    simp [h]
  · rw [List.getElem?_eq_none (by simpa using h), List.getElem?_eq_none (by simpa using h)]

/-! ### Checked accesses: everything each can do -/

theorem msgbufRead_ok {cfg : Cfg} {c : Codec} {n : Nat} {bs : Bytes} :
    msgbufRead cfg c n = .ok bs ↔ n ≤ cfg.msgbufSize ∧ bs = readBytes .msgbuf c.msgbuf 0 n := by
  unfold msgbufRead
  split <;> simp_all [eq_comm]

theorem msgbufWrite_ok {cfg : Cfg} {c : Codec} {i : Nat} {b : Byte} {m : Memory} :
    msgbufWrite cfg c i b = .ok m ↔ i < cfg.msgbufSize ∧ m = c.msgbuf.put i b := by
  unfold msgbufWrite
  split <;> simp_all [eq_comm]

theorem slotRead_ok {cfg : Cfg} {r : Rb} {i n : Nat} {bs : Bytes} :
    slotRead cfg r i n = .ok bs ↔
      (i < cfg.rbSlots ∧ n ≤ cfg.slotSize) ∧
        bs = readBytes .slot r.slots (slotAddr cfg i 0) n := by
  unfold slotRead
  split <;> simp_all [eq_comm]

theorem slotWrite_ok {cfg : Cfg} {r : Rb} {i o : Nat} {data : Bytes} {m : Memory} :
    slotWrite cfg r i o data = .ok m ↔
      (i < cfg.rbSlots ∧ o + data.length ≤ cfg.slotSize) ∧
        m = writeBytes r.slots (slotAddr cfg i o) data := by
  unfold slotWrite
  split <;> simp_all [eq_comm]

/-- A slot's bytes are inside `SLOT`. -/
theorem slotAddr_le {cfg : Cfg} {i o : Nat} (hi : i < cfg.rbSlots) (ho : o ≤ cfg.slotSize) :
    slotAddr cfg i o ≤ cfg.rbSlots * cfg.slotSize := by
  have : (i + 1) * cfg.slotSize ≤ cfg.rbSlots * cfg.slotSize := Nat.mul_le_mul_right _ hi
  have h2 : (i + 1) * cfg.slotSize = i * cfg.slotSize + cfg.slotSize := Nat.succ_mul _ _
  unfold slotAddr
  omega

/-- Bytes of different slots have different addresses. -/
theorem slotAddr_ne {cfg : Cfg} {i j o k : Nat} (h : i ≠ j) (ho : o < cfg.slotSize)
    (hk : k < cfg.slotSize) : slotAddr cfg i o ≠ slotAddr cfg j k := by
  unfold slotAddr
  rcases Nat.lt_or_gt_of_ne h with h | h
  · have : (i + 1) * cfg.slotSize ≤ j * cfg.slotSize := Nat.mul_le_mul_right _ h
    have h2 : (i + 1) * cfg.slotSize = i * cfg.slotSize + cfg.slotSize := Nat.succ_mul _ _
    omega
  · have : (j + 1) * cfg.slotSize ≤ i * cfg.slotSize := Nat.mul_le_mul_right _ h
    have h2 : (j + 1) * cfg.slotSize = j * cfg.slotSize + cfg.slotSize := Nat.succ_mul _ _
    omega

end Sys2Proof.Machine
end

