-- ==== Sys2Proof/Laws/State.lean ====
section
/-! SUPPORT. What every update of the state leaves in every field: one lemma per field per update. -/

namespace Sys2Proof.Machine

variable (s : State)

/-! ### `State.withCodec` -/

@[simp] theorem State.withCodec_cfg (c : Codec) : (s.withCodec c).cfg = s.cfg := rfl

@[simp] theorem State.withCodec_env (c : Codec) : (s.withCodec c).env = s.env := rfl

@[simp] theorem State.withCodec_codec (c : Codec) : (s.withCodec c).codec = c := rfl

@[simp] theorem State.withCodec_rb (c : Codec) : (s.withCodec c).rb = s.rb := rfl

@[simp] theorem State.withCodec_sch (c : Codec) : (s.withCodec c).sch = s.sch := rfl

@[simp] theorem State.withCodec_evq (c : Codec) : (s.withCodec c).evq = s.evq := rfl

@[simp] theorem State.withCodec_now (c : Codec) : (s.withCodec c).now = s.now := rfl

@[simp] theorem State.withCodec_inputs (c : Codec) : (s.withCodec c).inputs = s.inputs := rfl

@[simp] theorem State.withCodec_issuer (c : Codec) : (s.withCodec c).issuer = s.issuer := rfl

@[simp] theorem State.withCodec_reply (c : Codec) : (s.withCodec c).reply = s.reply := rfl

@[simp] theorem State.withCodec_idleTicks (c : Codec) : (s.withCodec c).idleTicks = s.idleTicks := rfl

/-! ### `State.withRb` -/

@[simp] theorem State.withRb_cfg (r : Rb) : (s.withRb r).cfg = s.cfg := rfl

@[simp] theorem State.withRb_env (r : Rb) : (s.withRb r).env = s.env := rfl

@[simp] theorem State.withRb_codec (r : Rb) : (s.withRb r).codec = s.codec := rfl

@[simp] theorem State.withRb_rb (r : Rb) : (s.withRb r).rb = r := rfl

@[simp] theorem State.withRb_sch (r : Rb) : (s.withRb r).sch = s.sch := rfl

@[simp] theorem State.withRb_evq (r : Rb) : (s.withRb r).evq = s.evq := rfl

@[simp] theorem State.withRb_now (r : Rb) : (s.withRb r).now = s.now := rfl

@[simp] theorem State.withRb_inputs (r : Rb) : (s.withRb r).inputs = s.inputs := rfl

@[simp] theorem State.withRb_issuer (r : Rb) : (s.withRb r).issuer = s.issuer := rfl

@[simp] theorem State.withRb_reply (r : Rb) : (s.withRb r).reply = s.reply := rfl

@[simp] theorem State.withRb_idleTicks (r : Rb) : (s.withRb r).idleTicks = s.idleTicks := rfl

/-! ### `State.withSch` -/

@[simp] theorem State.withSch_cfg (x : Sch) : (s.withSch x).cfg = s.cfg := rfl

@[simp] theorem State.withSch_env (x : Sch) : (s.withSch x).env = s.env := rfl

@[simp] theorem State.withSch_codec (x : Sch) : (s.withSch x).codec = s.codec := rfl

@[simp] theorem State.withSch_rb (x : Sch) : (s.withSch x).rb = s.rb := rfl

@[simp] theorem State.withSch_sch (x : Sch) : (s.withSch x).sch = x := rfl

@[simp] theorem State.withSch_evq (x : Sch) : (s.withSch x).evq = s.evq := rfl

@[simp] theorem State.withSch_now (x : Sch) : (s.withSch x).now = s.now := rfl

@[simp] theorem State.withSch_inputs (x : Sch) : (s.withSch x).inputs = s.inputs := rfl

@[simp] theorem State.withSch_issuer (x : Sch) : (s.withSch x).issuer = s.issuer := rfl

@[simp] theorem State.withSch_reply (x : Sch) : (s.withSch x).reply = s.reply := rfl

@[simp] theorem State.withSch_idleTicks (x : Sch) : (s.withSch x).idleTicks = s.idleTicks := rfl

/-! ### `State.emit` -/

@[simp] theorem State.emit_cfg (es : List Event) : (s.emit es).cfg = s.cfg := rfl

@[simp] theorem State.emit_env (es : List Event) : (s.emit es).env = s.env := rfl

@[simp] theorem State.emit_codec (es : List Event) : (s.emit es).codec = s.codec := rfl

@[simp] theorem State.emit_rb (es : List Event) : (s.emit es).rb = s.rb := rfl

@[simp] theorem State.emit_sch (es : List Event) : (s.emit es).sch = s.sch := rfl

@[simp] theorem State.emit_evq (es : List Event) : (s.emit es).evq = s.evq ++ es := rfl

@[simp] theorem State.emit_now (es : List Event) : (s.emit es).now = s.now := rfl

@[simp] theorem State.emit_inputs (es : List Event) : (s.emit es).inputs = s.inputs := rfl

@[simp] theorem State.emit_issuer (es : List Event) : (s.emit es).issuer = s.issuer := rfl

@[simp] theorem State.emit_reply (es : List Event) : (s.emit es).reply = s.reply := rfl

@[simp] theorem State.emit_idleTicks (es : List Event) : (s.emit es).idleTicks = s.idleTicks := rfl

/-! ### `State.answer` -/

@[simp] theorem State.answer_cfg (r : Reply) : (s.answer r).cfg = s.cfg := rfl

@[simp] theorem State.answer_env (r : Reply) : (s.answer r).env = s.env := rfl

@[simp] theorem State.answer_codec (r : Reply) : (s.answer r).codec = s.codec := rfl

@[simp] theorem State.answer_rb (r : Reply) : (s.answer r).rb = s.rb := rfl

@[simp] theorem State.answer_sch (r : Reply) : (s.answer r).sch = s.sch := rfl

@[simp] theorem State.answer_evq (r : Reply) : (s.answer r).evq = s.evq := rfl

@[simp] theorem State.answer_now (r : Reply) : (s.answer r).now = s.now := rfl

@[simp] theorem State.answer_inputs (r : Reply) : (s.answer r).inputs = s.inputs := rfl

@[simp] theorem State.answer_issuer (r : Reply) : (s.answer r).issuer = s.issuer := rfl

@[simp] theorem State.answer_reply (r : Reply) : (s.answer r).reply = some r := rfl

@[simp] theorem State.answer_idleTicks (r : Reply) : (s.answer r).idleTicks = s.idleTicks := rfl

/-! ### `State.received` -/

@[simp] theorem State.received_cfg (p : Port) (rest : List Input) : (s.received p rest).cfg = s.cfg := rfl

@[simp] theorem State.received_env (p : Port) (rest : List Input) : (s.received p rest).env = s.env := rfl

@[simp] theorem State.received_codec (p : Port) (rest : List Input) : (s.received p rest).codec = s.codec := rfl

@[simp] theorem State.received_rb (p : Port) (rest : List Input) : (s.received p rest).rb = s.rb := rfl

@[simp] theorem State.received_sch (p : Port) (rest : List Input) : (s.received p rest).sch = s.sch := rfl

@[simp] theorem State.received_evq (p : Port) (rest : List Input) : (s.received p rest).evq = s.evq := rfl

@[simp] theorem State.received_now (p : Port) (rest : List Input) : (s.received p rest).now = s.now := rfl

@[simp] theorem State.received_inputs (p : Port) (rest : List Input) : (s.received p rest).inputs = rest := rfl

@[simp] theorem State.received_issuer (p : Port) (rest : List Input) : (s.received p rest).issuer = some p := rfl

@[simp] theorem State.received_reply (p : Port) (rest : List Input) : (s.received p rest).reply = none := rfl

@[simp] theorem State.received_idleTicks (p : Port) (rest : List Input) : (s.received p rest).idleTicks = s.idleTicks := rfl

/-! ### `State.turn` -/

@[simp] theorem State.turn_cfg (rest : List Input) : (s.turn rest).cfg = s.cfg := rfl

@[simp] theorem State.turn_env (rest : List Input) : (s.turn rest).env = s.env := rfl

@[simp] theorem State.turn_codec (rest : List Input) : (s.turn rest).codec = s.codec := rfl

@[simp] theorem State.turn_rb (rest : List Input) : (s.turn rest).rb = s.rb := rfl

@[simp] theorem State.turn_sch (rest : List Input) : (s.turn rest).sch = s.sch := rfl

@[simp] theorem State.turn_evq (rest : List Input) : (s.turn rest).evq = s.evq := rfl

@[simp] theorem State.turn_now (rest : List Input) : (s.turn rest).now = s.now := rfl

@[simp] theorem State.turn_inputs (rest : List Input) : (s.turn rest).inputs = rest := rfl

@[simp] theorem State.turn_issuer (rest : List Input) : (s.turn rest).issuer = none := rfl

@[simp] theorem State.turn_reply (rest : List Input) : (s.turn rest).reply = none := rfl

@[simp] theorem State.turn_idleTicks (rest : List Input) : (s.turn rest).idleTicks = s.idleTicks := rfl

/-! ### `State.advance` -/

@[simp] theorem State.advance_cfg (ms : Nat) : (s.advance ms).cfg = s.cfg := rfl

@[simp] theorem State.advance_env (ms : Nat) : (s.advance ms).env = s.env := rfl

@[simp] theorem State.advance_codec (ms : Nat) : (s.advance ms).codec = s.codec := rfl

@[simp] theorem State.advance_rb (ms : Nat) : (s.advance ms).rb = s.rb := rfl

@[simp] theorem State.advance_sch (ms : Nat) : (s.advance ms).sch = s.sch := rfl

@[simp] theorem State.advance_evq (ms : Nat) : (s.advance ms).evq = s.evq := rfl

@[simp] theorem State.advance_now (ms : Nat) : (s.advance ms).now = s.now + ms := rfl

@[simp] theorem State.advance_inputs (ms : Nat) : (s.advance ms).inputs = s.inputs := rfl

@[simp] theorem State.advance_issuer (ms : Nat) : (s.advance ms).issuer = s.issuer := rfl

@[simp] theorem State.advance_reply (ms : Nat) : (s.advance ms).reply = s.reply := rfl

@[simp] theorem State.advance_idleTicks (ms : Nat) : (s.advance ms).idleTicks = s.idleTicks := rfl

/-! ### `State.idle` -/

@[simp] theorem State.idle_cfg : (s.idle).cfg = s.cfg := rfl

@[simp] theorem State.idle_env : (s.idle).env = s.env := rfl

@[simp] theorem State.idle_codec : (s.idle).codec = s.codec := rfl

@[simp] theorem State.idle_rb : (s.idle).rb = s.rb := rfl

@[simp] theorem State.idle_sch : (s.idle).sch = s.sch := rfl

@[simp] theorem State.idle_evq : (s.idle).evq = s.evq := rfl

@[simp] theorem State.idle_now : (s.idle).now = s.now + (Config.idleAdvance s.idleTicks + 1) := rfl

@[simp] theorem State.idle_inputs : (s.idle).inputs = s.inputs := rfl

@[simp] theorem State.idle_issuer : (s.idle).issuer = s.issuer := rfl

@[simp] theorem State.idle_reply : (s.idle).reply = s.reply := rfl

@[simp] theorem State.idle_idleTicks : (s.idle).idleTicks = s.idleTicks + 1 := rfl

end Sys2Proof.Machine
end

