-- ==== Sys2Proof/Laws/Codec.lean ====
section
/-! SUPPORT. What the codec's shared procedures can do: the error procedure, the emit procedure, one
byte step, a chunk, and the CRC. -/

namespace Sys2Proof.Machine

/-! ### The error procedure and its callers -/

/-- Everything `raise DecodeError` does. -/
theorem raiseDecodeError_eq (cfg : Cfg) (c : Codec) (pos : Nat) (code : ErrCode) :
    raiseDecodeError cfg c pos code =
      ({ c with
          lastOk := false
          errCount := if c.errCount < cfg.maxErrors then c.errCount + 1 else c.errCount },
        if c.errCount < cfg.maxErrors then [.err pos code] else []) := by
  unfold raiseDecodeError
  split <;> simp_all

/-- Everything a failed frame does. -/
theorem failFrame_eq (cfg : Cfg) (c : Codec) (pos : Nat) (code : ErrCode) :
    failFrame cfg c pos code =
      ({ c with
          dstate := .waitSync1
          lastOk := false
          errCount := if c.errCount < cfg.maxErrors then c.errCount + 1 else c.errCount },
        if c.errCount < cfg.maxErrors then [.err pos code] else []) := by
  simp [failFrame, raiseDecodeError_eq]

/-- Everything a byte that is not SYNC1 does in sync search. -/
theorem missSync1_eq (cfg : Cfg) (c : Codec) (pos : Nat) :
    missSync1 cfg c pos =
      if c.lastOk then
        ({ c with
            lastOk := false
            errCount := if c.errCount < cfg.maxErrors then c.errCount + 1 else c.errCount },
          if c.errCount < cfg.maxErrors then [.err pos .syncLost] else [])
      else (c, []) := by
  simp [missSync1, raiseDecodeError_eq]

/-- When `Emit` goes on, and what it leaves. -/
theorem emitMessage_ok {cfg : Cfg} {c c' : Codec} {es : List Event} :
    emitMessage cfg c = .ok (c', es) ↔
      c.len ≤ cfg.msgbufSize ∧
        c' = { c with msgLen := c.len, msgValid := true, lastOk := true, dstate := .waitSync1 } ∧
        es = [.msg c.msgAddr c.len (readBytes .msgbuf c.msgbuf 0 c.len)] := by
  unfold emitMessage msgbufRead
  by_cases h : c.len ≤ cfg.msgbufSize
  · simp only [h, if_true, true_and, Except.ok.injEq, Prod.mk.injEq]
    exact ⟨fun h => ⟨h.1.symm, h.2.symm⟩, fun h => ⟨h.1.symm, h.2.symm⟩⟩
  · simp [h]

/-! ### Chunks -/

@[simp] theorem decodeChunk_nil (cfg : Cfg) (c : Codec) (pos : Nat) :
    decodeChunk cfg c pos [] = .ok (c, []) := rfl

/-- A chunk's first byte, then its rest. -/
theorem decodeChunk_cons_ok {cfg : Cfg} {c c2 : Codec} {pos : Nat} {b : Byte} {bs : Bytes}
    {es : List Event} :
    decodeChunk cfg c pos (b :: bs) = .ok (c2, es) ↔
      ∃ c1 e1 e2, decodeByte cfg c b pos = .ok (c1, e1) ∧
        decodeChunk cfg c1 (pos + 1) bs = .ok (c2, e2) ∧ es = e1 ++ e2 := by
  constructor
  · intro h
    rw [decodeChunk] at h
    split at h
    · cases h
    · rename_i c1 e1 h1
      split at h
      · cases h
      · rename_i c3 e2 h2
        simp only [Except.ok.injEq, Prod.mk.injEq] at h
        exact ⟨c1, e1, e2, h1, by rw [h2, h.1], h.2.symm⟩
  · rintro ⟨c1, e1, e2, h1, h2, rfl⟩
    rw [decodeChunk, h1]
    simp only [h2]

/-- A chunk in two parts: the second part's positions continue the first's. -/
theorem decodeChunk_append_ok {cfg : Cfg} {c c2 : Codec} {pos : Nat} {as bs : Bytes}
    {es : List Event} :
    decodeChunk cfg c pos (as ++ bs) = .ok (c2, es) ↔
      ∃ c1 e1 e2, decodeChunk cfg c pos as = .ok (c1, e1) ∧
        decodeChunk cfg c1 (pos + as.length) bs = .ok (c2, e2) ∧ es = e1 ++ e2 := by
  induction as generalizing c pos es with
  | nil => simp
  | cons a as ih =>
    rw [List.cons_append, decodeChunk_cons_ok]
    constructor
    · rintro ⟨c1, e1, e2, h1, h2, rfl⟩
      obtain ⟨c3, e3, e4, h3, h4, rfl⟩ := ih.1 h2
      refine ⟨c3, e1 ++ e3, e4, decodeChunk_cons_ok.2 ⟨c1, e1, e3, h1, h3, rfl⟩, ?_, by simp⟩
      rw [← h4, List.length_cons, Nat.add_assoc, Nat.add_comm 1]
    · rintro ⟨c1, e1, e2, h1, h2, rfl⟩
      obtain ⟨c3, e3, e4, h3, h4, rfl⟩ := decodeChunk_cons_ok.1 h1
      refine ⟨c3, e3, e4 ++ e2, h3, ih.2 ⟨c1, e4, e2, h4, ?_, rfl⟩, by simp⟩
      rw [← h2, List.length_cons, Nat.add_assoc, Nat.add_comm 1]

/-! ### One byte step -/

/-- The decoder step of the configured variant. -/
theorem decodeByte_eq (cfg : Cfg) (c : Codec) (b : Byte) (pos : Nat) :
    decodeByte cfg c b pos =
      match cfg.protocol with
      | .p5E4D => p5Step cfg c b pos
      | .p7C6E => p7Step cfg c b pos := rfl

/-- What a failed frame leaves alone. -/
theorem failFrame_keeps (cfg : Cfg) (c : Codec) (pos : Nat) (code : ErrCode) :
    (failFrame cfg c pos code).1.resetReq = c.resetReq ∧
      (failFrame cfg c pos code).1.msgbuf = c.msgbuf := by
  simp [failFrame_eq]

/-- What a byte that is not SYNC1 leaves alone in sync search. -/
theorem missSync1_keeps (cfg : Cfg) (c : Codec) (pos : Nat) :
    (missSync1 cfg c pos).1.resetReq = c.resetReq ∧
      (missSync1 cfg c pos).1.msgbuf = c.msgbuf := by
  rw [missSync1_eq]
  split <;> simp

/-- A byte step never touches `reset_req`, and `MSGBUF` only where a payload byte goes. -/
theorem decodeByte_keeps {cfg : Cfg} {c c' : Codec} {b : Byte} {pos : Nat} {es : List Event}
    (h : decodeByte cfg c b pos = .ok (c', es)) :
    c'.resetReq = c.resetReq ∧ (c.dstate ≠ .readPayload → c'.msgbuf = c.msgbuf) := by
  have hf := failFrame_keeps cfg
  have hm := missSync1_keeps cfg
  unfold decodeByte at h
  split at h
  · cases hd : c.dstate <;> simp only [p5Step, hd] at h
    · unfold p5WaitSync1 at h
      split at h
      · cases h; exact ⟨rfl, fun _ => rfl⟩
      · obtain rfl : _ = c' := congrArg Prod.fst (Except.ok.inj h)
        exact ⟨(hm c pos).1, fun _ => (hm c pos).2⟩
    · unfold p5WaitSync2 at h
      split at h <;> cases h
      · exact ⟨rfl, fun _ => rfl⟩
      · exact ⟨(hf c pos _).1, fun _ => (hf c pos _).2⟩
    · cases h; exact ⟨rfl, fun _ => rfl⟩
    · cases h; exact ⟨rfl, fun _ => rfl⟩
    · unfold p5ReadLenLo at h
      simp only at h
      split at h
      · cases h; exact ⟨(hf _ pos _).1, fun _ => (hf _ pos _).2⟩
      · split at h <;> cases h <;> exact ⟨rfl, fun _ => rfl⟩
    · unfold p5ReadPayload at h
      split at h <;> cases h
      exact ⟨rfl, fun h => absurd rfl h⟩
    · unfold p5ReadCrc at h
      split at h
      · obtain ⟨-, rfl, -⟩ := emitMessage_ok.1 h
        exact ⟨rfl, fun _ => rfl⟩
      · cases h; exact ⟨(hf c pos _).1, fun _ => (hf c pos _).2⟩
    · cases h
  · cases hd : c.dstate <;> simp only [p7Step, hd] at h
    · unfold p7WaitSync1 at h
      split at h
      · cases h; exact ⟨rfl, fun _ => rfl⟩
      · obtain rfl : _ = c' := congrArg Prod.fst (Except.ok.inj h)
        exact ⟨(hm c pos).1, fun _ => (hm c pos).2⟩
    · unfold p7WaitSync2 at h
      split at h <;> cases h
      · exact ⟨rfl, fun _ => rfl⟩
      · exact ⟨(hf c pos _).1, fun _ => (hf c pos _).2⟩
    · cases h; exact ⟨rfl, fun _ => rfl⟩
    · cases h
    · cases h
    · unfold p7ReadPayload at h
      split at h
      · split at h
        · obtain ⟨-, rfl, -⟩ := emitMessage_ok.1 h
          exact ⟨rfl, fun h => absurd rfl h⟩
        · cases h; exact ⟨rfl, fun h => absurd rfl h⟩
      · cases h
    · cases h
    · cases h; exact ⟨rfl, fun _ => rfl⟩

/-! ### CRC -/

@[simp] theorem crc8From_nil (c : Byte) : crc8From c [] = c := rfl

@[simp] theorem crc8From_cons (c b : Byte) (s : Bytes) :
    crc8From c (b :: s) = crc8From (crc8Update c b) s := rfl

/-- A CRC over two sequences continues from the first's. -/
theorem crc8From_append (c : Byte) (s t : Bytes) :
    crc8From c (s ++ t) = crc8From (crc8From c s) t := List.foldl_append ..

end Sys2Proof.Machine
end

