-- ==== Sys2Proof/Laws/Decode.lean ====
section
/-! SUPPORT. Laws of the command word's fields and of the operand assembly: what a word is made of,
and when each operand form is accepted. -/

namespace Sys2Proof

/-! ### The fields of a word -/

@[simp] theorem unitOf_cmd32 (u o : BitVec 4) (imm : Imm) : unitOf (cmd32 u o imm) = u.toNat := by
  unfold unitOf cmd32
  have := u.isLt; have := o.isLt; have := imm.isLt
  rw [BitVec.extractLsb'_toNat, BitVec.toNat_append, BitVec.toNat_append,
    Nat.shiftRight_eq_div_pow, ← Nat.shiftLeft_add_eq_or_of_lt o.isLt,
    ← Nat.shiftLeft_add_eq_or_of_lt imm.isLt, Nat.shiftLeft_eq, Nat.shiftLeft_eq]
  omega

@[simp] theorem opOf_cmd32 (u o : BitVec 4) (imm : Imm) : opOf (cmd32 u o imm) = o.toNat := by
  unfold opOf cmd32
  have := u.isLt; have := o.isLt; have := imm.isLt
  rw [BitVec.extractLsb'_toNat, BitVec.toNat_append, BitVec.toNat_append,
    Nat.shiftRight_eq_div_pow, ← Nat.shiftLeft_add_eq_or_of_lt o.isLt,
    ← Nat.shiftLeft_add_eq_or_of_lt imm.isLt, Nat.shiftLeft_eq, Nat.shiftLeft_eq]
  omega

@[simp] theorem immOf_cmd32 (u o : BitVec 4) (imm : Imm) : immOf (cmd32 u o imm) = imm := by
  unfold immOf cmd32
  apply BitVec.eq_of_toNat_eq
  have := u.isLt; have := o.isLt; have := imm.isLt
  rw [BitVec.extractLsb'_toNat, BitVec.toNat_append, BitVec.toNat_append,
    Nat.shiftRight_eq_div_pow, ← Nat.shiftLeft_add_eq_or_of_lt o.isLt,
    ← Nat.shiftLeft_add_eq_or_of_lt imm.isLt, Nat.shiftLeft_eq, Nat.shiftLeft_eq]
  omega

/-- Every word is made of its fields. -/
theorem exists_cmd32 (w : CmdWord) : ∃ u o imm, w = cmd32 u o imm := by
  refine ⟨w.extractLsb' 28 4, w.extractLsb' 24 4, w.extractLsb' 0 24, ?_⟩
  unfold cmd32
  apply BitVec.eq_of_toNat_eq
  have := w.isLt
  rw [BitVec.toNat_append, BitVec.toNat_append,
    ← Nat.shiftLeft_add_eq_or_of_lt (BitVec.isLt _),
    ← Nat.shiftLeft_add_eq_or_of_lt (BitVec.isLt _)]
  simp only [BitVec.extractLsb'_toNat, Nat.shiftLeft_eq, Nat.shiftRight_eq_div_pow]
  omega

theorem cmd32_toNat (u o : BitVec 4) (imm : Imm) :
    (cmd32 u o imm).toNat = u.toNat * 268435456 + o.toNat * 16777216 + imm.toNat := by
  unfold cmd32
  rw [BitVec.toNat_append, BitVec.toNat_append, ← Nat.shiftLeft_add_eq_or_of_lt o.isLt,
    ← Nat.shiftLeft_add_eq_or_of_lt imm.isLt, Nat.shiftLeft_eq, Nat.shiftLeft_eq]
  omega

/-! ### Operand assembly -/

theorem takeNothing_ok {imm : Imm} {data : Bytes} {i j : Instr} :
    takeNothing imm data i = .ok j ↔ imm = 0#24 ∧ data = [] ∧ j = i := by
  unfold takeNothing
  by_cases h1 : imm = 0#24
  · by_cases h2 : data = []
    · simp only [h1, h2, if_true, Except.ok.injEq, true_and]
      exact eq_comm
    · simp [h1, h2]
  · simp [h1]

theorem takeData_ok {imm : Imm} {data : Bytes} {i : Bytes → Instr} {j : Instr} :
    takeData imm data i = .ok j ↔ imm = 0#24 ∧ j = i data := by
  unfold takeData
  by_cases h1 : imm = 0#24
  · simp only [h1, if_true, Except.ok.injEq, true_and]
    exact eq_comm
  · simp [h1]

theorem takeImm_ok {imm : Imm} {data : Bytes} {i : Imm → Instr} {j : Instr} :
    takeImm imm data i = .ok j ↔ data = [] ∧ j = i imm := by
  unfold takeImm
  by_cases h1 : data = []
  · simp only [h1, if_true, Except.ok.injEq, true_and]
    exact eq_comm
  · simp [h1]

theorem takeAddr_ok {imm : Imm} {data : Bytes} {j : Instr} :
    takeAddr imm data = .ok j ↔ ∃ addr : BitVec 16, imm = 0#8 ++ addr ∧ j = .codecEncode addr data := by
  have back : ∀ addr : BitVec 16, (0#8 ++ addr).extractLsb' 16 8 = 0#8 ∧
      (0#8 ++ addr).extractLsb' 0 16 = addr := by
    intro addr
    constructor
    · apply BitVec.eq_of_toNat_eq
      have := addr.isLt
      rw [BitVec.extractLsb'_toNat, BitVec.toNat_append]
      simp [Nat.shiftRight_eq_div_pow]
      omega
    · apply BitVec.eq_of_toNat_eq
      have := addr.isLt
      rw [BitVec.extractLsb'_toNat, BitVec.toNat_append]
      simp
      omega
  unfold takeAddr
  constructor
  · intro h
    split at h
    · rename_i h0
      cases h
      refine ⟨imm.extractLsb' 0 16, ?_, rfl⟩
      have h1 := congrArg BitVec.toNat h0
      apply BitVec.eq_of_toNat_eq
      have := imm.isLt
      rw [BitVec.toNat_append]
      rw [BitVec.extractLsb'_toNat] at h1 ⊢
      simp [Nat.shiftRight_eq_div_pow] at h1 ⊢
      omega
    · cases h
  · rintro ⟨addr, rfl, rfl⟩
    rw [if_pos (back addr).1, (back addr).2]

theorem takeResult_ok {imm : Imm} {data : Bytes} {j : Instr} :
    takeResult imm data = .ok j ↔
      ∃ r, imm = 0#23 ++ BitVec.ofBool r ∧ data = [] ∧ j = .schExecDone r := by
  unfold takeResult
  constructor
  · intro h
    split at h
    · rename_i h0
      split at h
      · cases h
        refine ⟨imm.getLsbD 0, ?_, by assumption, rfl⟩
        have h1 := congrArg BitVec.toNat h0
        apply BitVec.eq_of_toNat_eq
        have := imm.isLt
        rw [BitVec.toNat_append]
        rw [BitVec.extractLsb'_toNat] at h1
        simp [Nat.shiftRight_eq_div_pow] at h1
        rw [BitVec.toNat_ofBool, BitVec.getLsbD, Nat.testBit_zero]
        have h2 : imm.toNat = 0 ∨ imm.toNat = 1 := by omega
        rcases h2 with h2 | h2 <;> simp [h2]
      · cases h
    · cases h
  · rintro ⟨r, rfl, rfl, rfl⟩
    cases r <;> rfl

end Sys2Proof
end

