-- ==== Sys2Proof/Laws/Parse.lean ====
section
/-! SUPPORT. What the text procedures can do: cutting a byte sequence at a byte, lines at LF, tokens
at blanks. -/

namespace Sys2Proof.Machine

/-- A sequence without the byte is not cut. -/
theorem cutAt_of_not_mem {x : Byte} {s : Bytes} (h : x ∉ s) : cutAt x s = none := by
  induction s with
  | nil => rfl
  | cons b s ih =>
    have hb : b ≠ x := by
      rintro rfl
      simp at h
    rw [cutAt, if_neg hb, ih fun e => h (by simp [e])]

/-- A sequence is cut at the first such byte. -/
theorem cutAt_append {x : Byte} {l r : Bytes} (h : x ∉ l) : cutAt x (l ++ x :: r) = some (l, r) := by
  induction l with
  | nil => simp [cutAt]
  | cons b l ih =>
    have hb : b ≠ x := by
      rintro rfl
      simp at h
    rw [List.cons_append, cutAt, if_neg hb, ih fun e => h (by simp [e])]

/-- Everything a cut at a byte can answer. -/
theorem cutAt_eq_some {x : Byte} {s l r : Bytes} :
    cutAt x s = some (l, r) ↔ s = l ++ x :: r ∧ x ∉ l := by
  constructor
  · intro h
    induction s generalizing l with
    | nil => cases h
    | cons b s ih =>
      rw [cutAt] at h
      split at h
      · rename_i hb
        cases h
        simp [hb]
      · rename_i hb
        split at h
        · cases h
        · rename_i hc
          cases h
          obtain ⟨rfl, h2⟩ := ih hc
          exact ⟨rfl, by simp [h2, Ne.symm hb]⟩
  · rintro ⟨rfl, h⟩
    exact cutAt_append h

/-- A cut answers none exactly when the byte does not occur. -/
theorem cutAt_eq_none {x : Byte} {s : Bytes} : cutAt x s = none ↔ x ∉ s := by
  constructor
  · intro h hx
    induction s with
    | nil => cases hx
    | cons b s ih =>
      rw [cutAt] at h
      split at h
      · cases h
      · rename_i hb
        split at h
        · rename_i hc
          exact ih hc (by simpa [Ne.symm hb] using hx)
        · cases h
  · exact cutAt_of_not_mem

/-- A part of a line before its LF. -/
theorem cutLines_append {l : Bytes} (h : lf ∉ l) (cur rest : Bytes) :
    cutLines cur (l ++ lf :: rest) = (cur ++ l) :: cutLines [] rest := by
  induction l generalizing cur with
  | nil => simp [cutLines]
  | cons b l ih =>
    have hb : b ≠ lf := by
      rintro rfl
      simp at h
    rw [List.cons_append, cutLines, if_neg hb, ih fun e => h (by simp [e])]
    simp

/-- A last line without LF. -/
theorem cutLines_end {l : Bytes} (h : lf ∉ l) (cur : Bytes) :
    cutLines cur l = if cur ++ l = [] then [] else [cur ++ l] := by
  induction l generalizing cur with
  | nil => simp [cutLines]
  | cons b l ih =>
    have hb : b ≠ lf := by
      rintro rfl
      simp at h
    rw [cutLines, if_neg hb, ih fun e => h (by simp [e])]
    simp

/-- A part of a token. -/
theorem cutTokens_append {run rest : Bytes} (h : ∀ b ∈ run, isBlank b = false) (cur : Bytes) :
    cutTokens cur (run ++ rest) = cutTokens (cur ++ run) rest := by
  induction run generalizing cur with
  | nil => simp
  | cons b run ih =>
    rw [List.cons_append, cutTokens, h b (by simp), if_neg (by decide),
      ih fun b hb => h b (by simp [hb])]
    simp

end Sys2Proof.Machine
end

