-- ==== Sys2Proof/Laws/PerInstr.lean ====
section
/-! SUPPORT. Two laws of every operation's encoding, one lemma per operation: its command word lies in
its row of the opcode map (spec/30_encoding.md R119), and some port admits it (R120). -/

namespace Sys2Proof.Laws

/-- The command word of the operation selects its row of the opcode map by match and mask (R119). -/
def EncodesInRow.Statement (i : Instr) : Prop :=
  encodeWord i &&& (opcodeRow i).mask = (opcodeRow i).base

/-- The port the model issues the operation at admits it (R120). -/
def AdmittedSomewhere.Statement (i : Instr) : Prop := admits i (admittedPort i) = true

/-! ### The opcode map -/

/-- A mask that covers the unit and the operation leaves their fields and masks the operand. -/
theorem cmd32_and (unit op : BitVec 4) (imm m : Imm) :
    cmd32 unit op imm &&& ((0xF#4 ++ 0xF#4) ++ m) = cmd32 unit op (imm &&& m) := by
  unfold cmd32
  rw [BitVec.and_append, BitVec.and_append, show 0xF#4 = BitVec.allOnes 4 from rfl,
    BitVec.and_allOnes, BitVec.and_allOnes]

/-- A mask that covers the unit and the operation and nothing else. -/
theorem cmd32_and_zero (unit op : BitVec 4) (imm : Imm) :
    cmd32 unit op imm &&& ((0xF#4 ++ 0xF#4) ++ 0#24) = cmd32 unit op 0#24 := by
  rw [cmd32_and, BitVec.and_zero]

theorem EncodesInRow.codecReset :
    EncodesInRow.Statement .codecReset := rfl

theorem EncodesInRow.codecReqReset :
    EncodesInRow.Statement .codecReqReset := rfl

theorem EncodesInRow.codecDecode (chunk : Bytes) :
    EncodesInRow.Statement (.codecDecode chunk) :=
  (rfl : cmd32 0x1#4 0x2#4 0#24 &&& 0xFFFFFFFF#32 = 0x12000000#32)

theorem EncodesInRow.codecEncode (addr : BitVec 16) (payload : Bytes) :
    EncodesInRow.Statement (.codecEncode addr payload) := by
  have h := cmd32_and 0x1#4 0x3#4 (0#8 ++ addr) (0xFF#8 ++ 0#16)
  rw [BitVec.and_append, BitVec.and_zero] at h
  exact h

theorem EncodesInRow.codecMsgCopy :
    EncodesInRow.Statement .codecMsgCopy := rfl

theorem EncodesInRow.rbTryGetWrite :
    EncodesInRow.Statement .rbTryGetWrite := rfl

theorem EncodesInRow.rbFill (off : Imm) (data : Bytes) :
    EncodesInRow.Statement (.rbFill off data) :=
  cmd32_and_zero 0x2#4 0x1#4 off

theorem EncodesInRow.rbCommitWrite (n : Imm) :
    EncodesInRow.Statement (.rbCommitWrite n) :=
  cmd32_and_zero 0x2#4 0x2#4 n

theorem EncodesInRow.rbTryGetRead :
    EncodesInRow.Statement .rbTryGetRead := rfl

theorem EncodesInRow.rbCommitRead :
    EncodesInRow.Statement .rbCommitRead := rfl

theorem EncodesInRow.rbBytesAvailable :
    EncodesInRow.Statement .rbBytesAvailable := rfl

theorem EncodesInRow.rbReadHwm :
    EncodesInRow.Statement .rbReadHwm := rfl

theorem EncodesInRow.schLoad (block : Bytes) :
    EncodesInRow.Statement (.schLoad block) :=
  (rfl : cmd32 0x3#4 0x0#4 0#24 &&& 0xFFFFFFFF#32 = 0x30000000#32)

theorem EncodesInRow.schStart (lineNum : Imm) :
    EncodesInRow.Statement (.schStart lineNum) :=
  cmd32_and_zero 0x3#4 0x1#4 lineNum

theorem EncodesInRow.schStep (lineNum : Imm) :
    EncodesInRow.Statement (.schStep lineNum) :=
  cmd32_and_zero 0x3#4 0x2#4 lineNum

theorem EncodesInRow.schStop :
    EncodesInRow.Statement .schStop := rfl

theorem EncodesInRow.schStopNext :
    EncodesInRow.Statement .schStopNext := rfl

theorem EncodesInRow.schStatus :
    EncodesInRow.Statement .schStatus := rfl

theorem EncodesInRow.schExecDone (r : Bool) :
    EncodesInRow.Statement (.schExecDone r) := by
  cases r <;> rfl

/-! ### Port admission -/

theorem AdmittedSomewhere.codecReset :
    AdmittedSomewhere.Statement .codecReset := rfl

theorem AdmittedSomewhere.codecReqReset :
    AdmittedSomewhere.Statement .codecReqReset := rfl

theorem AdmittedSomewhere.codecDecode (chunk : Bytes) :
    AdmittedSomewhere.Statement (.codecDecode chunk) := rfl

theorem AdmittedSomewhere.codecEncode (addr : BitVec 16) (payload : Bytes) :
    AdmittedSomewhere.Statement (.codecEncode addr payload) := rfl

theorem AdmittedSomewhere.codecMsgCopy :
    AdmittedSomewhere.Statement .codecMsgCopy := rfl

theorem AdmittedSomewhere.rbTryGetWrite :
    AdmittedSomewhere.Statement .rbTryGetWrite := rfl

theorem AdmittedSomewhere.rbFill (off : Imm) (data : Bytes) :
    AdmittedSomewhere.Statement (.rbFill off data) := rfl

theorem AdmittedSomewhere.rbCommitWrite (n : Imm) :
    AdmittedSomewhere.Statement (.rbCommitWrite n) := rfl

theorem AdmittedSomewhere.rbTryGetRead :
    AdmittedSomewhere.Statement .rbTryGetRead := rfl

theorem AdmittedSomewhere.rbCommitRead :
    AdmittedSomewhere.Statement .rbCommitRead := rfl

theorem AdmittedSomewhere.rbBytesAvailable :
    AdmittedSomewhere.Statement .rbBytesAvailable := rfl

theorem AdmittedSomewhere.rbReadHwm :
    AdmittedSomewhere.Statement .rbReadHwm := rfl

theorem AdmittedSomewhere.schLoad (block : Bytes) :
    AdmittedSomewhere.Statement (.schLoad block) := rfl

theorem AdmittedSomewhere.schStart (lineNum : Imm) :
    AdmittedSomewhere.Statement (.schStart lineNum) := rfl

theorem AdmittedSomewhere.schStep (lineNum : Imm) :
    AdmittedSomewhere.Statement (.schStep lineNum) := rfl

theorem AdmittedSomewhere.schStop :
    AdmittedSomewhere.Statement .schStop := rfl

theorem AdmittedSomewhere.schStopNext :
    AdmittedSomewhere.Statement .schStopNext := rfl

theorem AdmittedSomewhere.schStatus :
    AdmittedSomewhere.Statement .schStatus := rfl

theorem AdmittedSomewhere.schExecDone (r : Bool) :
    AdmittedSomewhere.Statement (.schExecDone r) := rfl

end Sys2Proof.Laws
end

