-- ==== Sys2Proof/Laws/Ring.lean ====
section
/-! SUPPORT. What the ring buffer's shared operations can do: an entry of `used`, and what the two
commits leave in every register. -/

namespace Sys2Proof.Machine

/-- An entry of `used` is there or the machine stops. -/
theorem usedAt_ok {r : Rb} {i n : Nat} : usedAt r i = .ok n ↔ r.used[i]? = some n := by
  unfold usedAt
  cases r.used[i]? <;> simp

variable (cfg : Cfg) (r : Rb) (n : Nat)

/-! ### `commitWrite` (41_ringbuffer.md R194) -/

@[simp] theorem commitWrite_slots : (commitWrite cfg r n).slots = r.slots := rfl

@[simp] theorem commitWrite_used : (commitWrite cfg r n).used = r.used.set r.wr n := rfl

@[simp] theorem commitWrite_wr : (commitWrite cfg r n).wr = (r.wr + 1) % cfg.rbSlots := rfl

@[simp] theorem commitWrite_rd : (commitWrite cfg r n).rd = r.rd := rfl

@[simp] theorem commitWrite_count : (commitWrite cfg r n).count = r.count + 1 := rfl

@[simp] theorem commitWrite_bytes : (commitWrite cfg r n).bytes = r.bytes + n := rfl

@[simp] theorem commitWrite_hwm : (commitWrite cfg r n).hwm = max r.hwm (r.bytes + n) := rfl

@[simp] theorem commitWrite_wrHeld : (commitWrite cfg r n).wrHeld = false := rfl

@[simp] theorem commitWrite_rdHeld : (commitWrite cfg r n).rdHeld = r.rdHeld := rfl

/-! ### `commitRead` (41_ringbuffer.md R196) -/

@[simp] theorem commitRead_slots : (commitRead cfg r n).slots = r.slots := rfl

@[simp] theorem commitRead_used : (commitRead cfg r n).used = r.used := rfl

@[simp] theorem commitRead_wr : (commitRead cfg r n).wr = r.wr := rfl

@[simp] theorem commitRead_rd : (commitRead cfg r n).rd = (r.rd + 1) % cfg.rbSlots := rfl

@[simp] theorem commitRead_count : (commitRead cfg r n).count = r.count - 1 := rfl

@[simp] theorem commitRead_bytes : (commitRead cfg r n).bytes = r.bytes - n := rfl

@[simp] theorem commitRead_hwm : (commitRead cfg r n).hwm = r.hwm := rfl

@[simp] theorem commitRead_wrHeld : (commitRead cfg r n).wrHeld = r.wrHeld := rfl

@[simp] theorem commitRead_rdHeld : (commitRead cfg r n).rdHeld = false := rfl

end Sys2Proof.Machine
end

