-- ==== Sys2Proof/Laws/Scheduler.lean ====
section
/-! SUPPORT. What the scheduler's shared procedures can do: finding a command, the absolute times,
the line table's updates, the exit sequence, the completions and the executor's steps. -/

namespace Sys2Proof.Machine

/-! ### Finding a command (42_scheduler.md R212) -/

/-- Whether a command stands at an index. -/
def isCmdAt (ls : List Line) (i : Nat) : Bool := (ls[i]?.map Line.isCmd).getD false

theorem isCmdAt_iff {ls : List Line} {i : Nat} :
    isCmdAt ls i = true ↔ ∃ l, ls[i]? = some l ∧ l.isCmd = true := by
  unfold isCmdAt
  cases h : ls[i]? <;> simp

theorem isCmdAt_lt {ls : List Line} {i : Nat} (h : isCmdAt ls i = true) : i < ls.length := by
  obtain ⟨l, hl, -⟩ := isCmdAt_iff.1 h
  exact (List.getElem?_eq_some_iff.1 hl).1

/-- The search answers the least command at or after `k`. -/
theorem firstCmdFrom_some {ls : List Line} {i k p : Nat} :
    firstCmdFrom i k ls = some p ↔
      i ≤ p ∧ k ≤ p ∧ isCmdAt ls (p - i) = true ∧
        ∀ j, i ≤ j → k ≤ j → j < p → isCmdAt ls (j - i) = false := by
  induction ls generalizing i with
  | nil => simp [firstCmdFrom, isCmdAt]
  | cons l ls ih =>
    have shift : ∀ j, i + 1 ≤ j → isCmdAt (l :: ls) (j - i) = isCmdAt ls (j - (i + 1)) := by
      intro j hj
      rw [show j - i = (j - (i + 1)) + 1 by omega]
      simp [isCmdAt]
    have here : isCmdAt (l :: ls) 0 = l.isCmd := by simp [isCmdAt]
    unfold firstCmdFrom
    split
    · rename_i h
      simp only [Bool.and_eq_true, decide_eq_true_eq] at h
      constructor
      · intro hp
        cases hp
        refine ⟨le_refl _, h.1, ?_, fun j h1 _ h3 => by omega⟩
        rw [Nat.sub_self, here]; exact h.2
      · rintro ⟨h1, -, -, h4⟩
        rcases Nat.lt_or_ge i p with hlt | hge
        · have := h4 i (le_refl _) h.1 hlt
          rw [Nat.sub_self, here, h.2] at this
          cases this
        · rw [show p = i by omega]
    · rename_i h
      rw [ih]
      constructor
      · rintro ⟨h1, h2, h3, h4⟩
        refine ⟨by omega, h2, by rw [shift p h1]; exact h3, ?_⟩
        intro j hj1 hj2 hj3
        rcases Nat.lt_or_ge i j with hlt | hge
        · rw [shift j hlt]; exact h4 j hlt hj2 hj3
        · have : j = i := by omega
          subst this
          rw [Nat.sub_self, here]
          simpa [hj2] using h
      · rintro ⟨h1, h2, h3, h4⟩
        have hne : p ≠ i := by
          rintro rfl
          rw [Nat.sub_self, here] at h3
          exact h (by simp [h2, h3])
        have hlt : i + 1 ≤ p := by omega
        refine ⟨hlt, h2, by rw [← shift p hlt]; exact h3, ?_⟩
        intro j hj1 hj2 hj3
        rw [← shift j hj1]; exact h4 j (by omega) hj2 hj3

/-- `first_cmd_at_or_after(k)` is the least command index from `k` on. -/
theorem firstCmdAtOrAfter_some {ls : List Line} {k p : Nat} :
    firstCmdAtOrAfter ls k = some p ↔
      k ≤ p ∧ isCmdAt ls p = true ∧ ∀ j, k ≤ j → j < p → isCmdAt ls j = false := by
  unfold firstCmdAtOrAfter
  rw [firstCmdFrom_some]
  simp

/-- The search answers none exactly when no command is at or after `k`. -/
theorem firstCmdAtOrAfter_none {ls : List Line} {k : Nat} :
    firstCmdAtOrAfter ls k = none ↔ ∀ j, k ≤ j → isCmdAt ls j = false := by
  constructor
  · intro h
    by_contra hc
    push Not at hc
    have hex : ∃ j, k ≤ j ∧ isCmdAt ls j = true := by
      obtain ⟨j, h1, h2⟩ := hc
      exact ⟨j, h1, by simpa using h2⟩
    classical
    have hf := Nat.find_spec hex
    have : firstCmdAtOrAfter ls k = some (Nat.find hex) := by
      refine firstCmdAtOrAfter_some.2 ⟨hf.1, hf.2, ?_⟩
      intro j h1 h2
      have := Nat.find_min hex h2
      simpa [h1] using this
    rw [h] at this
    cases this
  · intro h
    cases hp : firstCmdAtOrAfter ls k with
    | none => rfl
    | some p =>
      obtain ⟨h1, h2, -⟩ := firstCmdAtOrAfter_some.1 hp
      rw [h p h1] at h2
      cases h2

theorem firstCmdFrom_congr {ls ls' : List Line} (h : ls.map Line.isCmd = ls'.map Line.isCmd)
    (i k : Nat) : firstCmdFrom i k ls = firstCmdFrom i k ls' := by
  induction ls generalizing ls' i with
  | nil =>
    cases ls' with
    | nil => rfl
    | cons l' ls' => simp at h
  | cons l ls ih =>
    cases ls' with
    | nil => simp at h
    | cons l' ls' =>
      simp only [List.map_cons, List.cons.injEq] at h
      rw [firstCmdFrom, firstCmdFrom, h.1, ih h.2]

/-- The search reads the `is_cmd` flags only. -/
theorem firstCmdAtOrAfter_congr {ls ls' : List Line}
    (h : ls.map Line.isCmd = ls'.map Line.isCmd) (k : Nat) :
    firstCmdAtOrAfter ls k = firstCmdAtOrAfter ls' k := firstCmdFrom_congr h 0 k

/-! ### The line table -/

/-- Everything an update of one line's delay does to the table. -/
theorem setDelay_getElem? (ls : List Line) (i d j : Nat) :
    (setDelay ls i d)[j]? =
      (ls[j]?).map (fun l => if i = j then { l with delay := d } else l) := by
  unfold setDelay
  rw [List.getElem?_modify]
  by_cases h : i = j <;> simp [h]

@[simp] theorem setDelay_length (ls : List Line) (i d : Nat) :
    (setDelay ls i d).length = ls.length := by simp [setDelay]

@[simp] theorem setDelay_isCmd (ls : List Line) (i d : Nat) :
    (setDelay ls i d).map Line.isCmd = ls.map Line.isCmd := by
  apply List.ext_getElem?
  intro j
  rw [List.getElem?_map, List.getElem?_map, setDelay_getElem?, Option.map_map]
  congr 1
  funext l
  simp only [Function.comp]
  split <;> rfl

/-- Everything `ComputeAbs` does to the table: the absolute times and nothing else. -/
theorem absTimesFrom_spec (ls : List Line) (i k t : Nat) :
    (absTimesFrom i k t ls).map (fun l => { l with absTime := 0 }) =
      ls.map (fun l => { l with absTime := 0 }) := by
  induction ls generalizing i t with
  | nil => rfl
  | cons l ls ih =>
    unfold absTimesFrom
    split <;> simp [ih]

@[simp] theorem computeAbs_length (ls : List Line) (t k : Nat) :
    (computeAbs ls t k).length = ls.length := by
  have := congrArg List.length (absTimesFrom_spec ls 0 k t)
  simpa [computeAbs] using this

/-- A line of the table after `ComputeAbs` is the line before but for its absolute time. -/
theorem computeAbs_getElem? (ls : List Line) (t k j : Nat) :
    ∃ a : Nat → Nat, (computeAbs ls t k)[j]? =
      (ls[j]?).map (fun l => { l with absTime := a l.absTime }) := by
  have h := congrArg (fun m => m[j]?) (absTimesFrom_spec ls 0 k t)
  simp only [List.getElem?_map] at h
  unfold computeAbs
  cases h1 : (absTimesFrom 0 k t ls)[j]? with
  | none =>
    cases h2 : ls[j]? with
    | none => exact ⟨id, rfl⟩
    | some l => simp [h1, h2] at h
  | some l1 =>
    cases h2 : ls[j]? with
    | none => simp [h1, h2] at h
    | some l2 =>
      refine ⟨fun _ => l1.absTime, ?_⟩
      simp only [h1, h2, Option.map_some, Option.some.injEq] at h ⊢
      cases l1
      cases l2
      simp_all

@[simp] theorem computeAbs_isCmd (ls : List Line) (t k : Nat) :
    (computeAbs ls t k).map Line.isCmd = ls.map Line.isCmd := by
  apply List.ext_getElem?
  intro j
  obtain ⟨a, ha⟩ := computeAbs_getElem? ls t k j
  rw [List.getElem?_map, List.getElem?_map, ha, Option.map_map]
  rfl

theorem lineAt_ok {x : Sch} {i : Nat} {l : Line} :
    lineAt x i = .ok l ↔ x.lines[i]? = some l := by
  unfold lineAt
  cases x.lines[i]? <;> simp

theorem lineAt_error {x : Sch} {i : Nat} {f : Fault} :
    lineAt x i = .error f ↔ x.lines[i]? = none ∧ f = .lineIndex := by
  unfold lineAt
  cases x.lines[i]? <;> simp [eq_comm]

/-! ### The procedures -/

/-- Everything the first act of an exit does. -/
theorem endRun_eq (x : Sch) :
    endRun x =
      ({ x with schState := if x.schState = .running then .loaded else x.schState },
        if x.schState = .running then [.stateChanged .loaded] else []) := by
  unfold endRun setState
  split <;> rfl

/-- When `ExitRun` goes on, and everything it does (R232). -/
theorem exitRun_ok {x x' : Sch} {es : List Event} :
    exitRun x = .ok (x', es) ↔
      ∃ l, x.lines[x.pos]? = some l ∧
        x' = { x with
          schState := if x.schState = .running then .loaded else x.schState
          lines := setDelay x.lines x.pos l.origDelay
          pos := (exitPos x).1
          stopNext := false
          finished := false
          xphase := .idle
          callout := .none
          slice := 0 } ∧
        es = (if x.schState = .running then [.stateChanged .loaded] else []) ++ (exitPos x).2 ++
          [.stopped x.filename] ++ (if x.finished then [.finished x.filename] else []) := by
  unfold exitRun
  rw [endRun_eq]
  cases h : lineAt x x.pos with
  | error f =>
    obtain ⟨h1, -⟩ := lineAt_error.1 h
    simp [h1]
  | ok l =>
    rw [lineAt_ok.1 h]
    simp only [Except.ok.injEq, Prod.mk.injEq, Option.some.injEq, exists_eq_left']
    exact ⟨fun h => ⟨h.1.symm, h.2.symm⟩, fun h => ⟨h.1.symm, h.2.symm⟩⟩

/-- The position after an exit is the one before or the next command after the issuer. -/
theorem exitPos_cases (x : Sch) :
    exitPos x = (x.pos, []) ∨
      ∃ q, x.stopNext = true ∧ nextCmdAfter x.lines x.stopIssuer = some q ∧ q ≠ x.pos ∧
        exitPos x = (q, [.nextCommand q]) := by
  unfold exitPos
  split
  · rename_i h
    split
    · rename_i q hq
      split
      · exact .inl rfl
      · exact .inr ⟨q, h, hq, by assumption, rfl⟩
    · exact .inl rfl
  · exact .inl rfl

/-- Without `stop_next`, or with no command after the issuer, an exit leaves the position. -/
theorem exitPos_stays {x : Sch} (h : x.stopNext = false ∨ nextCmdAfter x.lines x.stopIssuer = none) :
    exitPos x = (x.pos, []) := by
  obtain h1 | ⟨q, h2, h3, -, -⟩ := exitPos_cases x
  · exact h1
  · rw [h2, h3] at h
    exact absurd h (by simp)

/-- Every exit is announced (R232). -/
theorem exitRun_stopped {x x' : Sch} {es : List Event} (h : exitRun x = .ok (x', es)) :
    .stopped x.filename ∈ es := by
  obtain ⟨l, -, -, rfl⟩ := exitRun_ok.1 h
  simp

/-- When `RunDone` goes on, and everything it does (R231). -/
theorem runDone_ok {x x' : Sch} {r : Bool} {es : List Event} :
    runDone x r = .ok (x', es) ↔
      ∃ l, x.lines[x.calloutLine]? = some l ∧
        ((∃ q, nextCmdAfter x.lines x.calloutLine = some q ∧
            x' = { x with
              lines := setDelay x.lines x.calloutLine l.origDelay, callout := .none, pos := q,
              xphase := .head } ∧
            es = execError r x.calloutLine ++ [.nextCommand q]) ∨
          (nextCmdAfter x.lines x.calloutLine = none ∧
            ∃ es', exitRun { x with
                lines := setDelay x.lines x.calloutLine l.origDelay, callout := .none,
                finished := true } = .ok (x', es') ∧
              es = execError r x.calloutLine ++ es')) := by
  unfold runDone
  cases h : lineAt x x.calloutLine with
  | error f =>
    obtain ⟨h1, -⟩ := lineAt_error.1 h
    simp [h1]
  | ok l =>
    rw [lineAt_ok.1 h]
    simp only [Option.some.injEq, exists_eq_left']
    cases hq : nextCmdAfter x.lines x.calloutLine with
    | some q =>
      simp only [Except.ok.injEq, Prod.mk.injEq, Option.some.injEq, exists_eq_left', reduceCtorEq,
        false_and, or_false]
      exact ⟨fun h => ⟨h.1.symm, h.2.symm⟩, fun h => ⟨h.1.symm, h.2.symm⟩⟩
    | none =>
      simp only [reduceCtorEq, false_and, exists_false, false_or, true_and]
      cases he : exitRun { x with
          lines := setDelay x.lines x.calloutLine l.origDelay, callout := .none,
          finished := true } with
      | error f => simp
      | ok p =>
        simp only [Except.ok.injEq]
        constructor
        · intro h
          cases h
          exact ⟨p.2, rfl, rfl⟩
        · rintro ⟨es', rfl, rfl⟩
          rfl

/-- When `HEAD` goes on, and everything it does (R229). -/
theorem headStep_ok {now : Nat} {x x' : Sch} {es : List Event} :
    headStep now x = .ok (x', es) ↔
      (x.schState ≠ .running ∧ exitRun x = .ok (x', es)) ∨
        (x.schState = .running ∧ ∃ l, x.lines[x.pos]? = some l ∧
          x' = { x with
            slice := min l.delay Config.sliceMs, wake := now + min l.delay Config.sliceMs,
            xphase := .sleep } ∧ es = []) := by
  unfold headStep
  by_cases h : x.schState = .running
  · simp only [h, ne_eq, not_true_eq_false, if_false, false_and, true_and, false_or]
    cases hl : lineAt x x.pos with
    | error f =>
      obtain ⟨h1, -⟩ := lineAt_error.1 hl
      simp [h1]
    | ok l =>
      rw [lineAt_ok.1 hl]
      simp only [Except.ok.injEq, Prod.mk.injEq, Option.some.injEq, exists_eq_left']
      constructor
      · rintro ⟨rfl, rfl⟩
        exact ⟨by cases x; simp_all, rfl⟩
      · rintro ⟨rfl, rfl⟩
        exact ⟨by cases x; simp_all, rfl⟩
  · simp [h]

/-- When `WAKE` goes on, and everything it does (R230). -/
theorem wakeStep_ok {stopCheck : Bool} {x x' : Sch} {es : List Event} :
    wakeStep stopCheck x = .ok (x', es) ↔
      ((stopCheck = true ∧ x.schState ≠ .running) ∧ exitRun x = .ok (x', es)) ∨
        (¬(stopCheck = true ∧ x.schState ≠ .running) ∧ ∃ l, x.lines[x.pos]? = some l ∧
          ((l.delay - x.slice = 0 ∧
              x' = { x with
                lines := setDelay x.lines x.pos 0, callout := .run, calloutLine := x.pos,
                xphase := .execWait } ∧
              es = [execReqOf x.pos l]) ∨
            (l.delay - x.slice ≠ 0 ∧
              x' = { x with
                lines := setDelay x.lines x.pos (l.delay - x.slice), xphase := .head } ∧
              es = []))) := by
  unfold wakeStep
  by_cases h : stopCheck = true ∧ x.schState ≠ .running
  · rw [if_pos h]
    exact ⟨fun e => .inl ⟨h, e⟩, fun e => e.elim (fun e => e.2) fun e => absurd h e.1⟩
  · rw [if_neg h]
    have drop : ∀ p q : Prop, ((stopCheck = true ∧ x.schState ≠ .running) ∧ p ∨
        ¬(stopCheck = true ∧ x.schState ≠ .running) ∧ q) ↔ q := fun p q =>
      ⟨fun e => e.elim (fun e => absurd e.1 h) fun e => e.2, fun e => .inr ⟨h, e⟩⟩
    rw [drop]
    cases hl : lineAt x x.pos with
    | error f =>
      obtain ⟨h1, -⟩ := lineAt_error.1 hl
      simp [h1]
    | ok l =>
      rw [lineAt_ok.1 hl]
      simp only [Option.some.injEq, exists_eq_left']
      by_cases hd : l.delay - x.slice = 0
      · rw [if_pos hd]
        simp only [hd, Except.ok.injEq, Prod.mk.injEq, true_and, ne_eq, not_true_eq_false,
          false_and, or_false]
        exact ⟨fun h => ⟨h.1.symm, h.2.symm⟩, fun h => ⟨h.1.symm, h.2.symm⟩⟩
      · rw [if_neg hd]
        simp only [hd, Except.ok.injEq, Prod.mk.injEq, ne_eq, not_false_eq_true, true_and,
          false_and, false_or]
        exact ⟨fun h => ⟨h.1.symm, h.2.symm⟩, fun h => ⟨h.1.symm, h.2.symm⟩⟩

end Sys2Proof.Machine
end

