-- ==== Sys2Proof/Laws/Step.lean ====
section
/-! SUPPORT. What one step can do: the four kinds of step, and for each meaning every next state it
can answer. -/

namespace Sys2Proof.Machine

/-! ### Checked results -/

/-- An operation over a checked result goes on only with a result. -/
theorem orFault_next {α : Type} {r : Except Fault α} {k : α → Out} {t : State} :
    orFault r k = .next t ↔ ∃ a, r = .ok a ∧ k a = .next t := by
  unfold orFault
  cases r <;> simp

theorem orFault_fault {α : Type} {r : Except Fault α} {k : α → Out} {f : Fault} :
    orFault r k = .fault f ↔ r = .error f ∨ ∃ a, r = .ok a ∧ k a = .fault f := by
  unfold orFault
  cases r <;> simp

theorem done_next {s t : State} {r : Reply} : s.done r = .next t ↔ t = s.answer r := by
  unfold State.done
  simp [eq_comm]

/-! ### The four kinds of step -/

/-- No agent has anything scheduled. -/
theorem step_nil {s : State} (h : s.inputs = []) : step s = idleStep (s.turn []) := by
  unfold step
  rw [h]
  rfl

/-- A transaction is next. -/
theorem step_op {s : State} {p : Port} {w : CmdWord} {data : Bytes} {rest : List Input}
    (h : s.inputs = .op p w data :: rest) :
    step s = transact p w data (s.received p rest) := by
  unfold step
  rw [h]
  rfl

/-- The EXECUTOR's turn is next. -/
theorem step_executor {s : State} {rest : List Input} (h : s.inputs = .executor :: rest) :
    step s = executorTurn (s.turn rest) := by
  unfold step
  rw [h]
  rfl

/-- An advance of TIME is next. -/
theorem step_time {s : State} {ms : Nat} {rest : List Input} (h : s.inputs = .time ms :: rest) :
    step s = .next ((s.turn rest).advance ms) := by
  unfold step
  rw [h]
  rfl

/-- Everything a transaction can answer. -/
theorem transact_next {p : Port} {w : CmdWord} {data : Bytes} {s t : State}
    (h : transact p w data s = .next t) :
    data.length < dataBlockBound ∧
      ((∃ i, decode w data = .ok i ∧ admits i p = true ∧ exec i s = .next t) ∨
        ((∃ e, decodeAt p w data = .error e) ∧ t = s.answer .illegal)) := by
  unfold transact at h
  split at h
  · rename_i hl
    refine ⟨hl, ?_⟩
    unfold decodeAt at h ⊢
    cases hd : decode w data with
    | error e =>
      simp only [hd] at h
      exact .inr ⟨⟨e, rfl⟩, done_next.1 h⟩
    | ok i =>
      cases ha : admits i p with
      | true =>
        simp only [hd, ha, if_true] at h
        exact .inl ⟨i, rfl, ha, h⟩
      | false =>
        simp only [hd, ha] at h
        exact .inr ⟨⟨.portNotAdmitted, by simp [ha]⟩, done_next.1 h⟩
  · cases h

/-- Everything the EXECUTOR's turn can answer. -/
theorem executorTurn_next {s t : State} :
    executorTurn s = .next t ↔
      ∃ x es, executorStep s.cfg s.now s.sch = .ok (x, es) ∧ t = (s.withSch x).emit es := by
  unfold executorTurn
  rw [orFault_next]
  constructor
  · rintro ⟨⟨x, es⟩, h1, h2⟩
    exact ⟨x, es, h1, by simpa [eq_comm] using h2⟩
  · rintro ⟨x, es, h1, rfl⟩
    exact ⟨(x, es), h1, rfl⟩

/-- Everything an executor step can do: nothing where none is enabled, else HEAD or WAKE. -/
theorem executorStep_ok {cfg : Cfg} {now : Nat} {x x' : Sch} {es : List Event} :
    executorStep cfg now x = .ok (x', es) ↔
      (executorEnabled now x = false ∧ x' = x ∧ es = []) ∨
        (x.xphase = .head ∧ headStep now x = .ok (x', es)) ∨
        (x.xphase = .sleep ∧ x.wake ≤ now ∧
          wakeStep cfg.stopCheckAfterSleep x = .ok (x', es)) := by
  unfold executorStep
  cases hp : x.xphase
  · simp [executorEnabled, hp, eq_comm]
  · simp [executorEnabled, hp]
  · by_cases hw : x.wake ≤ now <;> simp [executorEnabled, hp, hw, eq_comm]
  · simp [executorEnabled, hp, eq_comm]

/-- Everything one step can do, by what is scheduled. -/
theorem step_next {s t : State} (h : step s = .next t) :
    (∃ p w data rest i, s.inputs = .op p w data :: rest ∧ data.length < dataBlockBound ∧
        decode w data = .ok i ∧ admits i p = true ∧ exec i (s.received p rest) = .next t) ∨
      (∃ p w data rest, s.inputs = .op p w data :: rest ∧ data.length < dataBlockBound ∧
        (∃ e, decodeAt p w data = .error e) ∧ t = (s.received p rest).answer .illegal) ∨
      (∃ rest x es, (s.inputs = .executor :: rest ∨ s.inputs = [] ∧ rest = []) ∧
        executorStep s.cfg s.now s.sch = .ok (x, es) ∧
        t = ((s.turn rest).withSch x).emit es) ∨
      (∃ rest ms, s.inputs = .time ms :: rest ∧ t = (s.turn rest).advance ms) ∨
      (s.inputs = [] ∧ executorEnabled s.now s.sch = false ∧ t = (s.turn []).idle) := by
  cases hi : s.inputs with
  | nil =>
    rw [step_nil hi, idleStep] at h
    split at h
    · obtain ⟨x, es, h1, h2⟩ := executorTurn_next.1 h
      exact .inr (.inr (.inl ⟨[], x, es, .inr ⟨rfl, rfl⟩, h1, h2⟩))
    · rename_i he
      refine .inr (.inr (.inr (.inr ⟨rfl, by simpa using he, ?_⟩)))
      simpa [eq_comm] using h
  | cons a rest =>
    cases a with
    | op p w data =>
      rw [step_op hi] at h
      obtain ⟨hl, ⟨i, h1, h2, h3⟩ | ⟨h1, h2⟩⟩ := transact_next h
      · exact .inl ⟨p, w, data, rest, i, rfl, hl, h1, h2, h3⟩
      · exact .inr (.inl ⟨p, w, data, rest, rfl, hl, h1, h2⟩)
    | executor =>
      rw [step_executor hi] at h
      obtain ⟨x, es, h1, h2⟩ := executorTurn_next.1 h
      exact .inr (.inr (.inl ⟨rest, x, es, .inl rfl, h1, h2⟩))
    | time ms =>
      rw [step_time hi] at h
      exact .inr (.inr (.inr (.inl ⟨rest, ms, rfl, by simpa [eq_comm] using h⟩)))

end Sys2Proof.Machine
end

