-- ==== Sys2Proof/Laws/Run.lean ====
section
/-! SUPPORT. Runs of several steps: the first step of a run, and a run cut in two. -/

namespace Sys2Proof.Machine

theorem core_run_zero (s : State) : core.run 0 s = .next s := rfl

/-- A run whose first step goes on is that step and the rest of the run. -/
theorem core_run_succ {n : Nat} {s t : State} (h : step s = .next t) :
    core.run (n + 1) s = core.run n t := by
  have h1 := Host.Core.run.eq_2 core s n
  have h2 : core.step s = .next t := h
  rw [h2] at h1
  exact h1

/-- A run is its first part and then its second. -/
theorem core_run_add {a b : Nat} {s t : State} (h : core.run a s = .next t) :
    core.run (a + b) s = core.run b t := by
  induction a generalizing s with
  | zero =>
    cases h
    rw [Nat.zero_add]
  | succ a ih =>
    have h0 := (Host.Core.run.eq_2 core s a).symm.trans h
    rw [show a + 1 + b = (a + b).succ by omega, Host.Core.run.eq_2 core s (a + b)]
    cases hs : core.step s with
    | next u =>
      rw [hs] at h0
      exact ih h0
    | fault f =>
      rw [hs] at h0
      cases h0
    | refused r =>
      rw [hs] at h0
      cases h0

end Sys2Proof.Machine
end

