-- ==== Sys2Proof/Machine/Agents.lean ====
section
/-! DEFINITION. What the agents around the block issue: the pseudo-operations (spec/30_encoding.md
R124) and the programs of the PRODUCER, the CONSUMER and the HOST (spec/60_exceptions.md R303 to
R305), each as the operation an agent issues next from the replies it has had so far, oldest first.
Each operation is a separate step, so none of these is atomic (R124). -/

namespace Sys2Proof.Machine

/-- The pseudo-operations of R124. -/
inductive Pseudo where
  /-- `CODEC.DECODE_BYTE b`. -/
  | codecDecodeByte (b : Byte)
  /-- `RB.PUT [d]`. -/
  | rbPut (d : Bytes)
  /-- `RB.GET`. -/
  | rbGet
  /-- `PUMP.STEP`. -/
  | pumpStep
  /-- `SCH.EXEC_OK`. -/
  | schExecOk
  /-- `SCH.EXEC_FAIL`. -/
  | schExecFail
deriving DecidableEq, Repr

/-- The operation a pseudo-operation issues next; none when it has issued all it expands to. A
length `|d|` of 2^24 or more fits no `IMM`, so `RB.COMMIT_WRITE |d|` has no encoding: `RB.PUT` then
issues no commit (DESIGN CHOICE, assumption log 17). -/
def Pseudo.issue : Pseudo → List Reply → Option Instr
  | .codecDecodeByte b, [] => some (.codecDecode [b])
  | .rbPut _, [] => some .rbTryGetWrite
  | .rbPut d, [.ok _] => some (.rbFill 0#24 d)
  | .rbPut d, [.ok _, _] =>
    if d.length < 16777216 then some (.rbCommitWrite (BitVec.ofNat 24 d.length)) else none
  | .rbGet, [] => some .rbTryGetRead
  | .rbGet, [.ok _] => some .rbCommitRead
  | .pumpStep, [] => some .rbTryGetRead
  | .pumpStep, [.ok (.slotData _ _ data)] => some (.codecDecode data)
  | .pumpStep, [.ok (.slotData _ _ _), _] => some .rbCommitRead
  | .schExecOk, [] => some (.schExecDone true)
  | .schExecFail, [] => some (.schExecDone false)
  | _, _ => none

/-- One PRODUCER iteration (R303) with `avail` bytes on the transport: once there are `MIN_READ` of
them, the bytes one read returns are put into a slot. The read returns the first `got` bytes, as
far as they are available and at most `SLOT_SIZE`; `got` is the transport's, so every count the
rule allows is an iteration. -/
def producerIssue (env : Env) (cfg : Cfg) (avail : Bytes) (got : Nat) (replies : List Reply) :
    Option Instr :=
  if env.minRead ≤ avail.length then (Pseudo.rbPut (avail.take (min got cfg.slotSize))).issue replies
  else none

/-- What the PRODUCER issues on a transport open or close transition (R303). -/
def producerOnTransition : Instr := .codecReqReset

/-- One CONSUMER iteration (R304): poll the bytes available, and from `READ_THRESHOLD` on pump one
slot through the decoder. -/
def consumerIssue (env : Env) : List Reply → Option Instr
  | [] => some .rbBytesAvailable
  | .ok (.bytes n) :: rest => if env.readThreshold ≤ n then Pseudo.pumpStep.issue rest else none
  | _ => none

/-- The HOST's answer to one `EXEC_REQ` (R305): exactly one `SCH.EXEC_DONE` with its exec function's
result, after a `SCH.STOP_NEXT` when the command is itself STOP. -/
def hostAnswer (isStop r : Bool) : List Reply → Option Instr
  | [] => some (if isStop then .schStopNext else .schExecDone r)
  | [_] => if isStop then some (.schExecDone r) else none
  | _ => none

/-- An operation as its agent puts it into the schedule. -/
def issueAt (p : Port) (i : Instr) : Input := .op p (encodeWord i) i.dataBlock

end Sys2Proof.Machine
end

