-- ==== Sys2Proof/Machine/Asm.lean ====
section
/-! DEFINITION. The assembler syntax of spec/30_encoding.md R123: one line of text to the issuing
port, where it is named, and one command word with its data block (assumption log 15). -/

namespace Sys2Proof.Machine

/-- The bytes of an ASCII text. -/
def ascii (s : String) : Bytes := s.toList.map (fun c => BitVec.ofNat 8 c.toNat)

/-! ### Lexer -/

/-- A lexical element of a line. -/
inductive AsmTok where
  | word (s : Bytes)
  | str (s : Bytes)
  | comma
  | openBlock
  | closeBlock
deriving DecidableEq, Repr

/-- Where the lexer stands: in a word read so far, in a quoted string read so far, or after the
backslash in one. -/
inductive AsmMode where
  | plain (cur : Bytes)
  | quoted (cur : Bytes)
  | escaped (cur : Bytes)
deriving DecidableEq, Repr

/-- The word read so far, if any, before further elements. -/
def flushWord (cur : Bytes) (rest : List AsmTok) : List AsmTok :=
  if cur = [] then rest else .word cur :: rest

/-- The elements of a line; a comment starts with `;`, a quoted string writes LF as `\n`. -/
def asmLex : AsmMode → Bytes → Option (List AsmTok)
  | .plain cur, [] => some (flushWord cur [])
  | .quoted _, [] => none
  | .escaped _, [] => none
  | .plain cur, b :: bs =>
    if b = 0x3B#8 then some (flushWord cur [])
    else if isBlank b then (asmLex (.plain []) bs).map (flushWord cur)
    else if b = 0x2C#8 then (asmLex (.plain []) bs).map (fun r => flushWord cur (.comma :: r))
    else if b = 0x5B#8 then (asmLex (.plain []) bs).map (fun r => flushWord cur (.openBlock :: r))
    else if b = 0x5D#8 then (asmLex (.plain []) bs).map (fun r => flushWord cur (.closeBlock :: r))
    else if b = 0x22#8 then
      if cur = [] then asmLex (.quoted []) bs else none
    else asmLex (.plain (cur ++ [b])) bs
  | .quoted cur, b :: bs =>
    if b = 0x22#8 then (asmLex (.plain []) bs).map (fun r => .str cur :: r)
    else if b = 0x5C#8 then asmLex (.escaped cur) bs
    else asmLex (.quoted (cur ++ [b])) bs
  | .escaped cur, b :: bs => if b = 0x6E#8 then asmLex (.quoted (cur ++ [lf])) bs else none

/-! ### Numbers and data blocks -/

/-- The value of a hexadecimal digit. -/
def hexDigit (b : Byte) : Option Nat :=
  if isDigit b then some (b.toNat - 0x30)
  else if 0x41 ≤ b.toNat ∧ b.toNat ≤ 0x46 then some (b.toNat - 0x37)
  else if 0x61 ≤ b.toNat ∧ b.toNat ≤ 0x66 then some (b.toNat - 0x57)
  else none

/-- The value of a run of hexadecimal digits, continuing a value read so far. -/
def hexFrom (v : Nat) : Bytes → Option Nat
  | [] => some v
  | b :: bs =>
    match hexDigit b with
    | some d => hexFrom (v * 16 + d) bs
    | none => none

/-- The value of one or more hexadecimal digits. -/
def hexNumber (s : Bytes) : Option Nat := if s = [] then none else hexFrom 0 s

/-- A number: decimal, or hexadecimal with `0x`. -/
def asmNumber (s : Bytes) : Option Nat :=
  if s.take 2 = ascii "0x" then hexNumber (s.drop 2)
  else if isDigits s then some (decimal s) else none

/-- A number below a bound. -/
def asmOperand (bound : Nat) (s : Bytes) : Option Nat :=
  match asmNumber s with
  | some v => if v < bound then some v else none
  | none => none

/-- The bytes of a data block up to its closing bracket, which ends the line. -/
def asmBlockBytes : List AsmTok → Option Bytes
  | [.closeBlock] => some []
  | .word s :: rest =>
    match hexNumber s with
    | some v =>
      if v < 256 then (asmBlockBytes rest).map (fun bs => BitVec.ofNat 8 v :: bs) else none
    | none => none
  | _ => none

/-- A data block that ends the line: bracketed bytes or a quoted string. -/
def asmBlock : List AsmTok → Option Bytes
  | [.str s] => some s
  | .openBlock :: rest => asmBlockBytes rest
  | _ => none

/-! ### Operations -/

/-- The operation that takes no operand, by name. -/
def asmBare (m : Bytes) : Option Instr :=
  if m = ascii "CODEC.RESET" then some .codecReset
  else if m = ascii "CODEC.REQ_RESET" then some .codecReqReset
  else if m = ascii "CODEC.MSG_COPY" then some .codecMsgCopy
  else if m = ascii "RB.TRY_GET_WRITE" then some .rbTryGetWrite
  else if m = ascii "RB.TRY_GET_READ" then some .rbTryGetRead
  else if m = ascii "RB.COMMIT_READ" then some .rbCommitRead
  else if m = ascii "RB.BYTES_AVAILABLE" then some .rbBytesAvailable
  else if m = ascii "RB.READ_HWM" then some .rbReadHwm
  else if m = ascii "SCH.STOP" then some .schStop
  else if m = ascii "SCH.STOP_NEXT" then some .schStopNext
  else if m = ascii "SCH.STATUS" then some .schStatus
  else none

/-- The operation with one numeric operand and no data block, by name. -/
def asmNumeric (m n : Bytes) : Option Instr :=
  if m = ascii "RB.COMMIT_WRITE" then
    (asmOperand 16777216 n).map (fun v => .rbCommitWrite (BitVec.ofNat 24 v))
  else if m = ascii "SCH.START" then
    (asmOperand 16777216 n).map (fun v => .schStart (BitVec.ofNat 24 v))
  else if m = ascii "SCH.STEP" then
    (asmOperand 16777216 n).map (fun v => .schStep (BitVec.ofNat 24 v))
  else if m = ascii "SCH.EXEC_DONE" then
    (asmOperand 2 n).map (fun v => .schExecDone (v == 1))
  else none

/-- The operation with one numeric operand and a data block, by name. -/
def asmNumericBlock (m n : Bytes) (data : Bytes) : Option Instr :=
  if m = ascii "CODEC.ENCODE" then
    (asmOperand 65536 n).map (fun v => .codecEncode (BitVec.ofNat 16 v) data)
  else if m = ascii "RB.FILL" then
    (asmOperand 16777216 n).map (fun v => .rbFill (BitVec.ofNat 24 v) data)
  else none

/-- The operation of a line's elements after the port. -/
def asmInstr : List AsmTok → Option Instr
  | [.word m] => asmBare m
  | [.word m, .word n] => asmNumeric m n
  | [.word m, .str name, .comma, .str text] =>
    if m = ascii "SCH.LOAD" then some (.schLoad (name ++ [0x00#8] ++ text)) else none
  | .word m :: .word n :: .comma :: rest =>
    match asmBlock rest with
    | some data => asmNumericBlock m n data
    | none => none
  | .word m :: rest =>
    if m = ascii "CODEC.DECODE" then (asmBlock rest).map .codecDecode else none
  | _ => none

/-- The issuing port that a word names. -/
def asmPort (m : Bytes) : Option Port :=
  if m = ascii "@HOST:" then some .host
  else if m = ascii "@PROD:" then some .prod
  else if m = ascii "@DEC:" then some .dec
  else none

/-- One assembled line: the port it names, if any, and the operation. -/
structure AsmLine where
  port  : Option Port
  instr : Instr
deriving DecidableEq, Repr

/-- The line of elements that may begin with a port. -/
def asmLine : List AsmTok → Option AsmLine
  | [] => none
  | .word m :: rest =>
    match asmPort m with
    | some p => (asmInstr rest).map (fun i => ⟨some p, i⟩)
    | none => (asmInstr (.word m :: rest)).map (fun i => ⟨none, i⟩)
  | _ :: _ => none

/-- A line of text to the command word and the data block it assembles to, and the port it names. -/
def assemble (line : Bytes) : Option (Option Port × CmdWord × Bytes) :=
  match asmLex (.plain []) line with
  | none => none
  | some toks => (asmLine toks).map (fun l => (l.port, encode l.instr))

end Sys2Proof.Machine
end

