-- ==== Sys2Proof/Tests/Slice0.lean ====
section
/-! SUPPORT. Small tests. Expected values come from the spec: the encodings of 30_encoding.md R114 to
R119, its table of R111, and the vectors of 95_test_vectors.md, named by their numbers there. Then,
for every statement that has hypotheses, a witness that meets them. -/

open Sys2Proof Sys2Proof.Machine

namespace Sys2Proof.Tests

/-! ### Well-formed configurations (00_scope.md R11) and operations (30_encoding.md R117) -/

theorem test_wf_vector_cfg : Config.vectorCfg.wf = true := by decide

theorem test_wf_refuses_frame : ({ Config.vectorCfg with maxFrame := 65534 } : Cfg).wf = false := by
  decide

theorem test_wf_refuses_frame_above :
    ({ Config.vectorCfg with maxFrame := 65537 } : Cfg).wf = false := by decide

theorem test_wf_refuses_errors :
    ({ Config.vectorCfg with maxErrors := 4294967296 } : Cfg).wf = false := by decide

theorem test_wf_refuses_no_slots : ({ Config.vectorCfg with rbSlots := 0 } : Cfg).wf = false := by
  decide

theorem test_wf_refuses_slots : ({ Config.vectorCfg with rbSlots := 65537 } : Cfg).wf = false := by
  decide

theorem test_wf_refuses_slot_size_zero :
    ({ Config.vectorCfg with slotSize := 0 } : Cfg).wf = false := by decide

theorem test_wf_refuses_slot_size :
    ({ Config.vectorCfg with slotSize := 16777216 } : Cfg).wf = false := by decide

theorem test_wf_refuses_lines :
    ({ Config.vectorCfg with maxLines := 16777217 } : Cfg).wf = false := by decide

theorem test_wf_refuses_variant :
    ({ Config.vectorCfg with protocol := .p7C6E, includeHeaderCrc := true } : Cfg).wf = false := by
  decide

theorem test_wf_refuses_sync2_without_header_crc :
    ({ Config.vectorCfg with hdrCrcFirst := .sync2 } : Cfg).wf = false ∧
      ({ Config.vectorCfg with hdrCrcFirst := .sync2, includeHeaderCrc := true } : Cfg).wf = true := by
  decide

theorem test_wf_refuses_empty_name :
    ({ Config.vectorCfg with registry := [⟨[], 1#32, []⟩] } : Cfg).wf = false := by decide

theorem test_wf_refuses_same_name :
    ({ Config.vectorCfg with
      registry := [⟨ascii "A", 1#32, []⟩, ⟨ascii "A", 2#32, []⟩] } : Cfg).wf = false := by decide

theorem test_wf_refuses_same_id :
    ({ Config.vectorCfg with
      registry := [⟨ascii "A", 1#32, []⟩, ⟨ascii "B", 1#32, []⟩] } : Cfg).wf = false := by decide

theorem test_construct_refuses :
    State.construct { Config.vectorCfg with rbSlots := 0 } Config.vectorEnv 0 = none := by decide

/-- A data block one byte longer than R117 allows. -/
def tooLong : Bytes := List.replicate dataBlockBound 0x00#8

theorem tooLong_length : ¬tooLong.length < dataBlockBound := by
  unfold tooLong
  rw [List.length_replicate]
  exact Nat.lt_irrefl _

theorem test_wf_refuses_decode : (Instr.codecDecode tooLong).wf = false :=
  decide_eq_false tooLong_length

theorem test_wf_refuses_encode : (Instr.codecEncode 1#16 tooLong).wf = false :=
  decide_eq_false tooLong_length

theorem test_wf_refuses_fill : (Instr.rbFill 0#24 tooLong).wf = false :=
  decide_eq_false tooLong_length

theorem test_wf_refuses_load : (Instr.schLoad tooLong).wf = false :=
  decide_eq_false tooLong_length

theorem test_transact_refuses_long_block (s : State) :
    transact .dec 0x12000000#32 tooLong s = .refused .dataBlockTooLong := by
  unfold transact
  rw [if_neg tooLong_length]

/-! ### Decoding: a word written out from R114 to R119 for every operation -/

theorem test_decode_codecReset : decode 0b00010000000000000000000000000000#32 [] = .ok .codecReset := by
  decide

theorem test_decode_codecReqReset :
    decode 0b00010001000000000000000000000000#32 [] = .ok .codecReqReset := by decide

theorem test_decode_codecDecode :
    decode 0b00010010000000000000000000000000#32 [0x5E#8] = .ok (.codecDecode [0x5E#8]) := by decide

theorem test_decode_codecEncode :
    decode 0b00010011000000001010010100000001#32 [0x07#8] =
      .ok (.codecEncode 0xA501#16 [0x07#8]) := by decide

theorem test_decode_codecMsgCopy :
    decode 0b00010100000000000000000000000000#32 [] = .ok .codecMsgCopy := by decide

theorem test_decode_rbTryGetWrite :
    decode 0b00100000000000000000000000000000#32 [] = .ok .rbTryGetWrite := by decide

theorem test_decode_rbFill :
    decode 0b00100001100000000000000000000010#32 [0xAA#8] =
      .ok (.rbFill 0x800002#24 [0xAA#8]) := by decide

theorem test_decode_rbCommitWrite :
    decode 0b00100010000000000000000000000101#32 [] = .ok (.rbCommitWrite 5#24) := by decide

theorem test_decode_rbTryGetRead :
    decode 0b00100011000000000000000000000000#32 [] = .ok .rbTryGetRead := by decide

theorem test_decode_rbCommitRead :
    decode 0b00100100000000000000000000000000#32 [] = .ok .rbCommitRead := by decide

theorem test_decode_rbBytesAvailable :
    decode 0b00100101000000000000000000000000#32 [] = .ok .rbBytesAvailable := by decide

theorem test_decode_rbReadHwm :
    decode 0b00100110000000000000000000000000#32 [] = .ok .rbReadHwm := by decide

theorem test_decode_schLoad :
    decode 0b00110000000000000000000000000000#32 [0x66#8, 0x00#8] =
      .ok (.schLoad [0x66#8, 0x00#8]) := by decide

theorem test_decode_schStart :
    decode 0b00110001000000000000000000000011#32 [] = .ok (.schStart 3#24) := by decide

theorem test_decode_schStep :
    decode 0b00110010000000010000000000000000#32 [] = .ok (.schStep 65536#24) := by decide

theorem test_decode_schStop :
    decode 0b00110011000000000000000000000000#32 [] = .ok .schStop := by decide

theorem test_decode_schStopNext :
    decode 0b00110100000000000000000000000000#32 [] = .ok .schStopNext := by decide

theorem test_decode_schStatus :
    decode 0b00110101000000000000000000000000#32 [] = .ok .schStatus := by decide

theorem test_decode_schExecDone :
    decode 0b00110110000000000000000000000001#32 [] = .ok (.schExecDone true) ∧
      decode 0b00110110000000000000000000000000#32 [] = .ok (.schExecDone false) := by decide

/-- The grounds of R118, by name (C16, S42). -/
theorem test_decode_illegal :
    decode 0x00000000#32 [] = .error .reservedUnit ∧
      decode 0xF0000000#32 [] = .error .reservedUnit ∧
      decode 0x15000000#32 [] = .error .unassignedOp ∧
      decode 0x27000000#32 [] = .error .unassignedOp ∧
      decode 0x37000000#32 [] = .error .unassignedOp ∧
      decode 0x13010001#32 [] = .error .mustBeZero ∧
      decode 0x36000002#32 [] = .error .mustBeZero ∧
      decode 0x22000001#32 [0x00#8] = .error .unexpectedData ∧
      decodeAt .dec 0x20000000#32 [] = .error .portNotAdmitted ∧
      decodeAt .prod 0x26000000#32 [] = .error .portNotAdmitted := by decide

/-- The octet form of R78: the most significant byte first (the data block after the word: log 16). -/
theorem test_octets :
    encodeOctets (.rbFill 2#24 [0xAA#8]) = [0x21#8, 0x00#8, 0x00#8, 0x02#8, 0xAA#8] ∧
      decodeTableWord 32 0x22000005 = some (.rbCommitWrite 5#24) := by decide

/-- A word placed as the host places it is the first instruction to run after reset. -/
theorem test_withFetchWord :
    step (State.reset.withFetchWord 32 0x25000000) =
      .next { State.reset with issuer := some .host, reply := some (.ok (.bytes 0)) } := by rfl

/-! ### CRC-8 (R110, R111) -/

/-- The first eight rows of the table of R111. -/
def crcRowsLow : List Byte :=
  [0x00#8, 0x07#8, 0x0E#8, 0x09#8, 0x1C#8, 0x1B#8, 0x12#8, 0x15#8,
    0x38#8, 0x3F#8, 0x36#8, 0x31#8, 0x24#8, 0x23#8, 0x2A#8, 0x2D#8] ++
  [0x70#8, 0x77#8, 0x7E#8, 0x79#8, 0x6C#8, 0x6B#8, 0x62#8, 0x65#8,
    0x48#8, 0x4F#8, 0x46#8, 0x41#8, 0x54#8, 0x53#8, 0x5A#8, 0x5D#8] ++
  [0xE0#8, 0xE7#8, 0xEE#8, 0xE9#8, 0xFC#8, 0xFB#8, 0xF2#8, 0xF5#8,
    0xD8#8, 0xDF#8, 0xD6#8, 0xD1#8, 0xC4#8, 0xC3#8, 0xCA#8, 0xCD#8] ++
  [0x90#8, 0x97#8, 0x9E#8, 0x99#8, 0x8C#8, 0x8B#8, 0x82#8, 0x85#8,
    0xA8#8, 0xAF#8, 0xA6#8, 0xA1#8, 0xB4#8, 0xB3#8, 0xBA#8, 0xBD#8] ++
  [0xC7#8, 0xC0#8, 0xC9#8, 0xCE#8, 0xDB#8, 0xDC#8, 0xD5#8, 0xD2#8,
    0xFF#8, 0xF8#8, 0xF1#8, 0xF6#8, 0xE3#8, 0xE4#8, 0xED#8, 0xEA#8] ++
  [0xB7#8, 0xB0#8, 0xB9#8, 0xBE#8, 0xAB#8, 0xAC#8, 0xA5#8, 0xA2#8,
    0x8F#8, 0x88#8, 0x81#8, 0x86#8, 0x93#8, 0x94#8, 0x9D#8, 0x9A#8] ++
  [0x27#8, 0x20#8, 0x29#8, 0x2E#8, 0x3B#8, 0x3C#8, 0x35#8, 0x32#8,
    0x1F#8, 0x18#8, 0x11#8, 0x16#8, 0x03#8, 0x04#8, 0x0D#8, 0x0A#8] ++
  [0x57#8, 0x50#8, 0x59#8, 0x5E#8, 0x4B#8, 0x4C#8, 0x45#8, 0x42#8,
    0x6F#8, 0x68#8, 0x61#8, 0x66#8, 0x73#8, 0x74#8, 0x7D#8, 0x7A#8]

/-- The last eight rows of the table of R111. -/
def crcRowsHigh : List Byte :=
  [0x89#8, 0x8E#8, 0x87#8, 0x80#8, 0x95#8, 0x92#8, 0x9B#8, 0x9C#8,
    0xB1#8, 0xB6#8, 0xBF#8, 0xB8#8, 0xAD#8, 0xAA#8, 0xA3#8, 0xA4#8] ++
  [0xF9#8, 0xFE#8, 0xF7#8, 0xF0#8, 0xE5#8, 0xE2#8, 0xEB#8, 0xEC#8,
    0xC1#8, 0xC6#8, 0xCF#8, 0xC8#8, 0xDD#8, 0xDA#8, 0xD3#8, 0xD4#8] ++
  [0x69#8, 0x6E#8, 0x67#8, 0x60#8, 0x75#8, 0x72#8, 0x7B#8, 0x7C#8,
    0x51#8, 0x56#8, 0x5F#8, 0x58#8, 0x4D#8, 0x4A#8, 0x43#8, 0x44#8] ++
  [0x19#8, 0x1E#8, 0x17#8, 0x10#8, 0x05#8, 0x02#8, 0x0B#8, 0x0C#8,
    0x21#8, 0x26#8, 0x2F#8, 0x28#8, 0x3D#8, 0x3A#8, 0x33#8, 0x34#8] ++
  [0x4E#8, 0x49#8, 0x40#8, 0x47#8, 0x52#8, 0x55#8, 0x5C#8, 0x5B#8,
    0x76#8, 0x71#8, 0x78#8, 0x7F#8, 0x6A#8, 0x6D#8, 0x64#8, 0x63#8] ++
  [0x3E#8, 0x39#8, 0x30#8, 0x37#8, 0x22#8, 0x25#8, 0x2C#8, 0x2B#8,
    0x06#8, 0x01#8, 0x08#8, 0x0F#8, 0x1A#8, 0x1D#8, 0x14#8, 0x13#8] ++
  [0xAE#8, 0xA9#8, 0xA0#8, 0xA7#8, 0xB2#8, 0xB5#8, 0xBC#8, 0xBB#8,
    0x96#8, 0x91#8, 0x98#8, 0x9F#8, 0x8A#8, 0x8D#8, 0x84#8, 0x83#8] ++
  [0xDE#8, 0xD9#8, 0xD0#8, 0xD7#8, 0xC2#8, 0xC5#8, 0xCC#8, 0xCB#8,
    0xE6#8, 0xE1#8, 0xE8#8, 0xEF#8, 0xFA#8, 0xFD#8, 0xF4#8, 0xF3#8]

theorem test_crc_table_low :
    (List.range 128).map (fun i => crcTable (BitVec.ofNat 8 i)) = crcRowsLow := by decide +kernel

theorem test_crc_table_high :
    (List.range 128).map (fun i => crcTable (BitVec.ofNat 8 (128 + i))) = crcRowsHigh := by
  decide +kernel

theorem test_crc_check_value : crc8 (ascii "123456789") = 0xF4#8 := by decide +kernel

/-! ### One step -/

/-- What a step answered, if it has a next state: the reply and the event stream. -/
def seen : Out → Option (Option Reply × List Event)
  | .next t => some (t.reply, t.evq)
  | .fault _ => none
  | .refused _ => none

/-- A field of the next state. -/
def after {α : Type} (f : State → α) : Out → Option α
  | .next t => some (f t)
  | .fault _ => none
  | .refused _ => none

/-- The reset state of the vectors, with one operation at a port that admits it. -/
def once (s : State) (i : Instr) : Out :=
  step { s with inputs := [issueAt (admittedPort i) i] }

/-- A reset block with the given configuration. -/
def withCfg (cfg : Cfg) : State := State.resetWith cfg Config.vectorEnv 0

/-- The header CRC on, from SYNC1 on (H5) and from SYNC2 on (H4). -/
def h5 : Cfg := { Config.vectorCfg with includeHeaderCrc := true }

/-- H4 of 95_test_vectors.md. -/
def h4 : Cfg := { h5 with hdrCrcFirst := .sync2 }

/-- The other variant. -/
def p7 : Cfg := { Config.vectorCfg with protocol := .p7C6E }

/-- The frame of C17. -/
def frame17 : Bytes :=
  [0x5E#8, 0x4D#8, 0x01#8, 0x00#8, 0x03#8, 0x01#8, 0x02#8, 0x03#8, 0x48#8]

/-- The message of C17. -/
def msg17 : Event := .msg 0x01#8 3 [0x01#8, 0x02#8, 0x03#8]

/-! CODEC -/

/-- A decoder in the middle of a frame, with errors counted. -/
def midCodec : Codec :=
  { Codec.reset with
    dstate := .readPayload, crc := 0x07#8, len := 3, idx := 1, msgAddr := 0x07#8, msgLen := 2
    errCount := 2, resetReq := true, msgbuf := [(0, 0x01#8)] }

/-- R152 keeps `msg_addr`, `msg_len` and `MSGBUF`. -/
theorem test_codecReset :
    after State.codec (once { State.reset with codec := midCodec } .codecReset) =
      some { Codec.reset with msgAddr := 0x07#8, msgLen := 2, msgbuf := [(0, 0x01#8)] } := by
  decide +kernel

/-- R153: nothing but the request. -/
theorem test_codecReqReset :
    once State.reset .codecReqReset =
      .next { State.reset with
        codec := { Codec.reset with resetReq := true }
        issuer := some .host, reply := some (.ok .none) } := by rfl

/-- C17 and C26. -/
theorem test_codecDecode_frames :
    seen (once State.reset (.codecDecode (frame17 ++ [0xFF#8, 0xFF#8, 0x5E#8, 0x00#8]))) =
      some (some (.ok .none), [msg17, .err 9 .syncLost, .err 12 .sync2Missing]) ∧
    after (fun t => (t.codec.dstate, t.codec.crc, t.codec.len, t.codec.idx))
      (once State.reset (.codecDecode frame17)) = some (.waitSync1, 0x48#8, 3, 3) := by
  decide +kernel

/-- C29 and C29a (the length limit), C47 and C48 (the header CRC), C51 (P7C6E). -/
theorem test_codecDecode_variants :
    seen (once State.reset (.codecDecode [0x5E#8, 0x4D#8, 0x01#8, 0xFF#8, 0xFB#8])) =
      some (some (.ok .none), [.err 4 .oversized]) ∧
    seen (once State.reset (.codecDecode [0x5E#8, 0x4D#8, 0x01#8, 0xFF#8, 0xFA#8])) =
      some (some (.ok .none), []) ∧
    seen (once (withCfg h5) (.codecDecode (frame17.dropLast ++ [0x47#8]))) =
      some (some (.ok .none), [msg17]) ∧
    seen (once (withCfg h4) (.codecDecode (frame17.dropLast ++ [0x5E#8]))) =
      some (some (.ok .none), [msg17]) ∧
    seen (once (withCfg p7) (.codecDecode
      [0x7C#8, 0x6E#8, 0x05#8, 0x01#8, 0xAA#8, 0x00#8, 0x7C#8, 0x6E#8, 0x06#8, 0x02#8, 0x01#8,
        0x02#8])) =
      some (some (.ok .none),
        [.msg 0x05#8 1 [0xAA#8], .err 5 .syncLost, .msg 0x06#8 2 [0x01#8, 0x02#8]]) := by
  decide +kernel

/-- C5, C6 (the largest address and the next), C12, C13. -/
theorem test_codecEncode :
    seen (once State.reset (.codecEncode 0xFF#16 [0x01#8, 0x02#8, 0x03#8])) =
      some (some (.ok (.frame
        [0x5E#8, 0x4D#8, 0xFF#8, 0x00#8, 0x03#8, 0x01#8, 0x02#8, 0x03#8, 0x48#8])), []) ∧
    seen (once State.reset (.codecEncode 0x100#16 [])) = some (some .failed, []) ∧
    seen (once (withCfg p7) (.codecEncode 0x05#16 [0xAA#8])) =
      some (some (.ok (.frame [0x7C#8, 0x6E#8, 0x05#8, 0x01#8, 0xAA#8])), []) ∧
    seen (once (withCfg p7) (.codecEncode 0x05#16 [])) = some (some .failed, []) := by
  decide +kernel

/-- C7, C8, C9: which header bytes the CRC covers. -/
theorem test_codecEncode_header :
    seen (once (withCfg h5) (.codecEncode 0x01#16 [0x01#8, 0x02#8, 0x03#8])) =
      some (some (.ok (.frame (frame17.dropLast ++ [0x47#8]))), []) ∧
    seen (once (withCfg h4) (.codecEncode 0x01#16 [0x01#8, 0x02#8, 0x03#8])) =
      some (some (.ok (.frame (frame17.dropLast ++ [0x5E#8]))), []) ∧
    seen (once (withCfg h5) (.codecEncode 0x01#16 [])) =
      some (some (.ok (.frame [0x5E#8, 0x4D#8, 0x01#8, 0x00#8, 0x00#8, 0xA6#8])), []) := by
  decide +kernel

/-- The codec after C17. -/
def codec17 : Codec :=
  { Codec.reset with
    crc := 0x48#8, len := 3, idx := 3, msgAddr := 0x01#8, msgLen := 3, msgValid := true
    lastOk := true, msgbuf := [(0, 0x01#8), (1, 0x02#8), (2, 0x03#8)] }

/-- C44, C45. -/
theorem test_codecMsgCopy :
    seen (once State.reset .codecMsgCopy) = some (some .failed, []) ∧
    seen (once { State.reset with codec := codec17 } .codecMsgCopy) =
      some (some (.ok (.message 0x01#8 3 [0x01#8, 0x02#8, 0x03#8])), []) := by decide +kernel

/-! RB -/

/-- The ring buffer after R14: full, both slots written. -/
def rb14 : Rb :=
  { Rb.reset 2 with
    slots := [(0, 0x11#8), (1, 0x22#8), (2, 0x33#8), (4, 0xAA#8), (5, 0xBB#8), (6, 0xCC#8),
      (7, 0xDD#8)]
    used := [3, 4], count := 2, bytes := 7, hwm := 7 }

/-- The ring buffer after R12: the second slot held. -/
def rb12 : Rb :=
  { Rb.reset 2 with
    slots := [(0, 0x11#8), (1, 0x22#8), (2, 0x33#8)]
    used := [3, 0], wr := 1, count := 1, bytes := 3, hwm := 3, wrHeld := true }

/-- The reset state with the given ring buffer. -/
def rbState (r : Rb) : State := { State.reset with rb := r }

/-- R5, R15. -/
theorem test_rbTryGetWrite :
    after (fun t => (t.reply, t.rb)) (once State.reset .rbTryGetWrite) =
      some (some (.ok (.slot 0)), { Rb.reset 2 with wrHeld := true }) ∧
    after (fun t => (t.reply, t.rb)) (once (rbState rb14) .rbTryGetWrite) =
      some (some .failed, rb14) := by decide +kernel

/-- R13, R8, R9: the second slot's bytes, one byte past its end, nothing at its end. -/
theorem test_rbFill :
    after (fun t => (t.reply, t.rb))
      (once (rbState rb12) (.rbFill 0#24 [0xAA#8, 0xBB#8, 0xCC#8, 0xDD#8])) =
      some (some (.ok .none), { rb12 with slots := rb14.slots }) ∧
    after (fun t => (t.reply, t.rb)) (once (rbState rb12) (.rbFill 3#24 [0x44#8, 0x55#8])) =
      some (some .rangeError, rb12) ∧
    after (fun t => (t.reply, t.rb)) (once (rbState rb12) (.rbFill 4#24 [])) =
      some (some (.ok .none), rb12) := by decide +kernel

/-- R14, R10, R1. -/
theorem test_rbCommitWrite :
    after (fun t => (t.reply, t.rb))
      (once (rbState { rb12 with slots := rb14.slots }) (.rbCommitWrite 4#24)) =
      some (some (.ok .none), rb14) ∧
    after (fun t => (t.reply, t.rb)) (once (rbState rb12) (.rbCommitWrite 5#24)) =
      some (some .rangeError, rb12) ∧
    after State.reply (once State.reset (.rbCommitWrite 1#24)) = some (some .seqError) := by
  decide +kernel

/-- R17, R4. -/
theorem test_rbTryGetRead :
    after (fun t => (t.reply, t.rb)) (once (rbState rb14) .rbTryGetRead) =
      some (some (.ok (.slotData 0 3 [0x11#8, 0x22#8, 0x33#8])), { rb14 with rdHeld := true }) ∧
    after State.reply (once State.reset .rbTryGetRead) = some (some .failed) := by decide +kernel

/-- R19, R20. -/
theorem test_rbCommitRead :
    after (fun t => (t.reply, t.rb))
      (once (rbState { rb14 with rdHeld := true }) .rbCommitRead) =
      some (some (.ok .none), { rb14 with rd := 1, count := 1, bytes := 4 }) ∧
    after State.reply (once (rbState rb14) .rbCommitRead) = some (some .seqError) := by
  decide +kernel

/-- R16. -/
theorem test_rbBytesAvailable :
    after (fun t => (t.reply, t.rb)) (once (rbState rb14) .rbBytesAvailable) =
      some (some (.ok (.bytes 7)), rb14) := by decide +kernel

/-- R21. -/
theorem test_rbReadHwm :
    after (fun t => (t.reply, t.rb)) (once (rbState rb14) .rbReadHwm) =
      some (some (.ok (.hwm 7)), { rb14 with hwm := 0 }) := by decide +kernel

/-! SCH -/

/-- The lines of S10: number, code and delay of each. -/
theorem test_schLoad_errors :
    after (fun t => (t.reply, t.evq))
      (once State.reset (.schLoad (ascii "p" ++ [0x00#8] ++ ascii "0 A\n0.500 X\n1 B\n"))) =
      some (some (.ok (.hadErrors true)), [.stateChanged .loadedWithErrors]) ∧
    after (fun t => t.sch.lines.map fun l => (l.err, l.delay))
      (once State.reset (.schLoad (ascii "p" ++ [0x00#8] ++ ascii "0 A\n0.500 X\n1 B\n"))) =
      some [(.none, 0), (.unknownCmd, 500), (.none, 1000)] := by decide +kernel

/-- S13: absolute times and the first command; S14: a block without a zero byte. -/
theorem test_schLoad :
    after (fun t => (t.reply, t.evq, t.sch.filename, t.sch.pos, t.sch.lines.map Line.absTime))
      (once State.reset
        (.schLoad (ascii "m" ++ [0x00#8] ++ ascii "# hdr\n0.100 A\n\n0.050 B\n"))) =
      some (some (.ok (.hadErrors false)), [.stateChanged .loaded], ascii "m", 1,
        [0, 100, 100, 150]) ∧
    after State.reply (once State.reset (.schLoad (ascii "m"))) = some (some .rangeError) := by
  decide +kernel

/-- A line of S11, the test function answering 0 for the parameter `bad`. -/
def line11 (t : String) : Line :=
  parseLine Config.vectorCfg
    { Config.vectorEnv with testFn := .finite true [(2#32, [ascii "bad"])] } (ascii t)

/-- The texts of S11. -/
def texts11 : List String :=
  ["A", "1.1000 A", "65536 A", "0 a", "0 B bad", "# only", "", "1#c A", "0 A#x", "0\tB p1  p2"]

/-- S11: the checks. -/
theorem test_parseLine_checks :
    texts11.map (fun t => ((line11 t).isCmd, (line11 t).err)) =
    [(true, .tooFewTokens), (true, .badTime), (true, .badTime), (true, .unknownCmd),
      (true, .testFailed), (false, .none), (false, .none), (true, .tooFewTokens), (true, .none),
      (true, .none)] := by decide +kernel

/-- S11: the names, parameters and comments. -/
theorem test_parseLine_fields :
    texts11.map (fun t => ((line11 t).cmdName, (line11 t).params, (line11 t).comment)) =
    [([], [], []), (ascii "A", [], []), (ascii "A", [], []), (ascii "a", [], []),
      (ascii "B", [ascii "bad"], []), ([], [], ascii " only"), ([], [], []), ([], [], ascii "c A"),
      (ascii "A", [], ascii "x"), (ascii "B", [ascii "p1", ascii "p2"], [])] := by decide +kernel

/-- Table T. -/
theorem test_parseTime :
    (["0", "2.250", "65536", "1.1000", "1.5", "1.05", "65535.999", "0000065535", "-1", "1.",
        ".5"].map fun t =>
      (parseTime .integerMs (ascii t), parseTime .exact3 (ascii t))) =
    [(some 0, some 0), (some 2250, some 2250), (none, none), (none, none), (some 1005, none),
      (some 1005, none), (some 65535999, some 65535999), (some 65535000, some 65535000),
      (none, none), (none, none), (none, none)] := by decide +kernel

/-- S15. -/
theorem test_splitLines :
    splitLines (ascii "a\r\nb") = [ascii "a", ascii "b"] ∧ splitLines (ascii "a\n") = [ascii "a"] ∧
      splitLines [] = [] ∧ splitLines (ascii "\n") = [[]] := by decide +kernel

/-- A command line with a remaining and an original delay. -/
def cmd (id : BitVec 32) (delay origDelay : Nat) : Line :=
  { blankLine [] [] with isCmd := true, cmdId := id, delay := delay, origDelay := origDelay }

/-- A loaded table of two commands, the first with the given delays (F has 100 and 100). -/
def sch2 (delay origDelay : Nat) : Sch :=
  { Sch.reset with
    schState := .loaded, lines := [cmd 1#32 delay origDelay, cmd 2#32 200 200]
    filename := ascii "f" }

/-- A state with the given scheduler and time. -/
def schAt (now : Nat) (x : Sch) : State := { State.reset with now := now, sch := x }

/-- S20 at t=5, and S13's start past the last line. -/
theorem test_schStart :
    after (fun t => (t.reply, t.evq)) (once (schAt 5 (sch2 100 100)) (.schStart 0#24)) =
      some (some (.ok .none), [.stateChanged .running]) ∧
    after (fun t => (t.sch.pos, t.sch.xphase, t.sch.lines.map Line.absTime))
      (once (schAt 5 (sch2 100 100)) (.schStart 0#24)) = some (0, .head, [105, 305]) ∧
    after State.reply (once (schAt 5 (sch2 100 100)) (.schStart 2#24)) = some (some .failed) := by
  decide +kernel

/-- S40: the callout, and `BUSY` while it is outstanding. -/
theorem test_schStep :
    after (fun t => (t.reply, t.evq, t.sch)) (once (schAt 0 (sch2 100 100)) (.schStep 1#24)) =
      some (some (.ok .none), [.execReq 1 2#32 []],
        { sch2 100 100 with callout := .step, calloutLine := 1 }) ∧
    after State.reply
      (once (schAt 0 { sch2 100 100 with callout := .step }) (.schStep 0#24)) =
      some (some .busy) := by decide +kernel

/-- S30 at t=2500: the first command in its third slice. -/
def sch30 : Sch :=
  { sch2 3000 5000 with schState := .running, xphase := .sleep, slice := 1000, wake := 3000 }

/-- S30: the stop, and a second one. -/
theorem test_schStop :
    after (fun t => (t.reply, t.evq, t.sch)) (once (schAt 2500 sch30) .schStop) =
      some (some (.ok .none), [.stateChanged .loaded], { sch30 with schState := .loaded }) ∧
    after State.reply (once (schAt 2500 { sch30 with schState := .loaded }) .schStop) =
      some (some .failed) := by decide +kernel

/-- S32. -/
theorem test_schStopNext :
    after (fun t => (t.reply, t.evq, t.sch)) (once (schAt 2500 sch30) .schStopNext) =
      some (some (.ok .none), [.stateChanged .loaded],
        { sch30 with schState := .loaded, stopNext := true, stopIssuer := 0 }) := by decide +kernel

/-- S40 and S41: busy with a callout, busy while stopping. -/
theorem test_schStatus :
    after State.reply (once (schAt 0 { sch2 100 100 with callout := .step }) .schStatus) =
      some (some (.ok (.status .loaded true 0 2))) ∧
    after State.reply (once (schAt 2500 { sch30 with schState := .loaded }) .schStatus) =
      some (some (.ok (.status .loaded true 0 2))) := by decide +kernel

/-- S40: a failed step moves on to the next command; an answer nobody waits for. -/
theorem test_schExecDone_step :
    after (fun t => (t.reply, t.evq, t.sch.pos, t.sch.callout))
      (once (schAt 0 { sch2 100 100 with callout := .step, calloutLine := 0 })
        (.schExecDone false)) =
      some (some (.ok .none), [.cmdExecError 0, .nextCommand 1], 1, .none) ∧
    after State.reply (once (schAt 0 (sch2 100 100)) (.schExecDone true)) =
      some (some .seqError) := by decide +kernel

/-- S20 at t=105 and t=305: the delay restored and the next command; the natural end. -/
theorem test_schExecDone_run :
    after (fun t => (t.evq, t.sch.pos, t.sch.xphase, t.sch.lines.map Line.delay))
      (once (schAt 105 { sch2 0 100 with
        schState := .running, xphase := .execWait, callout := .run }) (.schExecDone true)) =
      some ([.nextCommand 1], 1, .head, [100, 200]) ∧
    after (fun t => (t.evq, t.sch.pos, t.sch.xphase, t.sch.schState))
      (once (schAt 305 { sch2 100 100 with
        schState := .running, xphase := .execWait, callout := .run, pos := 1, calloutLine := 1 })
        (.schExecDone true)) =
      some ([.stateChanged .loaded, .stopped (ascii "f"), .finished (ascii "f")], 1, .idle,
        .loaded) := by decide +kernel

/-- S22 at t=0 and t=1000: a full slice, and the loop head again. -/
theorem test_executor_slices :
    after (fun t => (t.sch.slice, t.sch.wake, t.sch.xphase))
      (step { schAt 0 { sch2 2500 2500 with schState := .running, xphase := .head } with
        inputs := [.executor] }) = some (1000, 1000, .sleep) ∧
    after (fun t => (t.sch.lines.map Line.delay, t.sch.xphase, t.evq))
      (step { schAt 1000 { sch2 2500 2500 with
          schState := .running, xphase := .sleep, slice := 1000, wake := 1000 } with
        inputs := [.executor] }) = some ([1500, 200], .head, []) := by decide +kernel

/-- S31 at t=500 under both settings of `STOP_CHECK_AFTER_SLEEP`. -/
theorem test_executor_stop_in_last_slice :
    after (fun t => (t.evq, t.sch.xphase))
      (step { schAt 500 { sch2 500 500 with xphase := .sleep, slice := 500, wake := 500 } with
        inputs := [.executor] }) = some ([.execReq 0 1#32 []], .execWait) ∧
    after (fun t => (t.evq, t.sch.xphase))
      (step { schAt 500 { sch2 500 500 with xphase := .sleep, slice := 500, wake := 500 } with
        cfg := { Config.vectorCfg with stopCheckAfterSleep := true }
        inputs := [.executor] }) = some ([.stopped (ascii "f")], .idle) := by decide +kernel

/-! ### Assembler text and pseudo-operations (30_encoding.md R123, R124) -/

theorem test_assemble :
    assemble (ascii "@PROD: RB.FILL 0x2, [AA bb] ; data") =
      some (some .prod, 0x21000002#32, [0xAA#8, 0xBB#8]) ∧
    assemble (ascii "SCH.LOAD \"f\", \"0 A\\n\"") =
      some (none, 0x30000000#32, [0x66#8, 0x00#8, 0x30#8, 0x20#8, 0x41#8, 0x0A#8]) ∧
    assemble (ascii "CODEC.DECODE_ALL") = none := by decide +kernel

theorem test_pseudo_pump :
    Pseudo.pumpStep.issue [] = some .rbTryGetRead ∧
      Pseudo.pumpStep.issue [.failed] = none ∧
      Pseudo.pumpStep.issue [.ok (.slotData 0 1 [0x5E#8])] = some (.codecDecode [0x5E#8]) ∧
      Pseudo.pumpStep.issue [.ok (.slotData 0 1 [0x5E#8]), .ok .none] = some .rbCommitRead ∧
      (Pseudo.rbPut [0x01#8, 0x02#8]).issue [.ok (.slot 1), .ok .none] =
        some (.rbCommitWrite 2#24) := by decide +kernel

/-- R303: a read that returns fewer bytes than are available commits what it returned. -/
theorem test_producer_short_read :
    producerIssue Config.vectorEnv Config.vectorCfg [0x01#8, 0x02#8, 0x03#8] 2
        [.ok (.slot 0)] = some (.rbFill 0#24 [0x01#8, 0x02#8]) ∧
      producerIssue Config.vectorEnv Config.vectorCfg [0x01#8, 0x02#8, 0x03#8] 2
        [.ok (.slot 0), .ok .none] = some (.rbCommitWrite 2#24) := by decide +kernel

/-! ### Memory -/

/-- The memories of the reset state, and the canonical form after two writes out of order. -/
theorem test_memory_wf :
    State.reset.codec.msgbuf.wf = true ∧ State.reset.rb.slots.wf = true ∧
      ((Memory.put (Memory.put [] 5 0x01#8) 2 0x02#8).put 5 0x03#8) =
        [(2, 0x02#8), (5, 0x03#8)] := by decide

/-! ### Witnesses: states that meet the invariants -/

theorem two_lines {a b l : Line} {i : Nat} (h : [a, b][i]? = some l) :
    i = 0 ∧ l = a ∨ i = 1 ∧ l = b := by
  match i, h with
  | 0, h => exact .inl ⟨rfl, by simpa [eq_comm] using h⟩
  | 1, h => exact .inr ⟨rfl, by simpa [eq_comm] using h⟩
  | n + 2, h => simp at h

/-- The scheduler invariant of a table of two commands, at the first one. -/
theorem schInv_two {x : Sch} {d o : Nat} (hl : x.lines = (sch2 d o).lines)
    (hd : d ≤ o ∧ o ≤ maxDelay ∧ x.pos = 0 ∧ x.slice ≤ 1000 ∧ x.calloutLine = 0 ∧
      x.stopIssuer = 0 ∧ x.hadErrors = false ∧ x.finished = false)
    (h1 : x.xphase = .idle → d = o) (h2 : x.schState = .running → x.xphase ≠ .idle)
    (h3 : x.callout = .run ↔ x.xphase = .execWait) (h4 : x.callout ≠ .step)
    (h5 : x.xphase ≠ .idle → x.schState = .running ∨ x.schState = .loaded)
    (h6 : x.xphase = .sleep → x.slice ≤ d)
    (h7 : x.stopNext = true → x.xphase ≠ .idle ∧ x.schState = .loaded) :
    SchInv Config.vectorCfg x := by
  obtain ⟨hd1, hd2, hp, hs, hc, hi, he, hf⟩ := hd
  have hn : x.nlines = 2 := by rw [Sch.nlines, hl]; rfl
  have hcmd : x.cmdAt x.pos := ⟨cmd 1#32 d o, by rw [hl, hp]; rfl, rfl⟩
  exact {
    nlines := by rw [hn]; decide
    delays := by
      rw [hl]
      intro l h
      rcases List.mem_pair.1 h with rfl | rfl
      · exact ⟨hd1, hd2⟩
      · exact ⟨Nat.le_refl 200, by show 200 ≤ maxDelay; decide⟩
    pos := by rw [hp, hn]; decide
    slice := hs
    calloutLine := by rw [hc]; decide
    stopIssuer := by rw [hi]; decide
    restored := fun hx i l h _ => by
      rw [hl] at h
      rcases two_lines h with ⟨-, rfl⟩ | ⟨-, rfl⟩
      · exact h1 hx
      · rfl
    counting := fun _ i l h hne => by
      rw [hl] at h
      rcases two_lines h with ⟨rfl, -⟩ | ⟨-, rfl⟩
      · exact absurd (by rw [hp]) hne
      · rfl
    running := h2
    callout := h3
    stepping := fun h => absurd h h4
    noErrors := fun _ => he
    atCommand := fun _ => hcmd
    alive := h5
    sliceFits := fun hx l h => by
      rw [hl, hp] at h
      cases h
      exact h6 hx
    calloutAt := fun _ => by rw [hc, hp]
    stepAt := fun h => absurd h h4
    stopNext := h7
    finished := hf }

/-- C17's end state meets the codec invariant. -/
theorem codecInv_17 : CodecInv Config.vectorCfg codec17 where
  dstate := by decide
  len := by decide
  idx := by decide
  idxLen := by decide
  lenHi := by decide
  msgLen := by decide
  errCount := by decide
  payload := by decide
  complete := by decide
  view := by decide
  canonical := by decide
  below := by
    intro c hc
    simp [codec17] at hc
    rcases hc with rfl | rfl | rfl <;> decide
  written := fun h => absurd h (by decide)
  viewWritten := fun _ i hi => by
    have hi : i < 3 := hi
    match i, hi with
    | 0, _ => rfl
    | 1, _ => rfl
    | 2, _ => rfl

/-- A decoder in the middle of a frame meets the codec invariant. -/
theorem codecInv_mid : CodecInv Config.vectorCfg midCodec where
  dstate := by decide
  len := by decide
  idx := by decide
  idxLen := by decide
  lenHi := by decide
  msgLen := by decide
  errCount := by decide
  payload := by decide
  complete := by decide
  view := by decide
  canonical := by decide
  below := by
    intro c hc
    simp [midCodec] at hc
    subst hc
    decide
  written := fun _ i hi => by
    have hi : i < 1 := hi
    match i, hi with
    | 0, _ => rfl
  viewWritten := fun h => absurd h (by decide)

theorem rbInv_12 : RbInv Config.vectorCfg rb12 where
  usedLength := by decide
  usedRange := by decide
  wr := by decide
  rd := by decide
  count := by decide
  cursors := by decide
  bytes := by decide
  wrHeld := by decide
  rdHeld := by decide
  hwm := by decide
  canonical := by decide
  below := by
    intro c hc
    simp [rb12] at hc
    rcases hc with rfl | rfl | rfl <;> decide

/-- The ring buffer after R14 with its oldest slot held for reading. -/
def rb17 : Rb := { rb14 with rdHeld := true }

theorem rbInv_17 : RbInv Config.vectorCfg rb17 where
  usedLength := by decide
  usedRange := by decide
  wr := by decide
  rd := by decide
  count := by decide
  cursors := by decide
  bytes := by decide
  wrHeld := by decide
  rdHeld := by decide
  hwm := by decide
  canonical := by decide
  below := by
    intro c hc
    simp [rb17, rb14] at hc
    rcases hc with rfl | rfl | rfl | rfl | rfl | rfl | rfl <;> decide

/-- A block at work: a message received, a slot held for writing, the scheduler as given. -/
def working (now : Nat) (x : Sch) (ins : List Input) : State :=
  { schAt now x with codec := codec17, rb := rb12, evq := [msg17], inputs := ins }

theorem inv_working {now : Nat} {x : Sch} {ins : List Input} (h : SchInv Config.vectorCfg x)
    (hw : x.xphase = .sleep → x.wake ≤ now + 1000) : Inv (working now x ins) where
  cfg := by show Config.vectorCfg.wf = true; decide
  codec := codecInv_17
  rb := rbInv_12
  sch := h
  evq := by
    intro e he
    have he : e ∈ [msg17] := he
    rw [List.mem_singleton.1 he]
    decide
  wakeNear := hw

theorem viewInv_working (now : Nat) (x : Sch) (ins : List Input) : ViewInv (working now x ins) := by
  intro _
  show lastMsg [msg17] = some (0x01#8, 3, readBytes .msgbuf codec17.msgbuf 0 3)
  decide

theorem schInv_30 : SchInv Config.vectorCfg sch30 :=
  schInv_two (d := 3000) (o := 5000) rfl (by decide) (by decide) (by decide) (by decide)
    (by decide) (by decide) (by decide) (by decide)

/-- S31 at t=200: the first command in its last slice. -/
def sch31 : Sch :=
  { sch2 500 500 with schState := .running, xphase := .sleep, slice := 500, wake := 500 }

theorem schInv_31 : SchInv Config.vectorCfg sch31 :=
  schInv_two (d := 500) (o := 500) rfl (by decide) (by decide) (by decide) (by decide)
    (by decide) (by decide) (by decide) (by decide)

/-- S33 at t=100: the callout of the first command outstanding. -/
def sch33 : Sch :=
  { sch2 0 100 with schState := .running, xphase := .execWait, callout := .run, wake := 100 }

theorem schInv_33 : SchInv Config.vectorCfg sch33 :=
  schInv_two (d := 0) (o := 100) rfl (by decide) (by decide) (by decide) (by decide)
    (by decide) (by decide) (by decide) (by decide)

theorem schInv_loaded : SchInv Config.vectorCfg (sch2 100 100) :=
  schInv_two (d := 100) (o := 100) rfl (by decide) (by decide) (by decide) (by decide)
    (by decide) (by decide) (by decide) (by decide)

/-! ### Witnesses: encoding and steps -/

theorem witness_OpcodeMapSelectsByMatchAndMask :
    decode 0x21000002#32 [0xAA#8] = .ok (.rbFill 2#24 [0xAA#8]) ∧
      0x21FFFFFF#32 &&& (opcodeRow (.rbFill 2#24 [])).mask =
        (opcodeRow (.rbFill 2#24 [])).base ∧
      takesBlock (.rbFill 2#24 []) = true ∧
      0x36000001#32 &&& (opcodeRow (.schExecDone false)).mask =
        (opcodeRow (.schExecDone false)).base ∧
      takesBlock (.schExecDone false) = false := by decide

/-- Each ground of R118, at the edges of its range. -/
theorem witness_IllegalWordsAreExactlyR118AndChangeNothing :
    decodeAt .host 0x0FFFFFFF#32 [] = .error .reservedUnit ∧
      decodeAt .host 0x40000000#32 [] = .error .reservedUnit ∧
      decodeAt .host 0x15000000#32 [] = .error .unassignedOp ∧
      decodeAt .host 0x27000000#32 [] = .error .unassignedOp ∧
      decodeAt .host 0x37000000#32 [] = .error .unassignedOp ∧
      decodeAt .dec 0x10800000#32 [] = .error .mustBeZero ∧
      decodeAt .host 0x13010000#32 [] = .error .mustBeZero ∧
      decodeAt .host 0x1300FFFF#32 [] = .ok (.codecEncode 0xFFFF#16 []) ∧
      decodeAt .host 0x26000001#32 [] = .error .mustBeZero ∧
      decodeAt .host 0x35000001#32 [] = .error .mustBeZero ∧
      decodeAt .host 0x36000002#32 [] = .error .mustBeZero ∧
      decodeAt .prod 0x22000000#32 [0x00#8] = .error .unexpectedData ∧
      decodeAt .host 0x12000000#32 [0x5E#8] = .error .portNotAdmitted ∧
      decodeAt .dec 0x22FFFFFF#32 [] = .error .portNotAdmitted ∧
      decodeAt .prod 0x30000000#32 [] = .error .portNotAdmitted ∧
      ({ State.reset with inputs := [.op .prod 0x30000000#32 []] } : State).inputs =
        .op .prod 0x30000000#32 [] :: [] ∧
      ([] : Bytes).length < dataBlockBound := by decide

theorem witness_StepRunsTheDecodedOperation :
    ({ State.reset with inputs := [.op .prod 0x21000003#32 [0xAA#8], .executor] } : State).inputs =
        .op .prod 0x21000003#32 [0xAA#8] :: [.executor] ∧
      decode 0x21000003#32 [0xAA#8] = .ok (.rbFill 3#24 [0xAA#8]) ∧
      (Instr.rbFill 3#24 [0xAA#8]).wf = true ∧ admits (.rbFill 3#24 [0xAA#8]) .prod = true := by
  decide

/-- The four clauses, a sleep one millisecond before its end and at its end. -/
theorem witness_StepTakesTheTurnOfExecutorOrTime :
    (working 2999 sch30 [.time 1]).inputs = .time 1 :: [] ∧
      (working 2999 sch30 [.executor]).inputs = .executor :: [] ∧ sch30.xphase = .sleep ∧
      2999 < sch30.wake ∧ sch33.xphase = .execWait ∧ (sch2 100 100).xphase = .idle ∧
      (working 3000 sch30 []).inputs = [] ∧ sch30.wake ≤ 3000 := by decide

/-! ### Witnesses: CODEC -/

theorem witness_CodecReqResetActsAtTheNextDecode :
    ∃ t u, exec .codecReqReset { State.reset with codec := midCodec } = .next t ∧
      exec .codecReset { State.reset with codec := midCodec } = .next u := ⟨_, _, rfl, rfl⟩

theorem witness_CodecDecodeResult :
    (∃ t c es, exec (.codecDecode [0x5E#8]) State.reset = .next t ∧
      decodeByte State.reset.cfg t.codec 0x4D#8 1 = .ok (c, es)) ∧
    midCodec.resetReq = true ∧ CodecInv Config.vectorCfg midCodec ∧ codec17.resetReq = false ∧
    CodecInv Config.vectorCfg codec17 :=
  ⟨⟨_, _, _, rfl, rfl⟩, rfl, codecInv_mid, rfl, codecInv_17⟩

theorem witness_P5SyncSearchSteps :
    Config.vectorCfg.protocol = .p5E4D ∧ codec17.dstate = .waitSync1 ∧
      ({ codec17 with dstate := .waitSync2 } : Codec).dstate = .waitSync2 := by decide

/-- The longest frame there is, and one payload byte more. -/
theorem witness_P5HeaderSteps :
    h5.protocol = .p5E4D ∧
      (0x9D#8 : Byte) =
        (if Config.vectorCfg.includeHeaderCrc then crc8Update 0x9D#8 0xFA#8 else 0x9D#8) ∧
      ({ Codec.reset with dstate := .readAddr } : Codec).dstate = .readAddr ∧
      ({ Codec.reset with dstate := .readLenHi } : Codec).dstate = .readLenHi ∧
      ({ Codec.reset with dstate := .readLenLo, len := 65280 } : Codec).dstate = .readLenLo ∧
      ¬Config.vectorCfg.maxFrame < 65280 + (0xFA#8 : Byte).toNat + 6 ∧
      Config.vectorCfg.maxFrame < 65280 + (0xFB#8 : Byte).toNat + 6 := by decide

/-- The last byte of `MSGBUF`, the longest message, and a wrong CRC. -/
theorem witness_P5PayloadAndCrcSteps :
    ({ midCodec with idx := 65529 } : Codec).dstate = .readPayload ∧
      65529 < Config.vectorCfg.msgbufSize ∧
      ({ codec17 with dstate := .readCrc, len := 65530 } : Codec).dstate = .readCrc ∧
      (0x48#8 : Byte) = codec17.crc ∧ 65530 ≤ Config.vectorCfg.msgbufSize ∧
      (0x49#8 : Byte) ≠ codec17.crc := by decide

/-- Also the longest payload: its last byte, and the one before. -/
theorem witness_P7ByteSteps :
    p7.protocol = .p7C6E ∧ ({ midCodec with dstate := .readLen8 } : Codec).dstate = .readLen8 ∧
      ({ midCodec with len := 256, idx := 255 } : Codec).dstate = .readPayload ∧
      (255 < 256 ∧ 255 + 1 = 256) ∧ (254 < 256 ∧ 254 + 1 ≠ 256) := by decide

/-- The largest address and the next; the longest payload of either variant and the next; P7C6E's
shortest. -/
theorem witness_CodecEncodeResult :
    255 < (0x100#16).toNat ∧ (0xFF#16).toNat ≤ 255 ∧ State.reset.cfg.protocol = .p5E4D ∧
      (∃ payload : Bytes, State.reset.cfg.maxFrame < payload.length + 6 ∧
        payload.length = 65531) ∧
      (∃ payload : Bytes, payload.length + 6 ≤ State.reset.cfg.maxFrame ∧
        payload.length = 65530) ∧
      (withCfg p7).cfg.protocol = .p7C6E ∧ ([] : Bytes).length = 0 ∧
      (∃ payload : Bytes, 256 < payload.length ∧ payload.length = 257) ∧
      (∃ payload : Bytes, payload.length = 256) ∧ 0 < ([0xAA#8] : Bytes).length :=
  have len (n : Nat) : ∃ p : Bytes, p.length = n := ⟨List.replicate n 0x00#8, List.length_replicate⟩
  ⟨by decide, by decide, rfl,
    (len 65531).imp fun p h => ⟨by rw [h]; decide, h⟩,
    (len 65530).imp fun p h => ⟨by rw [h]; decide, h⟩, rfl, rfl,
    (len 257).imp fun p h => ⟨by rw [h]; decide, h⟩, len 256, by decide⟩

theorem witness_CodecMsgCopyResult :
    State.reset.codec.msgValid = false ∧ codec17.msgValid = true ∧
      codec17.msgLen ≤ Config.vectorCfg.msgbufSize := by decide

/-- An encoded frame of either variant. -/
theorem witness_RoundTrip :
    (Config.vectorCfg.wf = true ∧ codec17.dstate = .waitSync1 ∧ codec17.resetReq = false ∧
      ∃ t, exec (.codecEncode 0x01#16 [0x01#8, 0x02#8, 0x03#8])
          { State.reset with codec := codec17 } = .next t ∧
        t.reply = some (.ok (.frame frame17))) ∧
    (p7.wf = true ∧ ∃ t, exec (.codecEncode 0x05#16 [0xAA#8]) (withCfg p7) = .next t ∧
      t.reply = some (.ok (.frame [0x7C#8, 0x6E#8, 0x05#8, 0x01#8, 0xAA#8]))) :=
  ⟨⟨by decide, rfl, rfl, _, rfl, by decide +kernel⟩, by decide, _, rfl, by decide +kernel⟩

theorem witness_FragmentationInvariance : CodecInv Config.vectorCfg midCodec := codecInv_mid

/-- C36's garbage, from a decoder that has completed a frame. -/
theorem witness_ResyncAfterGarbage :
    Config.vectorCfg.wf = true ∧ codec17.dstate = .waitSync1 ∧ codec17.resetReq = false ∧
      codec17.lastOk = true ∧ codec17.errCount < Config.vectorCfg.maxErrors ∧
      ([0xFF#8, 0x00#8, 0x11#8] : Bytes) ≠ [] ∧
      (∀ b ∈ ([0xFF#8, 0x00#8, 0x11#8] : Bytes), b ≠ sync1Of Config.vectorCfg) ∧
      ∃ t, exec (.codecEncode 0x01#16 [0x01#8, 0x02#8, 0x03#8])
          { State.reset with codec := codec17 } = .next t ∧
        t.reply = some (.ok (.frame frame17)) :=
  ⟨by decide, rfl, rfl, rfl, by decide, by decide, by decide, _, rfl, by decide +kernel⟩

/-- C30 (a payload byte), C31 (the CRC byte), C32 and C33 (the address byte). -/
theorem witness_ChangedByteIsDetected :
    Config.vectorCfg.wf = true ∧ h5.wf = true ∧ h5.includeHeaderCrc = true ∧
      Config.vectorCfg.includeHeaderCrc = false ∧ codec17.dstate = .waitSync1 ∧
      (∃ t, exec (.codecEncode 0x01#16 [0x01#8, 0x02#8, 0x03#8])
          { State.reset with codec := codec17 } = .next t ∧
        t.reply = some (.ok (.frame frame17))) ∧
      (∃ t, exec (.codecEncode 0x01#16 [0x01#8, 0x02#8, 0x03#8]) (withCfg h5) = .next t ∧
        t.reply = some (.ok (.frame (frame17.dropLast ++ [0x47#8])))) ∧
      frame17[5]? ≠ some 0x00#8 ∧ frame17[8]? ≠ some 0x49#8 ∧ frame17[2]? ≠ some 0x00#8 :=
  ⟨by decide, by decide, rfl, rfl, rfl, ⟨_, rfl, by decide +kernel⟩, ⟨_, rfl, by decide +kernel⟩, by decide,
    by decide, by decide⟩

/-- C27, from two errors counted: the limit is reached. -/
theorem witness_ErrorReportsAreCountedAndLimited :
    ∃ t, exec (.codecDecode [0x5E#8, 0x00#8, 0x5E#8, 0x5E#8])
        { State.reset with codec := { codec17 with errCount := 2 } } = .next t ∧
      codec17.resetReq = false ∧ 2 ≤ Config.vectorCfg.maxErrors := ⟨_, rfl, rfl, by decide⟩

theorem witness_StepKeepsTheMessageView :
    ∃ t, Inv (working 2500 sch30 [.op .dec 0x12000000#32 [0xFF#8]]) ∧
      ViewInv (working 2500 sch30 [.op .dec 0x12000000#32 [0xFF#8]]) ∧
      codec17.msgValid = true ∧
      step (working 2500 sch30 [.op .dec 0x12000000#32 [0xFF#8]]) = .next t :=
  ⟨_, inv_working schInv_30 (by decide), viewInv_working _ _ _, rfl, rfl⟩

theorem witness_CrcIsLinear :
    ([0x01#8, 0x02#8] : Bytes).length = ([0xFF#8, 0x00#8] : Bytes).length := rfl

/-! ### Witnesses: RB -/

/-- Full, and one slot short of full. -/
theorem witness_RbTryGetWriteResult :
    State.reset.cfg.rbSlots ≤ rb14.count ∧ rb12.count < State.reset.cfg.rbSlots := by decide

/-- One byte past the slot's end, up to its end, and nothing at its end. -/
theorem witness_RbFillResult :
    rb14.wrHeld = false ∧ rb12.wrHeld = true ∧
      State.reset.cfg.slotSize < (3#24).toNat + ([0x44#8, 0x55#8] : Bytes).length ∧
      (2#24).toNat + ([0x44#8, 0x55#8] : Bytes).length ≤ State.reset.cfg.slotSize ∧
      (4#24).toNat + ([] : Bytes).length ≤ State.reset.cfg.slotSize ∧
      rb12.wr < State.reset.cfg.rbSlots := by decide

theorem witness_RbCommitWriteResult :
    rb14.wrHeld = false ∧ rb12.wrHeld = true ∧ State.reset.cfg.slotSize < (5#24).toNat ∧
      (4#24).toNat ≤ State.reset.cfg.slotSize ∧ (0#24).toNat ≤ State.reset.cfg.slotSize ∧
      rb12.wr < rb12.used.length := by decide

theorem witness_RbTryGetReadResult :
    (Rb.reset 2).count = 0 ∧ 0 < rb14.count ∧ rb14.used[rb14.rd]? = some 3 ∧
      rb14.rd < State.reset.cfg.rbSlots ∧ 3 ≤ State.reset.cfg.slotSize := by decide

theorem witness_RbCommitReadResult :
    rb14.rdHeld = false ∧ rb17.rdHeld = true ∧ rb17.used[rb17.rd]? = some 3 := by decide

/-- Each clause: an accepted write commit, an accepted read commit, a fill, a get for reading. -/
theorem witness_UnreadSlotsAreAQueue :
    Config.vectorCfg.wf = true ∧ RbInv Config.vectorCfg rb12 ∧ RbInv Config.vectorCfg rb17 ∧
      (∃ t, exec (.rbCommitWrite 4#24) (rbState rb12) = .next t ∧
        t.reply = some (.ok .none)) ∧
      (∃ t, exec .rbCommitRead (rbState rb17) = .next t ∧ t.reply = some (.ok .none)) ∧
      (∃ t, exec (.rbFill 0#24 [0xAA#8]) (rbState rb12) = .next t) ∧
      ∃ t, exec .rbTryGetRead (rbState rb17) = .next t ∧
        t.reply = some (.ok (.slotData 0 3 [0x11#8, 0x22#8, 0x33#8])) :=
  ⟨by decide, rbInv_12, rbInv_17, ⟨_, rfl, rfl⟩, ⟨_, rfl, rfl⟩, ⟨_, rfl⟩, _, rfl, by decide⟩

/-! ### Witnesses: the cyclogram file -/

/-- Busy; no zero byte; a table of as many lines as fit, and one line more; with and without a line
in error. -/
theorem witness_SchLoadResult :
    sch30.busy = true ∧ (sch2 100 100).busy = false ∧ 0x00#8 ∉ ascii "m" ∧
      ascii "p" ++ [0x00#8] ++ ascii "0 A\n" = ascii "p" ++ 0x00#8 :: ascii "0 A\n" ∧
      0x00#8 ∉ ascii "p" ∧
      (splitLines (ascii "0 A\n")).length ≤ ({ Config.vectorCfg with maxLines := 1 } : Cfg).maxLines ∧
      ({ Config.vectorCfg with maxLines := 1 } : Cfg).maxLines <
        (splitLines (ascii "0 A\n\n")).length ∧
      (∃ l ∈ (splitLines (ascii "0 X\n")).map (parseLine Config.vectorCfg Config.vectorEnv),
        l.err ≠ .none) ∧
      ¬∃ l ∈ (splitLines (ascii "0 A\n")).map (parseLine Config.vectorCfg Config.vectorEnv),
        l.err ≠ .none := by decide +kernel

theorem witness_SplitLinesLaws :
    0x0A#8 ∉ ascii "a\r" ∧ ascii "a\r" = ascii "a" ++ [0x0D#8] ∧ 0x0A#8 ∉ ascii "b" ∧
      (ascii "b").getLast? ≠ some 0x0D#8 ∧ ([] : Bytes).getLast? ≠ some 0x0D#8 := by decide +kernel

theorem witness_ComputeAbsSumsDelays :
    (sch2 100 100).lines[0]? = some (cmd 1#32 100 100) ∧ 0 < 1 ∧
      (sch2 100 100).lines[1]? = some (cmd 2#32 200 200) ∧ 1 ≤ 1 := by decide

theorem witness_TokensAreMaximalRuns :
    ascii "p1" ≠ [] ∧ (∀ b ∈ ascii "p1", b ≠ 0x20#8 ∧ b ≠ 0x09#8) ∧
      (ascii " p2").head? = some 0x20#8 ∧ (ascii "\tp2").head? = some 0x09#8 ∧
      ([] : Bytes).head? = none := by decide +kernel

/-- One line for each clause. -/
theorem witness_ParseLineChecksInOrder :
    0x23#8 ∉ ascii "0 A" ∧ ascii "0 A#x" = ascii "0 A" ++ 0x23#8 :: ascii "x" ∧
      tokensOf (ascii " ") = [] ∧ tokensOf (ascii "1") = [ascii "1"] ∧
      tokensOf (ascii "1.1000 A b") = [ascii "1.1000", ascii "A", ascii "b"] ∧
      parseTime .integerMs (ascii "1.1000") = none ∧ parseTime .integerMs (ascii "0") = some 0 ∧
      (∀ r ∈ Config.vectorCfg.registry, r.name ≠ ascii "a") ∧
      lookup Config.vectorCfg.registry (ascii "A") = some ⟨ascii "A", 1#32, []⟩ := by decide +kernel

/-- The largest seconds and milliseconds, and the next; three digits of fraction, and one. -/
theorem witness_TimeTokens :
    isDigits (ascii "65535") = true ∧ decimal (ascii "65535") = 65535 ∧
      isDigits (ascii "65536") = true ∧ isDigits (ascii "999") = true ∧
      isDigits (ascii "1000") = true ∧ (ascii "999").length = 3 ∧ isDigits (ascii "5") = true ∧
      parseTime .exact3 (ascii "65535.999") = some 65535999 ∧
      parseTime .integerMs (ascii "1.5") = some 1005 := by decide +kernel

theorem witness_RegistryLookupIsExact :
    lookup Config.vectorCfg.registry (ascii "B") = some ⟨ascii "B", 2#32, []⟩ ∧
      (Config.vectorCfg.registry.map RegEntry.name).Nodup ∧
      (⟨ascii "B", 2#32, []⟩ : RegEntry) ∈ Config.vectorCfg.registry := by decide +kernel

/-! ### Witnesses: the scheduler's operations -/

/-- Busy; not loaded; past the last command; at the last command. -/
theorem witness_SchStartResult :
    sch30.busy = true ∧ Sch.reset.busy = false ∧ Sch.reset.schState ≠ .loaded ∧
      (sch2 100 100).busy = false ∧ (sch2 100 100).schState = .loaded ∧
      firstCmdAtOrAfter (sch2 100 100).lines (2#24).toNat = none ∧
      firstCmdAtOrAfter (sch2 100 100).lines (1#24).toNat = some 1 := by decide

theorem witness_SchStepIssueResult :
    sch33.busy = true ∧ Sch.reset.busy = false ∧ Sch.reset.schState ≠ .loaded ∧
      (sch2 100 100).busy = false ∧ (sch2 100 100).schState = .loaded ∧
      firstCmdAtOrAfter (sch2 100 100).lines (2#24).toNat = none ∧
      firstCmdAtOrAfter (sch2 100 100).lines (0#24).toNat = some 0 := by decide

theorem witness_SchStopResults :
    (sch2 100 100).schState ≠ .running ∧ sch30.schState = .running := by decide

theorem witness_SchStatusResult :
    (true = true ↔ sch30.xphase ≠ .idle ∨ sch30.callout ≠ .none) ∧
      (false = true ↔ Sch.reset.xphase ≠ .idle ∨ Sch.reset.callout ≠ .none) := by decide

/-- A step's callout at a line, in a table of two. -/
def stepping (line : Nat) : Sch := { sch2 100 100 with callout := .step, calloutLine := line }

theorem witness_SchExecDoneOfStepResult :
    (sch2 100 100).callout = .none ∧ (stepping 0).callout = .step ∧
      nextCmdAfter (stepping 0).lines (stepping 0).calloutLine = some 1 ∧
      nextCmdAfter (stepping 1).lines (stepping 1).calloutLine = none := by decide

/-- The last command's callout, without a stop and with one issued at that command. -/
def lastCallout (stop : Bool) : Sch :=
  { sch33 with pos := 1, calloutLine := 1, stopNext := stop, stopIssuer := if stop then 1 else 0 }

/-- The first command's callout, and the last one's. -/
theorem witness_SchExecDoneOfRunResult :
    sch33.callout = .run ∧ 0 = sch33.calloutLine ∧ sch33.lines[0]? = some (cmd 1#32 0 100) ∧
      nextCmdAfter sch33.lines 0 = some 1 ∧
      (lastCallout false).callout = .run ∧ 1 = (lastCallout false).calloutLine ∧
      (lastCallout false).lines[1]? = some (cmd 2#32 200 200) ∧
      nextCmdAfter (lastCallout false).lines 1 = none ∧
      (lastCallout false).pos < (lastCallout false).lines.length ∧ (lastCallout false).pos = 1 ∧
      (lastCallout false).stopNext = false ∧ (lastCallout true).pos = 1 ∧
      (lastCallout true).stopIssuer = 1 := by decide

/-! ### Witnesses: the executor and runs -/

/-- A run at its loop head. -/
def atHead (delay : Nat) : Sch := { sch2 delay 5000 with schState := .running, xphase := .head }

theorem witness_HeadStepResult :
    (working 0 (atHead 1000) [.executor]).inputs = .executor :: [] ∧
      (atHead 1000).xphase = .head ∧
      (atHead 1000).lines[(atHead 1000).pos]? = some (cmd 1#32 1000 5000) ∧
      (atHead 1000).schState = .running ∧
      ({ atHead 1000 with schState := .loaded } : Sch).schState ≠ .running := by decide

/-- The wake of a slice that is not the last, of the last one, and with the check after a sleep. -/
theorem witness_WakeStepResult :
    (working 3000 sch30 [.executor]).inputs = .executor :: [] ∧ sch30.xphase = .sleep ∧
      sch30.wake ≤ 3000 ∧ sch30.lines[sch30.pos]? = some (cmd 1#32 3000 5000) ∧
      sch30.slice ≤ 3000 ∧ 3000 - sch30.slice ≠ 0 ∧ sch30.schState = .running ∧
      sch31.lines[sch31.pos]? = some (cmd 1#32 500 500) ∧ 500 - sch31.slice = 0 ∧
      Config.vectorCfg.stopCheckAfterSleep = false ∧
      ({ Config.vectorCfg with stopCheckAfterSleep := true } : Cfg).stopCheckAfterSleep = true ∧
      ({ sch31 with schState := .loaded } : Sch).schState ≠ .running := by decide

/-- An exit that moves the position, one whose next command is the position already, and one with
nothing to move to. -/
theorem witness_ExitRunResult :
    (atHead 0).lines[(atHead 0).pos]? = some (cmd 1#32 0 5000) ∧
      ({ atHead 0 with stopNext := true } : Sch).stopNext = true ∧
      nextCmdAfter (atHead 0).lines 0 = some 1 ∧ 1 ≠ (atHead 0).pos ∧
      ({ atHead 0 with stopNext := true, pos := 1 } : Sch).pos = 1 ∧
      nextCmdAfter (atHead 0).lines 1 = none ∧ (atHead 0).stopNext = false := by decide

/-- A stop, a start, the executor's turn and the answer to a run's callout. -/
theorem witness_SchedulerTransitions :
    (∃ t, Inv (working 2500 sch30 [.op .host 0x33000000#32 []]) ∧
      step (working 2500 sch30 [.op .host 0x33000000#32 []]) = .next t) ∧
    (∃ t, Inv (working 0 (sch2 100 100) [.op .host 0x31000000#32 []]) ∧
      step (working 0 (sch2 100 100) [.op .host 0x31000000#32 []]) = .next t) ∧
    (∃ t, Inv (working 3000 sch30 [.executor]) ∧ step (working 3000 sch30 [.executor]) = .next t) ∧
    ∃ t, Inv (working 100 sch33 [.op .host 0x36000001#32 []]) ∧
      step (working 100 sch33 [.op .host 0x36000001#32 []]) = .next t :=
  ⟨⟨_, inv_working schInv_30 (by decide), rfl⟩, ⟨_, inv_working schInv_loaded (by decide), rfl⟩,
    ⟨_, inv_working schInv_30 (by decide), rfl⟩, _, inv_working schInv_33 (by decide), rfl⟩

/-- Three slices, the last one of 500 ms. -/
theorem witness_CountdownTakesItsDelay :
    (atHead 2500).xphase = .head ∧ (atHead 2500).schState = .running ∧
      (atHead 2500).lines[(atHead 2500).pos]? = some (cmd 1#32 2500 5000) ∧
      2 = (2500 - 1) / 1000 ∧
      (working 0 (atHead 2500) (countdownInputs 2 2500 ++ [])).inputs =
        countdownInputs 2 2500 ++ [] ∧
      (atHead 0).lines[(atHead 0).pos]? = some (cmd 1#32 0 5000) ∧ 0 = (0 - 1) / 1000 ∧
      (atHead 1000).lines[(atHead 1000).pos]? = some (cmd 1#32 1000 5000) ∧
      0 = (1000 - 1) / 1000 := by decide

/-- S20: both commands from line 0. -/
theorem witness_RunTiming :
    Inv (working 5 (sch2 100 100)
        (.op .host (0x31000000#32 ||| (0#24).setWidth 32) [] ::
          (runSchedule (sch2 100 100).lines [0, 1] ++ []))) ∧
      (sch2 100 100).busy = false ∧ (sch2 100 100).schState = .loaded ∧
      firstCmdAtOrAfter (sch2 100 100).lines (0#24).toNat = [0, 1].head? ∧
      commandsToEnd (sch2 100 100).lines [0, 1] ∧ [0, 1] = [0] ++ 1 :: [] :=
  ⟨inv_working schInv_loaded (by decide), rfl, rfl, by decide,
    ⟨by decide, (by decide : nextCmdAfter (sch2 100 100).lines 1 = none)⟩, rfl⟩

/-- S30 (a slice that is not the last) and S31 (the last slice, the command's answer after it). -/
theorem witness_StopLatency :
    (Inv (working 2500 sch30 [.op .host 0x33000000#32 [], .time (3000 - 2500), .executor,
        .executor]) ∧
      sch30.xphase = .sleep ∧ sch30.schState = .running ∧ sch30.wake = 3000 ∧
      Config.vectorCfg.stopCheckAfterSleep = false ∧
      sch30.lines[sch30.pos]? = some (cmd 1#32 3000 5000) ∧ sch30.slice < 3000) ∧
    (Inv (working 200 sch31 [.op .host 0x33000000#32 [], .time (500 - 200), .executor,
        .executor, .op .host (if true then 0x36000001#32 else 0x36000000#32) [], .executor]) ∧
      sch31.xphase = .sleep ∧ sch31.schState = .running ∧ sch31.wake = 500 ∧
      sch31.lines[sch31.pos]? = some (cmd 1#32 500 500) ∧ sch31.slice = 500) :=
  ⟨⟨inv_working schInv_30 (by decide), by decide⟩, inv_working schInv_31 (by decide), by decide⟩

/-- S33. -/
theorem witness_EmbeddedStopAdvancesOnce :
    Inv (working 100 sch33 [.op .host 0x34000000#32 [],
        .op .host (if true then 0x36000001#32 else 0x36000000#32) [], .executor]) ∧
      sch33.callout = .run ∧ sch33.schState = .running ∧
      nextCmdAfter sch33.lines sch33.pos = some 1 :=
  ⟨inv_working schInv_33 (by decide), by decide⟩

/-! ### Witnesses: the whole block -/

theorem witness_OnlyWellFormedConfigurationsConstruct :
    (State.construct h5 Config.vectorEnv 7).isSome = true ∧
      (State.construct h4 Config.vectorEnv 7).isSome = true ∧
      (State.construct { h4 with includeHeaderCrc := false } Config.vectorEnv 7).isSome = false ∧
      (State.construct { h5 with protocol := .p7C6E } Config.vectorEnv 7).isSome = false := by decide

theorem witness_ConstructionReset : ∃ s, State.construct p7 Config.vectorEnv 7 = some s := ⟨_, rfl⟩

/-- One step of each kind, from a state at work. -/
theorem witness_StepKeepsTheInvariant :
    (∃ t, Inv (working 2500 sch30 [.op .prod 0x22000004#32 []]) ∧
      step (working 2500 sch30 [.op .prod 0x22000004#32 []]) = .next t) ∧
    (∃ t, Inv (working 3000 sch30 [.executor]) ∧ step (working 3000 sch30 [.executor]) = .next t) ∧
    (∃ t, Inv (working 2500 sch30 [.time 1]) ∧ step (working 2500 sch30 [.time 1]) = .next t) ∧
    ∃ t, Inv (working 3000 sch30 []) ∧ step (working 3000 sch30 []) = .next t :=
  ⟨⟨_, inv_working schInv_30 (by decide), rfl⟩, ⟨_, inv_working schInv_30 (by decide), rfl⟩,
    ⟨_, inv_working schInv_30 (by decide), rfl⟩, _, inv_working schInv_30 (by decide), rfl⟩

theorem witness_EveryStepHasANextState :
    Inv (working 2500 sch33 [.op .dec 0x12000000#32 [0x5E#8], .time 1]) ∧
      ∀ a, (working 2500 sch33 [.op .dec 0x12000000#32 [0x5E#8], .time 1]).inputs.head? = some a →
        a.wf = true := by
  refine ⟨inv_working schInv_33 (by decide), fun a h => ?_⟩
  cases h
  decide

/-- An operation that is answered `OK`, and one that is not. -/
theorem witness_EveryOperationReplies :
    Inv (working 2500 sch30 []) ∧
      (∃ t, exec (.rbCommitWrite 4#24) (working 2500 sch30 []) = .next t ∧
        t.reply = some (.ok .none)) ∧
      ∃ t, exec (.schStart 0#24) (working 2500 sch30 []) = .next t ∧ t.reply = some .busy :=
  ⟨inv_working schInv_30 (by decide), ⟨_, rfl, rfl⟩, _, rfl, rfl⟩

/-- One operation of each unit, and the encoder in two states. -/
theorem witness_UnitsAreSeparate :
    unitOf (encodeWord (.codecDecode [])) = 1 ∧ unitOf (encodeWord (.rbFill 0#24 [])) = 2 ∧
      unitOf (encodeWord .schStatus) = 3 ∧
      (∃ t, exec (.rbFill 0#24 [0x01#8]) (working 0 sch33 []) = .next t) ∧
      (∃ t, exec (.codecEncode 0x01#16 []) (working 0 sch33 []) = .next t) ∧
      State.reset.cfg = (working 0 sch33 []).cfg :=
  ⟨by decide, by decide, by decide, ⟨_, rfl⟩, ⟨_, rfl⟩, rfl⟩

theorem witness_ConfigurationEventsAndTimeOnlyGrow :
    ∃ t, step (working 3000 sch31 [.executor]) = .next t := ⟨_, rfl⟩

theorem witness_EverySleepEnds :
    (working 2500 sch30 []).inputs = [] ∧ (working 2500 sch30 []).sch.xphase = .sleep := by decide

end Sys2Proof.Tests
end

section
/-! SUPPORT. The well-formed configurations (00_scope.md R10, R11), check by check, and what is
constructed from them. -/

namespace Sys2Proof

/-- `List.pairwise_iff_getElem` for entries looked up by position, the form R58 has in O52. -/
theorem pairwise_iff_getElem? {α : Type} {R : α → α → Prop} {l : List α} :
    l.Pairwise R ↔ ∀ (i j : Nat) (a b : α), i < j → l[i]? = some a → l[j]? = some b → R a b := by
  rw [List.pairwise_iff_getElem]
  constructor
  · intro h i j a b hij ha hb
    obtain ⟨hi, rfl⟩ := List.getElem?_eq_some_iff.mp ha
    obtain ⟨hj, rfl⟩ := List.getElem?_eq_some_iff.mp hb
    exact h i j hi hj hij
  · intro h i j hi hj hij
    exact h i j _ _ hij (List.getElem?_eq_getElem hi) (List.getElem?_eq_getElem hj)

end Sys2Proof

namespace Sys2Proof.Cfg

variable (cfg : Cfg)

@[simp] theorem wfFrame_iff : cfg.wfFrame = true ↔ cfg.maxFrame = 65535 ∨ cfg.maxFrame = 65536 := by
  simp [wfFrame]

@[simp] theorem wfErrors_iff : cfg.wfErrors = true ↔ cfg.maxErrors ≤ 4294967295 := by
  simp only [wfErrors, decide_eq_true_eq]
  omega

@[simp] theorem wfSlots_iff : cfg.wfSlots = true ↔ 1 ≤ cfg.rbSlots ∧ cfg.rbSlots ≤ 65536 := by
  simp [wfSlots]

@[simp] theorem wfSlotSize_iff :
    cfg.wfSlotSize = true ↔ 1 ≤ cfg.slotSize ∧ cfg.slotSize ≤ 16777215 := by
  simp [wfSlotSize]

@[simp] theorem wfLines_iff : cfg.wfLines = true ↔ cfg.maxLines ≤ 16777216 := by
  simp [wfLines]

@[simp] theorem wfVariant_iff :
    cfg.wfVariant = true ↔ (cfg.includeHeaderCrc = true → cfg.protocol = .p5E4D) := by
  cases h : cfg.includeHeaderCrc <;> simp [wfVariant, h]

/-- The check names `SYNC1`, R10 names `SYNC2`: there is no third value. -/
@[simp] theorem wfHdrCrcFirst_iff :
    cfg.wfHdrCrcFirst = true ↔ (cfg.hdrCrcFirst = .sync2 → cfg.includeHeaderCrc = true) := by
  cases h : cfg.hdrCrcFirst <;> simp [wfHdrCrcFirst, h]

/-- The two duplicate checks, on names and on ids, are one condition on pairs of entries. -/
@[simp] theorem wfRegistry_iff :
    cfg.wfRegistry = true ↔ (∀ e ∈ cfg.registry, e.name ≠ []) ∧
      cfg.registry.Pairwise (fun e d => e.name ≠ d.name ∧ e.id ≠ d.id) := by
  rw [List.pairwise_and_iff]
  simp [wfRegistry, List.Nodup, List.pairwise_map]

theorem wf_iff :
    cfg.wf = true ↔
      (cfg.maxFrame = 65535 ∨ cfg.maxFrame = 65536) ∧ cfg.maxErrors ≤ 4294967295 ∧
      (1 ≤ cfg.rbSlots ∧ cfg.rbSlots ≤ 65536) ∧ (1 ≤ cfg.slotSize ∧ cfg.slotSize ≤ 16777215) ∧
      cfg.maxLines ≤ 16777216 ∧ (cfg.includeHeaderCrc = true → cfg.protocol = .p5E4D) ∧
      (cfg.hdrCrcFirst = .sync2 → cfg.includeHeaderCrc = true) ∧
      (∀ e ∈ cfg.registry, e.name ≠ []) ∧
      cfg.registry.Pairwise (fun e d => e.name ≠ d.name ∧ e.id ≠ d.id) := by
  simp only [wf, Bool.and_eq_true, wfFrame_iff, wfErrors_iff, wfSlots_iff, wfSlotSize_iff,
    wfLines_iff, wfVariant_iff, wfHdrCrcFirst_iff, wfRegistry_iff]

end Sys2Proof.Cfg

namespace Sys2Proof.Machine

/-- Construction succeeds exactly on a well-formed configuration, and then leaves the reset state. -/
theorem State.construct_eq_some_iff {cfg : Cfg} {env : Env} {now : Nat} {s : State} :
    State.construct cfg env now = some s ↔ cfg.wf = true ∧ State.resetWith cfg env now = s := by
  simp [State.construct]

theorem State.construct_succeeds_iff {cfg : Cfg} {env : Env} {now : Nat} :
    (∃ s, State.construct cfg env now = some s) ↔ cfg.wf = true := by
  simp [State.construct_eq_some_iff]

/-- Settles O52: construction succeeds exactly on `Cfg.wf`, which is R11's conditions one by one. -/
theorem onlyWellFormedConfigurationsConstruct :
    Obligations.OnlyWellFormedConfigurationsConstruct := by
  intro cfg env now
  rw [State.construct_succeeds_iff, Cfg.wf_iff, pairwise_iff_getElem?]

end Sys2Proof.Machine
end

section
/-! SUPPORT. What an operation can do, said once for each of the three units: the unit it leaves,
the records it emits, and that nothing else of the state changes but the reply. -/

namespace Sys2Proof.Machine

/-! ### Nothing replaced, nothing emitted -/

@[simp] theorem State.withCodec_self (s : State) : s.withCodec s.codec = s := rfl

@[simp] theorem State.withRb_self (s : State) : s.withRb s.rb = s := rfl

@[simp] theorem State.withSch_self (s : State) : s.withSch s.sch = s := rfl

@[simp] theorem State.emit_nil (s : State) : s.emit [] = s := by simp [State.emit]

/-! ### CODEC (40_codec.md R152 to R154) -/

/-- What a CODEC operation can make of CODEC, with the records it emits. -/
inductive CodecOp (cfg : Cfg) (i : Instr) (c : Codec) : Codec → List Event → Prop
  | keep : CodecOp cfg i c c []
  | reset : CodecOp cfg i c (doReset c) []
  | request : CodecOp cfg i c { c with resetReq := true } []
  | decode {chunk : Bytes} {c' : Codec} {es : List Event} (hi : i = .codecDecode chunk)
      (h : decodeChunk cfg (decodeStart c) 0 chunk = .ok (c', es)) : CodecOp cfg i c c' es

/-- The next states of a CODEC operation. -/
def CodecNext (i : Instr) (s t : State) : Prop :=
  ∃ c es a, CodecOp s.cfg i s.codec c es ∧ t = ((s.withCodec c).emit es).answer a

section
variable {s t : State} {i : Instr}

theorem CodecNext.of_done {a : Reply} (h : s.done a = .next t) : CodecNext i s t :=
  ⟨s.codec, [], a, .keep, by simp [done_next.1 h]⟩

theorem execCodecReset_next (h : execCodecReset s = .next t) : CodecNext i s t :=
  ⟨_, [], _, .reset, by rw [State.emit_nil, done_next.1 h]⟩

theorem execCodecReqReset_next (h : execCodecReqReset s = .next t) : CodecNext i s t :=
  ⟨_, [], _, .request, by rw [State.emit_nil, done_next.1 h]⟩

theorem execCodecDecode_next {chunk : Bytes} (h : execCodecDecode chunk s = .next t) :
    CodecNext (.codecDecode chunk) s t := by
  obtain ⟨⟨c, es⟩, hd, ht⟩ := orFault_next.1 h
  exact ⟨c, es, _, .decode rfl hd, done_next.1 ht⟩

/-- The encoder's reply (R171): of the state it takes the configuration only. -/
def encodeReply (cfg : Cfg) (addr : BitVec 16) (payload : Bytes) : Reply :=
  ((encodeFrame cfg addr payload).map fun f => .ok (.frame f)).getD .failed

theorem execCodecEncode_eq (addr : BitVec 16) (payload : Bytes) (s : State) :
    execCodecEncode addr payload s = s.done (encodeReply s.cfg addr payload) := by
  unfold execCodecEncode encodeReply
  cases encodeFrame s.cfg addr payload <;> rfl

theorem execCodecEncode_next {addr : BitVec 16} {payload : Bytes}
    (h : execCodecEncode addr payload s = .next t) : CodecNext i s t := by
  rw [execCodecEncode_eq] at h
  exact .of_done h

theorem execCodecMsgCopy_next (h : execCodecMsgCopy s = .next t) : CodecNext i s t := by
  unfold execCodecMsgCopy at h
  split at h
  · obtain ⟨_, -, ht⟩ := orFault_next.1 h
    exact .of_done ht
  · exact .of_done h

end

/-! ### RB (41_ringbuffer.md R192 to R198) -/

/-- What a ring buffer operation can make of RB. -/
inductive RbOp (cfg : Cfg) (r : Rb) : Rb → Prop
  | keep : RbOp cfg r r
  | getWrite (hc : r.count < cfg.rbSlots) : RbOp cfg r { r with wrHeld := true }
  | fill {o : Nat} {data : Bytes} {m : Memory} (h : slotWrite cfg r r.wr o data = .ok m) :
      RbOp cfg r { r with slots := m }
  | commitWrite {n : Nat} (hh : r.wrHeld = true) (hn : n ≤ cfg.slotSize) :
      RbOp cfg r (commitWrite cfg r n)
  | getRead (hc : 1 ≤ r.count) : RbOp cfg r { r with rdHeld := true }
  | commitRead {n : Nat} (hh : r.rdHeld = true) (hn : r.used[r.rd]? = some n) :
      RbOp cfg r (commitRead cfg r n)
  | readHwm : RbOp cfg r { r with hwm := 0 }

/-- The next states of a ring buffer operation. -/
def RbNext (s t : State) : Prop := ∃ r a, RbOp s.cfg s.rb r ∧ t = (s.withRb r).answer a

section
variable {s t : State}

theorem RbNext.of_done {a : Reply} (h : s.done a = .next t) : RbNext s t :=
  ⟨s.rb, a, .keep, by simp [done_next.1 h]⟩

theorem execRbTryGetWrite_next (h : execRbTryGetWrite s = .next t) : RbNext s t := by
  unfold execRbTryGetWrite at h
  split at h
  · exact .of_done h
  · rename_i hf
    exact ⟨_, _, .getWrite (by simpa [Rb.full] using hf), done_next.1 h⟩

theorem execRbFill_next {off : Imm} {data : Bytes} (h : execRbFill off data s = .next t) :
    RbNext s t := by
  unfold execRbFill at h
  split at h
  · split at h
    · exact .of_done h
    · obtain ⟨m, hm, ht⟩ := orFault_next.1 h
      exact ⟨_, _, .fill hm, done_next.1 ht⟩
  · exact .of_done h

theorem execRbCommitWrite_next {n : Imm} (h : execRbCommitWrite n s = .next t) : RbNext s t := by
  unfold execRbCommitWrite at h
  split at h
  · rename_i hh
    split at h
    · exact .of_done h
    · rename_i hn
      obtain ⟨_, -, ht⟩ := orFault_next.1 h
      exact ⟨_, _, .commitWrite hh (Nat.le_of_not_lt hn), done_next.1 ht⟩
  · exact .of_done h

theorem execRbTryGetRead_next (h : execRbTryGetRead s = .next t) : RbNext s t := by
  unfold execRbTryGetRead at h
  split at h
  · exact .of_done h
  · rename_i he
    obtain ⟨_, -, h⟩ := orFault_next.1 h
    obtain ⟨_, -, ht⟩ := orFault_next.1 h
    have hc : s.rb.count ≠ 0 := by simpa [Rb.empty] using he
    exact ⟨_, _, .getRead (Nat.one_le_iff_ne_zero.2 hc), done_next.1 ht⟩

theorem execRbCommitRead_next (h : execRbCommitRead s = .next t) : RbNext s t := by
  unfold execRbCommitRead at h
  split at h
  · rename_i hh
    obtain ⟨n, hn, ht⟩ := orFault_next.1 h
    exact ⟨_, _, .commitRead hh (usedAt_ok.1 hn), done_next.1 ht⟩
  · exact .of_done h

theorem execRbReadHwm_next (h : execRbReadHwm s = .next t) : RbNext s t :=
  ⟨_, _, .readHwm, done_next.1 h⟩

end

/-! ### SCH (42_scheduler.md R213, R222 to R231) -/

/-- What a scheduler operation can make of SCH, with the records it emits. -/
inductive SchOp (cfg : Cfg) (env : Env) (now : Nat) (x : Sch) : Sch × List Event → Prop
  | keep : SchOp cfg env now x (x, [])
  | load {fname : Bytes} {texts : List Bytes} (hb : x.busy = false)
      (hn : texts.length ≤ cfg.maxLines) :
      SchOp cfg env now x (finishLoad now (loadTable x fname (texts.map (parseLine cfg env))))
  | start {p : Nat} (hb : x.busy = false) (hs : x.schState = .loaded) (hp : x.cmdAt p) :
      SchOp cfg env now x (startRun now x p)
  | step {p : Nat} {l : Line} (hb : x.busy = false) (hs : x.schState = .loaded) (hp : x.cmdAt p) :
      SchOp cfg env now x ({ x with callout := .step, calloutLine := p }, [execReqOf p l])
  | stop (hs : x.schState = .running) : SchOp cfg env now x (setState x .loaded)
  | stopNext (hs : x.schState = .running) :
      SchOp cfg env now x (setState { x with stopNext := true, stopIssuer := x.pos } .loaded)
  | stepDone {r : Bool} (hc : x.callout = .step) : SchOp cfg env now x (stepDone x r)
  | runDone {r : Bool} {q : Sch × List Event} (hc : x.callout = .run) (h : runDone x r = .ok q) :
      SchOp cfg env now x q

/-- The next states of a scheduler operation. -/
def SchNext (s t : State) : Prop :=
  ∃ q a, SchOp s.cfg s.env s.now s.sch q ∧ t = ((s.withSch q.1).emit q.2).answer a

section
variable {s t : State}

theorem SchNext.of_done {a : Reply} (h : s.done a = .next t) : SchNext s t :=
  ⟨(s.sch, []), a, .keep, by simp [done_next.1 h]⟩

/-- A command the search finds stands in the table. -/
theorem cmdAt_of_firstCmdAtOrAfter {x : Sch} {k p : Nat}
    (h : firstCmdAtOrAfter x.lines k = some p) : x.cmdAt p :=
  isCmdAt_iff.1 (firstCmdAtOrAfter_some.1 h).2.1

theorem execSchLoad_next {block : Bytes} (h : execSchLoad block s = .next t) : SchNext s t := by
  unfold execSchLoad at h
  split at h
  · exact .of_done h
  · rename_i hb
    split at h
    · exact .of_done h
    · rename_i fname text _
      dsimp only at h
      split at h
      · exact .of_done h
      · rename_i hn
        exact ⟨_, _, .load (by simpa using hb) (Nat.le_of_not_lt hn), done_next.1 h⟩

theorem execSchStart_next {n : Imm} (h : execSchStart n s = .next t) : SchNext s t := by
  unfold execSchStart at h
  split at h
  · exact .of_done h
  · rename_i hb
    split at h
    · exact .of_done h
    · rename_i hs
      split at h
      · exact .of_done h
      · rename_i p hp
        exact ⟨_, _, .start (by simpa using hb) (not_not.1 hs) (cmdAt_of_firstCmdAtOrAfter hp),
          done_next.1 h⟩

theorem execSchStep_next {n : Imm} (h : execSchStep n s = .next t) : SchNext s t := by
  unfold execSchStep at h
  split at h
  · exact .of_done h
  · rename_i hb
    split at h
    · exact .of_done h
    · rename_i hs
      split at h
      · exact .of_done h
      · rename_i p hp
        obtain ⟨l, -, ht⟩ := orFault_next.1 h
        exact ⟨_, _, .step (by simpa using hb) (not_not.1 hs) (cmdAt_of_firstCmdAtOrAfter hp),
          done_next.1 ht⟩

theorem execSchStop_next (h : execSchStop s = .next t) : SchNext s t := by
  unfold execSchStop at h
  split at h
  · exact .of_done h
  · rename_i hs
    exact ⟨_, _, .stop (not_not.1 hs), done_next.1 h⟩

theorem execSchStopNext_next (h : execSchStopNext s = .next t) : SchNext s t := by
  unfold execSchStopNext at h
  split at h
  · exact .of_done h
  · rename_i hs
    exact ⟨_, _, .stopNext (not_not.1 hs), done_next.1 h⟩

theorem execSchExecDone_next {r : Bool} (h : execSchExecDone r s = .next t) : SchNext s t := by
  unfold execSchExecDone at h
  split at h
  · exact .of_done h
  · rename_i hc
    exact ⟨_, _, .stepDone hc, done_next.1 h⟩
  · rename_i hc
    obtain ⟨q, hq, ht⟩ := orFault_next.1 h
    exact ⟨_, _, .runDone hc hq, done_next.1 ht⟩

end

/-! ### Every operation -/

/-- Everything an operation can do, by its unit. -/
theorem exec_next {i : Instr} {s t : State} (h : exec i s = .next t) :
    (unitOf (encodeWord i) = 1 ∧ CodecNext i s t) ∨ (unitOf (encodeWord i) = 2 ∧ RbNext s t) ∨
      (unitOf (encodeWord i) = 3 ∧ SchNext s t) := by
  cases i with
  | codecReset => exact .inl ⟨unitOf_cmd32 .., execCodecReset_next h⟩
  | codecReqReset => exact .inl ⟨unitOf_cmd32 .., execCodecReqReset_next h⟩
  | codecDecode chunk => exact .inl ⟨unitOf_cmd32 .., execCodecDecode_next h⟩
  | codecEncode addr payload => exact .inl ⟨unitOf_cmd32 .., execCodecEncode_next h⟩
  | codecMsgCopy => exact .inl ⟨unitOf_cmd32 .., execCodecMsgCopy_next h⟩
  | rbTryGetWrite => exact .inr (.inl ⟨unitOf_cmd32 .., execRbTryGetWrite_next h⟩)
  | rbFill off data => exact .inr (.inl ⟨unitOf_cmd32 .., execRbFill_next h⟩)
  | rbCommitWrite n => exact .inr (.inl ⟨unitOf_cmd32 .., execRbCommitWrite_next h⟩)
  | rbTryGetRead => exact .inr (.inl ⟨unitOf_cmd32 .., execRbTryGetRead_next h⟩)
  | rbCommitRead => exact .inr (.inl ⟨unitOf_cmd32 .., execRbCommitRead_next h⟩)
  | rbBytesAvailable => exact .inr (.inl ⟨unitOf_cmd32 .., .of_done h⟩)
  | rbReadHwm => exact .inr (.inl ⟨unitOf_cmd32 .., execRbReadHwm_next h⟩)
  | schLoad block => exact .inr (.inr ⟨unitOf_cmd32 .., execSchLoad_next h⟩)
  | schStart n => exact .inr (.inr ⟨unitOf_cmd32 .., execSchStart_next h⟩)
  | schStep n => exact .inr (.inr ⟨unitOf_cmd32 .., execSchStep_next h⟩)
  | schStop => exact .inr (.inr ⟨unitOf_cmd32 .., execSchStop_next h⟩)
  | schStopNext => exact .inr (.inr ⟨unitOf_cmd32 .., execSchStopNext_next h⟩)
  | schStatus => exact .inr (.inr ⟨unitOf_cmd32 .., .of_done h⟩)
  | schExecDone r => exact .inr (.inr ⟨unitOf_cmd32 .., execSchExecDone_next h⟩)

end Sys2Proof.Machine
end

section
/-! SUPPORT. What the units share: no register (10_state.md R21), and of the rest of the state only
the event stream, which grows at its end (R61), and time, which no operation moves (R60). -/

namespace Sys2Proof.Machine

/-- The encoder changes the reply only. -/
theorem exec_codecEncode_next {addr : BitVec 16} {payload : Bytes} {s t : State}
    (h : exec (.codecEncode addr payload) s = .next t) :
    t = s.answer (encodeReply s.cfg addr payload) :=
  done_next.1 ((execCodecEncode_eq addr payload s).symm.trans h)

/-- Settles O58: each unit's operations by what `exec_next` says they replace, and the encoder by
its reply, which takes the configuration only. -/
theorem unitsAreSeparate : Obligations.UnitsAreSeparate := by
  intro s t i h
  refine ⟨fun hu => ?codec, fun hu => ?rb, fun hu => ?sch, ?encode⟩
  case codec =>
    obtain ⟨-, _, _, _, -, rfl⟩ | ⟨hu', -⟩ | ⟨hu', -⟩ := exec_next h
    · exact ⟨rfl, rfl⟩
    all_goals omega
  case rb =>
    obtain ⟨hu', -⟩ | ⟨-, _, _, -, rfl⟩ | ⟨hu', -⟩ := exec_next h
    · omega
    · exact ⟨rfl, rfl, rfl⟩
    · omega
  case sch =>
    obtain ⟨hu', -⟩ | ⟨hu', -⟩ | ⟨-, _, _, -, rfl⟩ := exec_next h
    · omega
    · omega
    · exact ⟨rfl, rfl⟩
  case encode =>
    rintro addr payload u rfl hcfg
    obtain rfl := exec_codecEncode_next h
    refine ⟨rfl, ?_⟩
    calc exec (.codecEncode addr payload) u
        = u.done (encodeReply u.cfg addr payload) := execCodecEncode_eq addr payload u
      _ = u.done (encodeReply s.cfg addr payload) := by rw [hcfg]
      _ = .next { u with reply := (s.answer (encodeReply s.cfg addr payload)).reply } := rfl

/-- What no operation changes, and how the event stream grows. -/
theorem exec_grows {i : Instr} {s t : State} (h : exec i s = .next t) :
    t.cfg = s.cfg ∧ t.env = s.env ∧ t.now = s.now ∧ ∃ es, t.evq = s.evq ++ es := by
  obtain ⟨-, _, es, _, -, rfl⟩ | ⟨-, _, _, -, rfl⟩ | ⟨-, q, _, -, rfl⟩ := exec_next h
  · exact ⟨rfl, rfl, rfl, es, rfl⟩
  · exact ⟨rfl, rfl, rfl, [], by simp⟩
  · exact ⟨rfl, rfl, rfl, q.2, rfl⟩

/-- Settles O59: operations by `exec_grows`, an illegal transaction changes the reply, the EXECUTOR
replaces SCH and emits, TIME only adds to `now`. -/
theorem configurationEventsAndTimeOnlyGrow : Obligations.ConfigurationEventsAndTimeOnlyGrow := by
  intro s t h
  obtain ⟨p, w, data, rest, i, -, -, -, -, hx⟩ | ⟨p, w, data, rest, -, -, -, rfl⟩ |
    ⟨rest, x, es, -, -, rfl⟩ | ⟨rest, ms, -, rfl⟩ | ⟨-, -, rfl⟩ := step_next h
  · obtain ⟨hcfg, henv, hnow, hevq⟩ := exec_grows hx
    exact ⟨hcfg, henv, hnow.ge, hevq⟩
  · exact ⟨rfl, rfl, le_rfl, [], by simp⟩
  · exact ⟨rfl, rfl, le_rfl, es, rfl⟩
  · exact ⟨rfl, rfl, Nat.le_add_right .., [], by simp⟩
  · exact ⟨rfl, rfl, Nat.le_add_right .., [], by simp⟩

end Sys2Proof.Machine
end

section
/-! SUPPORT. What one byte can do to the decoder, in either variant (40_codec.md R155 to R170), and
that every byte keeps CODEC's invariant and its message view (10_state.md R28 to R38). -/

namespace Sys2Proof.Machine

/-! ### One byte step, in either variant -/

/-- CODEC and the record after `Emit` and the return to `WAIT_SYNC1` (R156). -/
def emitted (c : Codec) : Codec × List Event :=
  ({ c with msgLen := c.len, msgValid := true, lastOk := true, dstate := .waitSync1 },
    [.msg c.msgAddr c.len (readBytes .msgbuf c.msgbuf 0 c.len)])

theorem emitMessage_eq_ok {cfg : Cfg} {c : Codec} {q : Codec × List Event} :
    emitMessage cfg c = .ok q ↔ c.len ≤ cfg.msgbufSize ∧ q = emitted c := by
  obtain ⟨c', es⟩ := q
  rw [emitMessage_ok, emitted, Prod.mk.injEq]

/-- A failed frame is an error raised in sync search. -/
theorem failFrame_eq_raise (cfg : Cfg) (c : Codec) (pos : Nat) (code : ErrCode) :
    failFrame cfg c pos code = raiseDecodeError cfg { c with dstate := .waitSync1 } pos code := by
  rw [failFrame_eq, raiseDecodeError_eq]

/-- What a byte can make of CODEC, with the records it emits. The running CRC is left open. -/
inductive ByteStep (cfg : Cfg) (c : Codec) (b : Byte) (pos : Nat) : Codec × List Event → Prop
  | skip (hd : c.dstate = .waitSync1) : ByteStep cfg c b pos (c, [])
  | lost (hd : c.dstate = .waitSync1) :
      ByteStep cfg c b pos (raiseDecodeError cfg c pos .syncLost)
  | sync1 {crc : Byte} (hd : c.dstate = .waitSync1) :
      ByteStep cfg c b pos ({ c with crc := crc, dstate := .waitSync2 }, [])
  | sync2 {crc : Byte} (hd : c.dstate = .waitSync2) :
      ByteStep cfg c b pos ({ c with crc := crc, dstate := .readAddr }, [])
  | fail {code : ErrCode} (hd : c.dstate = .waitSync2 ∨ c.dstate = .readCrc) :
      ByteStep cfg c b pos (raiseDecodeError cfg { c with dstate := .waitSync1 } pos code)
  | addr {crc : Byte} {d : DState} (hd : c.dstate = .readAddr)
      (hr : d.reachable cfg.protocol = true) (hl : d = .readLenHi ∨ d = .readLen8) :
      ByteStep cfg c b pos
        ({ c with msgAddr := b, msgValid := false, crc := crc, dstate := d }, [])
  | lenHi {crc : Byte} (hp : cfg.protocol = .p5E4D) (hd : c.dstate = .readLenHi) :
      ByteStep cfg c b pos ({ c with len := b.toNat * 256, crc := crc, dstate := .readLenLo }, [])
  | oversized {crc : Byte} (hd : c.dstate = .readLenLo) :
      ByteStep cfg c b pos (raiseDecodeError cfg
        { c with len := c.len + b.toNat, crc := crc, idx := 0, dstate := .waitSync1 } pos
        .oversized)
  | empty {crc : Byte} (hp : cfg.protocol = .p5E4D) (hd : c.dstate = .readLenLo) :
      ByteStep cfg c b pos ({ c with len := 0, crc := crc, idx := 0, dstate := .readCrc }, [])
  | due {n : Nat} {crc : Byte} (hd : c.dstate = .readLenLo ∨ c.dstate = .readLen8) (h0 : 0 < n)
      (hn : n ≤ cfg.msgbufSize) :
      ByteStep cfg c b pos ({ c with len := n, crc := crc, idx := 0, dstate := .readPayload }, [])
  | payload {crc : Byte} (hd : c.dstate = .readPayload) (hl : c.idx + 1 ≠ c.len) :
      ByteStep cfg c b pos
        ({ c with msgbuf := c.msgbuf.put c.idx b, crc := crc, idx := c.idx + 1 }, [])
  | payloadEnd {crc : Byte} (hp : cfg.protocol = .p5E4D) (hd : c.dstate = .readPayload)
      (hl : c.idx + 1 = c.len) :
      ByteStep cfg c b pos
        ({ c with
            msgbuf := c.msgbuf.put c.idx b, crc := crc, idx := c.idx + 1, dstate := .readCrc }, [])
  | emitAtCrc (hd : c.dstate = .readCrc) : ByteStep cfg c b pos (emitted c)
  | emitAtPayloadEnd (hd : c.dstate = .readPayload) (hl : c.idx + 1 = c.len) :
      ByteStep cfg c b pos (emitted { c with msgbuf := c.msgbuf.put c.idx b, idx := c.idx + 1 })

section
variable {cfg : Cfg} {c : Codec} {b : Byte} {pos : Nat} {q : Codec × List Event}

/-- A byte in sync search that is not SYNC1. -/
theorem byteStep_missSync1 (hd : c.dstate = .waitSync1) :
    ByteStep cfg c b pos (missSync1 cfg c pos) := by
  unfold missSync1
  split
  · exact .lost hd
  · exact .skip hd

theorem p5ReadLenLo_byteStep (hp : cfg.protocol = .p5E4D) (hd : c.dstate = .readLenLo)
    (h : p5ReadLenLo cfg c b pos = .ok q) : ByteStep cfg c b pos q := by
  unfold p5ReadLenLo at h
  dsimp only at h
  split at h
  · obtain rfl := Except.ok.inj h
    rw [failFrame_eq_raise]
    exact .oversized hd
  · rename_i hfit
    split at h
    · rename_i h0
      obtain rfl := Except.ok.inj h
      rw [h0]
      exact .empty hp hd
    · rename_i h0
      obtain rfl := Except.ok.inj h
      have hsize : cfg.msgbufSize = cfg.maxFrame - Config.overhead5E4D := by
        rw [Cfg.msgbufSize, hp]
      exact .due (.inl hd) (Nat.pos_of_ne_zero h0) (by omega)

theorem p5ReadPayload_byteStep (hp : cfg.protocol = .p5E4D) (hd : c.dstate = .readPayload)
    (h : p5ReadPayload cfg c b = .ok q) : ByteStep cfg c b pos q := by
  unfold p5ReadPayload at h
  split at h
  · rename_i m hm
    obtain ⟨-, rfl⟩ := msgbufWrite_ok.1 hm
    obtain rfl := Except.ok.inj h
    by_cases hl : c.idx + 1 = c.len
    · rw [if_pos hl]
      exact .payloadEnd hp hd hl
    · rw [if_neg hl]
      exact .payload hd hl
  · cases h

theorem p7ReadPayload_byteStep (hd : c.dstate = .readPayload)
    (h : p7ReadPayload cfg c b = .ok q) : ByteStep cfg c b pos q := by
  unfold p7ReadPayload at h
  split at h
  · rename_i m hm
    obtain ⟨-, rfl⟩ := msgbufWrite_ok.1 hm
    split at h
    · rename_i hl
      obtain ⟨-, rfl⟩ := emitMessage_eq_ok.1 h
      exact .emitAtPayloadEnd hd hl
    · rename_i hl
      obtain rfl := Except.ok.inj h
      exact .payload hd hl
  · cases h

theorem p5Step_byteStep (hp : cfg.protocol = .p5E4D) (h : p5Step cfg c b pos = .ok q) :
    ByteStep cfg c b pos q := by
  unfold p5Step at h
  cases hd : c.dstate <;> simp only [hd] at h
  case waitSync1 =>
    unfold p5WaitSync1 at h
    split at h <;> obtain rfl := Except.ok.inj h
    · exact .sync1 hd
    · exact byteStep_missSync1 hd
  case waitSync2 =>
    unfold p5WaitSync2 at h
    split at h <;> obtain rfl := Except.ok.inj h
    · exact .sync2 hd
    · rw [failFrame_eq_raise]
      exact .fail (.inl hd)
  case readAddr =>
    obtain rfl := Except.ok.inj h
    exact .addr hd (by rw [hp]; rfl) (.inl rfl)
  case readLenHi =>
    obtain rfl := Except.ok.inj h
    exact .lenHi hp hd
  case readLenLo => exact p5ReadLenLo_byteStep hp hd h
  case readPayload => exact p5ReadPayload_byteStep hp hd h
  case readCrc =>
    unfold p5ReadCrc at h
    split at h
    · obtain ⟨-, rfl⟩ := emitMessage_eq_ok.1 h
      exact .emitAtCrc hd
    · obtain rfl := Except.ok.inj h
      rw [failFrame_eq_raise]
      exact .fail (.inr hd)
  case readLen8 => cases h

theorem p7Step_byteStep (hp : cfg.protocol = .p7C6E) (h : p7Step cfg c b pos = .ok q) :
    ByteStep cfg c b pos q := by
  unfold p7Step at h
  cases hd : c.dstate <;> simp only [hd] at h
  case waitSync1 =>
    unfold p7WaitSync1 at h
    split at h <;> obtain rfl := Except.ok.inj h
    · exact .sync1 hd
    · exact byteStep_missSync1 hd
  case waitSync2 =>
    unfold p7WaitSync2 at h
    split at h <;> obtain rfl := Except.ok.inj h
    · exact .sync2 hd
    · rw [failFrame_eq_raise]
      exact .fail (.inl hd)
  case readAddr =>
    obtain rfl := Except.ok.inj h
    exact .addr hd (by rw [hp]; rfl) (.inr rfl)
  case readLen8 =>
    obtain rfl := Except.ok.inj h
    have hb := b.isLt
    have hsize : cfg.msgbufSize = 256 := by rw [Cfg.msgbufSize, hp]
    exact .due (.inr hd) (by split <;> omega) (by split <;> omega)
  case readPayload => exact p7ReadPayload_byteStep hd h
  all_goals cases h

/-- Everything a byte can do. -/
theorem decodeByte_byteStep (h : decodeByte cfg c b pos = .ok q) : ByteStep cfg c b pos q := by
  rw [decodeByte_eq] at h
  cases hp : cfg.protocol <;> simp only [hp] at h
  case p5E4D => exact p5Step_byteStep hp h
  case p7C6E => exact p7Step_byteStep hp h

end

/-! ### CODEC's invariant -/

theorem raiseDecodeError_events {cfg : Cfg} {c : Codec} {pos : Nat} {code : ErrCode}
    (hpos : pos < 4294967296) : ∀ e ∈ (raiseDecodeError cfg c pos code).2, e.inRange = true := by
  rw [raiseDecodeError_eq]
  intro e he
  dsimp only at he
  split at he
  · obtain rfl := List.mem_singleton.1 he
    simpa [Event.inRange] using hpos
  · cases he

/-- A payload length fits the width of `len` (R26, R30). -/
theorem msgbufSize_lt {cfg : Cfg} (hcfg : cfg.wf = true) : cfg.msgbufSize < 65536 := by
  obtain ⟨hframe, -⟩ := (Cfg.wf_iff cfg).1 hcfg
  cases hp : cfg.protocol <;> simp only [Cfg.msgbufSize, hp, Config.overhead5E4D] <;> omega

/-- Both variants reach the states before ADDR. -/
theorem DState.reachable_of_viewIntact {d : DState} (h : d.viewIntact = true) (p : Protocol) :
    d.reachable p = true := by
  revert h
  cases p <;> cases d <;> decide

theorem Memory.covers_zero (m : Memory) : m.covers 0 := fun _ h => absurd h (Nat.not_lt_zero _)

section
variable {cfg : Cfg} {c : Codec}

/-- Outside the states before ADDR no message view is valid (R34). -/
theorem CodecInv.msgValid_eq_false (h : CodecInv cfg c) (hd : c.dstate.viewIntact = false) :
    c.msgValid = false := by
  by_contra hv
  rw [h.view (by simpa using hv)] at hd
  cases hd

/-- A decoder reset (R152). -/
theorem CodecInv.doReset (h : CodecInv cfg c) : CodecInv cfg (doReset c) :=
  { h with
    dstate := DState.reachable_of_viewIntact rfl _
    len := Nat.zero_lt_succ _
    idx := Nat.zero_lt_succ _
    idxLen := fun _ => le_rfl
    lenHi := nofun
    errCount := Nat.zero_le _
    payload := nofun
    complete := nofun
    view := nofun
    written := by simp [Machine.doReset]
    viewWritten := nofun }

/-- A reported error changes `last_ok` and `err_count` only, and stops counting at `MAX_ERRORS`. -/
theorem CodecInv.raise (h : CodecInv cfg c) (pos : Nat) (code : ErrCode) :
    CodecInv cfg (raiseDecodeError cfg c pos code).1 := by
  rw [raiseDecodeError_eq]
  have hc := h.errCount
  exact { h with errCount := by dsimp only; split <;> omega }

/-- A move to one of the states before ADDR, from anywhere but between the two length bytes. -/
theorem CodecInv.search (h : CodecInv cfg c) (hd : c.dstate ≠ .readLenLo) {d : DState}
    (hv : d.viewIntact = true) (crc : Byte) : CodecInv cfg { c with crc := crc, dstate := d } :=
  { h with
    dstate := DState.reachable_of_viewIntact hv _
    idxLen := fun _ => h.idxLen hd
    lenHi := by rintro rfl; cases hv
    payload := by rintro rfl; cases hv
    complete := by rintro rfl; cases hv
    view := fun _ => hv
    written := by rintro (rfl | rfl) <;> cases hv }

/-- ADDR clears the message view (R161, R168). -/
theorem CodecInv.addrRead (h : CodecInv cfg c) (hd : c.dstate = .readAddr) {d : DState}
    (hr : d.reachable cfg.protocol = true) (hl : d = .readLenHi ∨ d = .readLen8) (b crc : Byte) :
    CodecInv cfg { c with msgAddr := b, msgValid := false, crc := crc, dstate := d } :=
  { h with
    dstate := hr
    idxLen := fun _ => h.idxLen (by simp [hd])
    lenHi := by rintro rfl; simp at hl
    payload := by rintro rfl; simp at hl
    complete := by rintro rfl; simp at hl
    view := nofun
    written := by rintro (rfl | rfl) <;> simp at hl
    viewWritten := nofun }

/-- The high length byte (R162): `idx` may exceed `len` until the low one (assumption log 12). -/
theorem CodecInv.lenHiRead (h : CodecInv cfg c) (hp : cfg.protocol = .p5E4D)
    (hd : c.dstate = .readLenHi) (b crc : Byte) :
    CodecInv cfg { c with len := b.toNat * 256, crc := crc, dstate := .readLenLo } :=
  have hb := b.isLt
  { h with
    dstate := by rw [hp]; rfl
    len := by dsimp only; omega
    idxLen := fun hne => absurd rfl hne
    lenHi := fun _ => by dsimp only; omega
    payload := nofun
    complete := nofun
    view := fun hv => by simp [h.msgValid_eq_false (by rw [hd]; rfl)] at hv
    written := by simp }

/-- A length is known and no payload byte has come (R163, R169). -/
theorem CodecInv.lengthRead (h : CodecInv cfg c) (hv : c.msgValid = false) {d : DState} {n : Nat}
    (hr : d.reachable cfg.protocol = true) (hd : d ≠ .readLenLo) (hn : n < 65536)
    (hpay : d = .readPayload → 0 < n ∧ n ≤ cfg.msgbufSize) (hcrc : d = .readCrc → n = 0)
    (crc : Byte) : CodecInv cfg { c with len := n, crc := crc, idx := 0, dstate := d } :=
  { h with
    dstate := hr
    len := hn
    idx := Nat.zero_lt_succ _
    idxLen := fun _ => Nat.zero_le _
    lenHi := fun he => absurd he hd
    payload := hpay
    complete := fun he => ⟨(hcrc he).symm, (hcrc he).le.trans (Nat.zero_le _)⟩
    view := fun hv' => by simp [hv] at hv'
    written := fun _ => Memory.covers_zero _ }

/-- What one payload byte makes of `MSGBUF` (R164, R170). -/
theorem CodecInv.stored (h : CodecInv cfg c) (hd : c.dstate = .readPayload) (b : Byte) :
    (c.msgbuf.put c.idx b).wf = true ∧ (c.msgbuf.put c.idx b).below cfg.msgbufSize ∧
      (c.msgbuf.put c.idx b).covers (c.idx + 1) := by
  obtain ⟨hlt, hle⟩ := h.payload hd
  exact ⟨put_wf _ _ h.canonical, put_below _ h.below (by omega), put_covers _ (h.written (.inl hd))⟩

/-- A payload byte, the last one leading to the CRC byte. -/
theorem CodecInv.payloadRead (h : CodecInv cfg c) (hd : c.dstate = .readPayload) {d : DState}
    (hr : d.reachable cfg.protocol = true)
    (hl : d = .readPayload ∧ c.idx + 1 ≠ c.len ∨ d = .readCrc ∧ c.idx + 1 = c.len) (b crc : Byte) :
    CodecInv cfg { c with
      msgbuf := c.msgbuf.put c.idx b, crc := crc, idx := c.idx + 1, dstate := d } :=
  have ⟨hwf, hbelow, hcovers⟩ := h.stored hd b
  have ⟨hlt, hle⟩ := h.payload hd
  have hlen := h.len
  have hv := h.msgValid_eq_false (by rw [hd]; rfl)
  { h with
    dstate := hr
    idx := by dsimp only; omega
    idxLen := fun _ => hlt
    lenHi := by rintro rfl; simp at hl
    payload := by rintro rfl; exact ⟨by dsimp only; simp at hl; omega, hle⟩
    complete := by rintro rfl; exact ⟨by simpa using hl, hle⟩
    view := fun hv' => by simp [hv] at hv'
    canonical := hwf
    below := hbelow
    written := fun _ => hcovers
    viewWritten := fun hv' => by simp [hv] at hv' }

/-- An emitted message is the view from then on (R156): its payload stands whole in `MSGBUF`. -/
theorem CodecInv.emitted (h : CodecInv cfg c) {m : Memory} {i : Nat} (hwf : m.wf = true)
    (hbelow : m.below cfg.msgbufSize) (hcovers : m.covers i) (hi : i = c.len)
    (hl : c.len ≤ cfg.msgbufSize) :
    CodecInv cfg (Machine.emitted { c with msgbuf := m, idx := i }).1 :=
  { h with
    dstate := DState.reachable_of_viewIntact rfl _
    idx := hi ▸ h.len
    idxLen := fun _ => hi.le
    lenHi := nofun
    msgLen := hl
    payload := nofun
    complete := nofun
    view := fun _ => rfl
    canonical := hwf
    below := hbelow
    written := by simp [Machine.emitted]
    viewWritten := fun _ => hi ▸ hcovers }

theorem emitted_events {c : Codec} (h : c.len < 65536) :
    ∀ e ∈ (emitted c).2, e.inRange = true := by
  intro e he
  obtain rfl := List.mem_singleton.1 he
  simpa [Event.inRange] using h

end

/-- Every byte keeps the invariant, and its records have their widths. -/
theorem CodecInv.byteStep {cfg : Cfg} {c : Codec} {b : Byte} {pos : Nat} {q : Codec × List Event}
    (hcfg : cfg.wf = true) (hpos : pos < 4294967296) (h : CodecInv cfg c)
    (hq : ByteStep cfg c b pos q) : CodecInv cfg q.1 ∧ ∀ e ∈ q.2, e.inRange = true := by
  have hsize := msgbufSize_lt hcfg
  have hb := b.isLt
  have hv := h.msgValid_eq_false
  cases hq with
  | skip => exact ⟨h, nofun⟩
  | lost => exact ⟨h.raise pos _, raiseDecodeError_events hpos⟩
  | sync1 hd => exact ⟨h.search (by simp [hd]) rfl _, nofun⟩
  | sync2 hd => exact ⟨h.search (by simp [hd]) rfl _, nofun⟩
  | fail hd =>
    have hne : c.dstate ≠ .readLenLo := by rcases hd with hd | hd <;> simp [hd]
    exact ⟨(h.search hne rfl c.crc).raise pos _, raiseDecodeError_events hpos⟩
  | addr hd hr hl => exact ⟨h.addrRead hd hr hl b _, nofun⟩
  | lenHi hp hd => exact ⟨h.lenHiRead hp hd b _, nofun⟩
  | oversized hd =>
    have hlen := h.lenHi hd
    have hkeep := h.lengthRead (d := .waitSync1) (n := c.len + b.toNat) (hv (by rw [hd]; rfl))
      (DState.reachable_of_viewIntact rfl _) (by decide) (by omega) nofun nofun
    exact ⟨(hkeep _).raise pos _, raiseDecodeError_events hpos⟩
  | empty hp hd =>
    exact ⟨h.lengthRead (d := .readCrc) (hv (by rw [hd]; rfl)) (by rw [hp]; rfl) (by decide)
      (by decide) nofun (fun _ => rfl) _, nofun⟩
  | due hd h0 hn =>
    have hvf : c.msgValid = false := hv (by rcases hd with hd | hd <;> rw [hd] <;> rfl)
    exact ⟨h.lengthRead (d := .readPayload) hvf (by cases cfg.protocol <;> rfl) (by decide)
      (by omega) (fun _ => ⟨h0, hn⟩) nofun _, nofun⟩
  | payload hd hl =>
    have hkeep := h.payloadRead hd (by cases cfg.protocol <;> rfl) (.inl ⟨rfl, hl⟩) b
    rw [← hd] at hkeep
    exact ⟨hkeep _, nofun⟩
  | payloadEnd hp hd hl =>
    exact ⟨h.payloadRead hd (by rw [hp]; rfl) (.inr ⟨rfl, hl⟩) b _, nofun⟩
  | emitAtCrc hd =>
    obtain ⟨hi, hl⟩ := h.complete hd
    exact ⟨h.emitted h.canonical h.below (h.written (.inr hd)) hi hl, emitted_events h.len⟩
  | emitAtPayloadEnd hd hl =>
    obtain ⟨hwf, hbelow, hcovers⟩ := h.stored hd b
    exact ⟨h.emitted hwf hbelow hcovers hl (h.payload hd).2, emitted_events h.len⟩

/-! ### The message view -/

theorem lastMsg_cons (e : Event) (es : List Event) :
    lastMsg (e :: es) = (lastMsg es).or (lastMsg [e]) := by
  cases h : lastMsg es <;> cases e <;> simp [lastMsg, h]

/-- The last `MSG` record of two streams is the second's, or else the first's. -/
theorem lastMsg_append (es es' : List Event) :
    lastMsg (es ++ es') = (lastMsg es').or (lastMsg es) := by
  induction es with
  | nil => simp [lastMsg]
  | cons e es ih => rw [List.cons_append, lastMsg_cons, ih, lastMsg_cons e es, Option.or_assoc]

/-- A valid message view of CODEC is the given message. -/
def Codec.Views (c : Codec) (m : Option (Byte × Nat × Bytes)) : Prop :=
  c.msgValid = true → m = some (c.msgAddr, c.msgLen, readBytes .msgbuf c.msgbuf 0 c.msgLen)

theorem viewInv_iff {s : State} : ViewInv s ↔ s.codec.Views (lastMsg s.evq) := Iff.rfl

theorem Codec.Views.of_msgValid_eq_false {c : Codec} {m : Option (Byte × Nat × Bytes)}
    (h : c.msgValid = false) : c.Views m := fun hv => by simp [h] at hv

/-- What an error leaves of the view: all of it, and it adds no message. -/
theorem Codec.Views.raise {c : Codec} {m : Option (Byte × Nat × Bytes)} (h : c.Views m) (cfg : Cfg)
    (pos : Nat) (code : ErrCode) :
    (raiseDecodeError cfg c pos code).1.Views
      ((lastMsg (raiseDecodeError cfg c pos code).2).or m) := by
  rw [raiseDecodeError_eq]
  dsimp only
  split <;> exact h

/-- An emitted message is the one viewed. -/
theorem emitted_views (c : Codec) (m : Option (Byte × Nat × Bytes)) :
    (emitted c).1.Views ((lastMsg (emitted c).2).or m) := fun _ => rfl

/-- Every byte keeps the message view: before ADDR it leaves the view's registers and bytes alone,
from ADDR on the view is not valid, and a message emitted becomes the view. -/
theorem Codec.Views.byteStep {cfg : Cfg} {c : Codec} {b : Byte} {pos : Nat} {q : Codec × List Event}
    {m : Option (Byte × Nat × Bytes)} (hi : CodecInv cfg c) (h : c.Views m)
    (hq : ByteStep cfg c b pos q) : q.1.Views ((lastMsg q.2).or m) := by
  have hv := hi.msgValid_eq_false
  cases hq with
  | skip => exact h
  | lost => exact h.raise cfg pos _
  | sync1 => exact h
  | sync2 => exact h
  | fail => exact Codec.Views.raise (c := { c with dstate := .waitSync1 }) h cfg pos _
  | addr => exact .of_msgValid_eq_false rfl
  | lenHi hp hd => exact .of_msgValid_eq_false (hv (by rw [hd]; rfl))
  | oversized hd =>
    refine Codec.Views.raise (.of_msgValid_eq_false ?_) cfg pos _
    exact hv (by rw [hd]; rfl)
  | empty hp hd => exact .of_msgValid_eq_false (hv (by rw [hd]; rfl))
  | due hd => exact .of_msgValid_eq_false (hv (by rcases hd with hd | hd <;> rw [hd] <;> rfl))
  | payload hd => exact .of_msgValid_eq_false (hv (by rw [hd]; rfl))
  | payloadEnd hp hd => exact .of_msgValid_eq_false (hv (by rw [hd]; rfl))
  | emitAtCrc => exact emitted_views _ _
  | emitAtPayloadEnd => exact emitted_views _ _

/-! ### Chunks and operations -/

/-- A chunk keeps the invariant, and its records have their widths as long as its positions have. -/
theorem CodecInv.decodeChunk {cfg : Cfg} {c c' : Codec} {pos : Nat} {bs : Bytes} {es : List Event}
    (hcfg : cfg.wf = true) (hpos : pos + bs.length ≤ 4294967296) (h : CodecInv cfg c)
    (hd : decodeChunk cfg c pos bs = .ok (c', es)) :
    CodecInv cfg c' ∧ ∀ e ∈ es, e.inRange = true := by
  induction bs generalizing c pos es with
  | nil =>
    cases hd
    exact ⟨h, nofun⟩
  | cons b bs ih =>
    obtain ⟨c1, e1, e2, h1, h2, rfl⟩ := decodeChunk_cons_ok.1 hd
    rw [List.length_cons] at hpos
    obtain ⟨hc1, he1⟩ := h.byteStep hcfg (by omega) (decodeByte_byteStep h1)
    obtain ⟨hc2, he2⟩ := ih (by omega) hc1 h2
    refine ⟨hc2, fun e he => ?_⟩
    exact (List.mem_append.1 he).elim (he1 e) (he2 e)

/-- A chunk keeps the message view. -/
theorem Codec.Views.decodeChunk {cfg : Cfg} {c c' : Codec} {pos : Nat} {bs : Bytes}
    {es : List Event} {m : Option (Byte × Nat × Bytes)} (hcfg : cfg.wf = true)
    (hpos : pos + bs.length ≤ 4294967296) (hi : CodecInv cfg c) (h : c.Views m)
    (hd : decodeChunk cfg c pos bs = .ok (c', es)) : c'.Views ((lastMsg es).or m) := by
  induction bs generalizing c pos es m with
  | nil =>
    cases hd
    exact h
  | cons b bs ih =>
    obtain ⟨c1, e1, e2, h1, h2, rfl⟩ := decodeChunk_cons_ok.1 hd
    rw [List.length_cons] at hpos
    have hstep := decodeByte_byteStep h1
    have hc1 := (hi.byteStep hcfg (by omega) hstep).1
    have hviews := ih (by omega) hc1 (h.byteStep hi hstep) h2
    rwa [lastMsg_append, Option.or_assoc]

theorem CodecInv.decodeStart {cfg : Cfg} {c : Codec} (h : CodecInv cfg c) :
    CodecInv cfg (decodeStart c) := by
  unfold Machine.decodeStart
  split
  · exact h.doReset
  · exact h

theorem Codec.Views.decodeStart {c : Codec} {m : Option (Byte × Nat × Bytes)} (h : c.Views m) :
    (decodeStart c).Views m := by
  unfold Machine.decodeStart
  split
  · exact .of_msgValid_eq_false rfl
  · exact h

section
variable {cfg : Cfg} {i : Instr} {c c' : Codec} {es : List Event}

/-- Every CODEC operation keeps CODEC's invariant, and its records have their widths. -/
theorem CodecInv.codecOp (hcfg : cfg.wf = true) (hdata : i.dataBlock.length < dataBlockBound)
    (h : CodecInv cfg c) (hop : CodecOp cfg i c c' es) :
    CodecInv cfg c' ∧ ∀ e ∈ es, e.inRange = true := by
  cases hop with
  | keep => exact ⟨h, nofun⟩
  | reset => exact ⟨h.doReset, nofun⟩
  | request => exact ⟨{ h with }, nofun⟩
  | decode hi hd =>
    subst hi
    exact h.decodeStart.decodeChunk hcfg ((Nat.zero_add _).le.trans hdata.le) hd

/-- Every CODEC operation keeps the message view. -/
theorem Codec.Views.codecOp {m : Option (Byte × Nat × Bytes)} (hcfg : cfg.wf = true)
    (hdata : i.dataBlock.length < dataBlockBound) (hi : CodecInv cfg c) (h : c.Views m)
    (hop : CodecOp cfg i c c' es) : c'.Views ((lastMsg es).or m) := by
  cases hop with
  | keep => exact h
  | reset => exact .of_msgValid_eq_false rfl
  | request => exact h
  | decode hi' hd =>
    subst hi'
    exact Codec.Views.decodeChunk hcfg ((Nat.zero_add _).le.trans hdata.le) hi.decodeStart
      h.decodeStart hd

end

end Sys2Proof.Machine
end

section
/-! SUPPORT. Every ring buffer operation keeps RB's invariant (10_state.md R41 to R51): the sum of
the unread slots' used-lengths (R50 item 2) over a commit, and the registers one by one. -/

namespace Sys2Proof.Machine

section
variable {cfg : Cfg} {r : Rb} {n : Nat}

/-! ### The bytes of the unread slots -/

/-- The slots within one turn of the ring are different ones. -/
theorem slot_ne {N a i j : Nat} (hij : i < j) (hj : j < i + N) : (a + i) % N ≠ (a + j) % N := by
  intro h
  have hd := (Nat.modEq_iff_dvd' (by omega : a + i ≤ a + j)).1 h
  have := Nat.le_of_dvd (by omega) hd
  omega

/-- A write commit adds its bytes to the unread ones: the write slot is none of the unread slots. -/
theorem unreadBytes_commitWrite (h : RbInv cfg r) (hc : r.count < cfg.rbSlots) :
    unreadBytes cfg (commitWrite cfg r n) = unreadBytes cfg r + n := by
  have hwr : (r.rd + r.count) % cfg.rbSlots < r.used.length := by
    rw [← h.cursors, h.usedLength]
    exact h.wr
  have hold : ∀ k ∈ List.range r.count,
      (r.used.set r.wr n).getD ((r.rd + k) % cfg.rbSlots) 0 =
        r.used.getD ((r.rd + k) % cfg.rbSlots) 0 := by
    intro k hk
    have hk := List.mem_range.1 hk
    have hne : r.wr ≠ (r.rd + k) % cfg.rbSlots := by
      rw [h.cursors]
      exact (slot_ne hk (by omega)).symm
    rw [List.getD_eq_getElem?_getD, List.getElem?_set_ne hne, ← List.getD_eq_getElem?_getD]
  simp only [unreadBytes, commitWrite_count, commitWrite_used, commitWrite_rd, List.range_succ,
    List.map_append, List.sum_append, List.map_congr_left hold]
  simp [h.cursors, hwr]

/-- A read commit takes the oldest unread slot's bytes away. -/
theorem unreadBytes_commitRead (hc : 1 ≤ r.count) (hn : r.used[r.rd]? = some n)
    (hrd : r.rd < cfg.rbSlots) :
    unreadBytes cfg r = n + unreadBytes cfg (commitRead cfg r n) := by
  obtain ⟨m, hm⟩ : ∃ m, r.count = m + 1 := ⟨r.count - 1, by omega⟩
  have hshift : ∀ k, ((r.rd + 1) % cfg.rbSlots + k) % cfg.rbSlots =
      (r.rd + (k + 1)) % cfg.rbSlots := by
    intro k
    rw [Nat.mod_add_mod, Nat.add_assoc, Nat.add_comm 1]
  simp [unreadBytes, hm, List.range_succ_eq_map, Nat.mod_eq_of_lt hrd, hn, hshift,
    Function.comp_def]

/-- The unread bytes fit the unread slots. -/
theorem unreadBytes_le (h : ∀ k ∈ r.used, k ≤ cfg.slotSize) :
    unreadBytes cfg r ≤ r.count * cfg.slotSize := by
  have hle : ∀ b ∈ (List.range r.count).map
      (fun k => r.used.getD ((r.rd + k) % cfg.rbSlots) 0), b ≤ cfg.slotSize := by
    intro b hb
    obtain ⟨k, -, rfl⟩ := List.mem_map.1 hb
    rw [List.getD_eq_getElem?_getD]
    cases hu : r.used[(r.rd + k) % cfg.rbSlots]? with
    | none => exact Nat.zero_le _
    | some b => exact h b (List.mem_of_getElem? hu)
  simpa [unreadBytes] using List.sum_le_card_nsmul _ _ hle

/-! ### The commits -/

/-- A write commit keeps the invariant (R194). -/
theorem RbInv.commitWrite (h : RbInv cfg r) (hh : r.wrHeld = true) (hn : n ≤ cfg.slotSize) :
    RbInv cfg (commitWrite cfg r n) := by
  have hc := h.wrHeld hh
  have hN : 0 < cfg.rbSlots := Nat.zero_lt_of_lt hc
  have hused : ∀ k ∈ r.used.set r.wr n, k ≤ cfg.slotSize := fun k hk =>
    (List.mem_or_eq_of_mem_set hk).elim (h.usedRange k) (fun e => e ▸ hn)
  have hbytes := unreadBytes_commitWrite (n := n) h hc
  have hfit : unreadBytes cfg (Machine.commitWrite cfg r n) ≤ cfg.rbSlots * cfg.slotSize :=
    (unreadBytes_le hused).trans (Nat.mul_le_mul_right _ hc)
  exact { h with
    usedLength := by simpa using h.usedLength
    usedRange := hused
    wr := Nat.mod_lt _ hN
    count := hc
    cursors := by simp [h.cursors, Nat.add_assoc]
    bytes := by rw [hbytes, ← h.bytes, commitWrite_bytes]
    wrHeld := nofun
    rdHeld := fun _ => Nat.le_add_left ..
    hwm := max_le h.hwm (by rwa [h.bytes, ← hbytes]) }

/-- A read commit keeps the invariant (R196). -/
theorem RbInv.commitRead (h : RbInv cfg r) (hh : r.rdHeld = true) (hn : r.used[r.rd]? = some n) :
    RbInv cfg (commitRead cfg r n) := by
  have hc := h.rdHeld hh
  have hN : 0 < cfg.rbSlots := Nat.zero_lt_of_lt h.rd
  have hbytes := unreadBytes_commitRead hc hn h.rd
  have hcount := h.count
  exact { h with
    rd := Nat.mod_lt _ hN
    count := (Nat.sub_le ..).trans hcount
    cursors := by
      simp only [commitRead_wr, commitRead_rd, commitRead_count, Nat.mod_add_mod, h.cursors]
      congr 1
      omega
    bytes := by rw [commitRead_bytes, h.bytes, hbytes, Nat.add_sub_cancel_left]
    wrHeld := fun _ => by rw [commitRead_count]; omega
    rdHeld := nofun }

/-! ### Every operation -/

/-- Every ring buffer operation keeps RB's invariant. -/
theorem RbInv.rbOp {r' : Rb} (h : RbInv cfg r) (hop : RbOp cfg r r') : RbInv cfg r' := by
  cases hop with
  | keep => exact h
  | getWrite hc => exact { h with wrHeld := fun _ => hc }
  | fill hm =>
    obtain ⟨⟨hi, ho⟩, rfl⟩ := slotWrite_ok.1 hm
    have hend := slotAddr_le hi ho
    rw [slotAddr, ← Nat.add_assoc] at hend
    exact { h with
      canonical := writeBytes_wf _ _ h.canonical
      below := writeBytes_below h.below hend }
  | commitWrite hh hn => exact h.commitWrite hh hn
  | getRead hc => exact { h with rdHeld := fun _ => hc }
  | commitRead hh hn => exact h.commitRead hh hn
  | readHwm => exact { h with hwm := Nat.zero_le _ }

end

end Sys2Proof.Machine
end

section
/-! SUPPORT. Every scheduler operation and every executor step keeps SCH's invariant (10_state.md
R52 to R62) and emits records of its own only, their line numbers in range (30_encoding.md R130). -/

namespace Sys2Proof.Machine

/-! ### The delays of the line table -/

/-- A time token's delay (42_scheduler.md R218). -/
theorem parseTime_le {mode : TimeFracMode} {s : Bytes} {d : Nat} (h : parseTime mode s = some d) :
    d ≤ maxDelay := by
  unfold parseTime at h
  split at h
  · cases h
  · split at h
    · cases h
    · rename_i hfit
      obtain rfl := Option.some.inj h
      simp only [Config.maxSeconds, Config.maxMillis, not_or] at hfit
      unfold maxDelay
      omega

theorem resolveCommand_delays (cfg : Cfg) (env : Env) (e : Line) :
    (resolveCommand cfg env e).delay = e.delay ∧
      (resolveCommand cfg env e).origDelay = e.origDelay := by
  unfold resolveCommand
  split <;> exact ⟨rfl, rfl⟩

/-- A parsed line's delay is whole and in R218's range. -/
theorem parseLine_delays (cfg : Cfg) (env : Env) (t : Bytes) :
    (parseLine cfg env t).delay = (parseLine cfg env t).origDelay ∧
      (parseLine cfg env t).origDelay ≤ maxDelay := by
  have h0 : 0 ≤ maxDelay := Nat.zero_le _
  unfold parseLine
  dsimp only
  split
  · exact ⟨rfl, h0⟩
  · rename_i time rest _
    cases rest with
    | nil => exact ⟨rfl, h0⟩
    | cons name params =>
      rw [commandLine]
      dsimp only
      split
      · exact ⟨rfl, h0⟩
      · rename_i ms hms
        rw [(resolveCommand_delays ..).1, (resolveCommand_delays ..).2]
        exact ⟨rfl, parseTime_le hms⟩

/-- The absolute times leave every delay. -/
theorem computeAbs_delays {ls : List Line} {t k j : Nat} {l' : Line}
    (h : (computeAbs ls t k)[j]? = some l') :
    ∃ l, ls[j]? = some l ∧ l'.delay = l.delay ∧ l'.origDelay = l.origDelay := by
  obtain ⟨a, ha⟩ := computeAbs_getElem? ls t k j
  rw [ha] at h
  obtain ⟨l, hl, rfl⟩ := Option.map_eq_some_iff.1 h
  exact ⟨l, hl, rfl, rfl⟩

/-- A remaining delay is at most the original one, and that is in R218's range. -/
def delaysBounded (ls : List Line) : Prop :=
  ∀ l ∈ ls, l.delay ≤ l.origDelay ∧ l.origDelay ≤ maxDelay

theorem delaysBounded_computeAbs {ls : List Line} (h : delaysBounded ls) (t k : Nat) :
    delaysBounded (computeAbs ls t k) := by
  intro l' hl'
  obtain ⟨j, hj⟩ := List.mem_iff_getElem?.1 hl'
  obtain ⟨l, hl, hd, ho⟩ := computeAbs_delays hj
  rw [hd, ho]
  exact h l (List.mem_of_getElem? hl)

/-- A shorter remaining delay of one line stays within its bounds. -/
theorem delaysBounded_setDelay {ls : List Line} {i d : Nat} {l : Line} (h : delaysBounded ls)
    (hl : ls[i]? = some l) (hd : d ≤ l.origDelay) : delaysBounded (setDelay ls i d) := by
  intro l' hl'
  obtain ⟨j, hj⟩ := List.mem_iff_getElem?.1 hl'
  rw [setDelay_getElem?] at hj
  obtain ⟨k, hk, rfl⟩ := Option.map_eq_some_iff.1 hj
  have hkb := h k (List.mem_of_getElem? hk)
  split
  · rename_i hij
    subst hij
    obtain rfl := Option.some.inj (hl.symm.trans hk)
    exact ⟨hd, hkb.2⟩
  · exact hkb

section
variable {x : Sch}

theorem Sch.delaysWhole.weaken (h : x.delaysWhole none) (i : Nat) : x.delaysWhole (some i) :=
  fun j l hl _ => h j l hl nofun

theorem Sch.delaysWhole.computeAbs {b : Option Nat} (h : x.delaysWhole b) (t k : Nat) :
    ({ x with lines := computeAbs x.lines t k } : Sch).delaysWhole b := by
  intro j l' hl' hj
  obtain ⟨l, hl, hd, ho⟩ := computeAbs_delays hl'
  rw [hd, ho]
  exact h j l hl hj

/-- Counting one line down leaves the others whole. -/
theorem Sch.delaysWhole.setDelay {i : Nat} (h : x.delaysWhole (some i)) (d : Nat) :
    ({ x with lines := setDelay x.lines i d } : Sch).delaysWhole (some i) := by
  intro j l' hl' hj
  have hij : i ≠ j := fun e => hj (congrArg some e.symm)
  simp only [setDelay_getElem?, if_neg hij, Option.map_id'] at hl'
  exact h j l' hl' hj

/-- Restoring the line counted down makes every delay whole. -/
theorem Sch.delaysWhole.restore {i : Nat} {l : Line} (h : x.delaysWhole (some i))
    (hl : x.lines[i]? = some l) :
    ({ x with lines := Machine.setDelay x.lines i l.origDelay } : Sch).delaysWhole none := by
  intro j l' hl' _
  by_cases hij : i = j
  · subst hij
    simp only [setDelay_getElem?, hl, Option.map_some, if_true] at hl'
    obtain rfl := Option.some.inj hl'
    rfl
  · exact h.setDelay l.origDelay j l' hl' fun e => hij (Option.some.inj e).symm

/-! ### The commands of the line table -/

theorem Sch.cmdAt_iff {i : Nat} : x.cmdAt i ↔ isCmdAt x.lines i = true := isCmdAt_iff.symm

theorem Sch.cmdAt.lt {i : Nat} (h : x.cmdAt i) : i < x.nlines := isCmdAt_lt (Sch.cmdAt_iff.1 h)

/-- A table with the same `is_cmd` flags holds the same commands. -/
theorem Sch.cmdAt.congr {y : Sch} {i : Nat} (h : x.cmdAt i)
    (hc : y.lines.map Line.isCmd = x.lines.map Line.isCmd) : y.cmdAt i := by
  rw [Sch.cmdAt_iff, isCmdAt, ← List.getElem?_map] at h ⊢
  rwa [hc]

theorem cmdAt_of_nextCmdAfter {k q : Nat} (h : nextCmdAfter x.lines k = some q) : x.cmdAt q :=
  cmdAt_of_firstCmdAtOrAfter h

/-! ### Records of the scheduler -/

/-- A record a scheduler procedure may emit: none of the decoder's, its fields in range. -/
def Event.ofSch : Event → Bool
  | .msg _ _ _ => false
  | .err _ _ => false
  | e => e.inRange

theorem Event.inRange_of_ofSch {e : Event} (h : e.ofSch = true) : e.inRange = true := by
  cases e with
  | msg => cases h
  | err => cases h
  | _ => exact h

/-- The scheduler emits no message. -/
theorem lastMsg_eq_none_of_ofSch {es : List Event} (h : ∀ e ∈ es, e.ofSch = true) :
    lastMsg es = none := by
  induction es with
  | nil => rfl
  | cons e es ih =>
    rw [lastMsg_cons, ih fun d hd => h d (List.mem_cons_of_mem _ hd)]
    have he := h e List.mem_cons_self
    cases e with
    | msg => cases he
    | err => cases he
    | _ => rfl

theorem execError_ofSch {r : Bool} {line : Nat} (h : line < 16777216) :
    ∀ e ∈ execError r line, e.ofSch = true := by
  cases r <;> simp [execError, Event.ofSch, Event.inRange, h]

/-- What a completion emits before the next command (R228, R231). -/
theorem completion_ofSch {r : Bool} {line p : Nat} (hl : line < 16777216) (hp : p < 16777216) :
    ∀ e ∈ execError r line ++ [.nextCommand p], e.ofSch = true := by
  intro e he
  rcases List.mem_append.1 he with he | he
  · exact execError_ofSch hl e he
  · obtain rfl := List.mem_singleton.1 he
    simpa [Event.ofSch, Event.inRange] using hp

/-! ### What holds in every phase -/

/-- The bounds of SCH's registers that no phase suspends (R52 to R57, R62 item 5). -/
structure SchBounds (cfg : Cfg) (x : Sch) : Prop where
  nlines : x.nlines ≤ cfg.maxLines
  delays : delaysBounded x.lines
  pos : x.pos < max x.nlines 1
  calloutLine : x.calloutLine < 16777216
  stopIssuer : x.stopIssuer < 16777216
  noErrors : x.schState = .loaded ∨ x.schState = .running → x.hadErrors = false

variable {cfg : Cfg}

theorem SchInv.bounds (h : SchInv cfg x) : SchBounds cfg x := { h with }

theorem SchBounds.setDelay (h : SchBounds cfg x) {i d : Nat} {l : Line}
    (hl : x.lines[i]? = some l) (hd : d ≤ l.origDelay) :
    SchBounds cfg { x with lines := setDelay x.lines i d } :=
  { h with
    nlines := by simpa [Sch.nlines] using h.nlines
    delays := delaysBounded_setDelay h.delays hl hd
    pos := by simpa [Sch.nlines] using h.pos }

/-- A line number fits its field (R118, R130). -/
theorem maxLines_le (hcfg : cfg.wf = true) : cfg.maxLines ≤ 16777216 := by
  obtain ⟨-, -, -, -, hlines, -⟩ := (Cfg.wf_iff cfg).1 hcfg
  exact hlines

theorem SchBounds.cmd_lt (h : SchBounds cfg x) (hcfg : cfg.wf = true) {i : Nat} (hi : x.cmdAt i) :
    i < 16777216 :=
  (hi.lt.trans_le h.nlines).trans_le (maxLines_le hcfg)

theorem SchBounds.pos_lt (h : SchBounds cfg x) (hcfg : cfg.wf = true) : x.pos < 16777216 := by
  have := h.pos
  have := h.nlines
  have := maxLines_le hcfg
  omega

/-- Between runs the invariant is the bounds and that nothing is pending. -/
theorem SchInv.of_idle (h : SchBounds cfg x) (hp : x.xphase = .idle) (hw : x.delaysWhole none)
    (hs : x.schState ≠ .running) (hc : x.callout = .none) (hslice : x.slice = 0)
    (hn : x.stopNext = false) (hf : x.finished = false) : SchInv cfg x :=
  { h with
    slice := by omega
    restored := fun _ => hw
    counting := fun hne => absurd hp hne
    running := fun hr => absurd hr hs
    callout := by simp [hc, hp]
    stepping := by simp [hc]
    atCommand := fun hne => absurd hp hne
    alive := fun hne => absurd hp hne
    sliceFits := by simp [hp]
    calloutAt := by simp [hc]
    stepAt := by simp [hc]
    stopNext := by simp [hn]
    finished := hf }

/-- What every scheduler procedure leaves at a time `now`: the invariant, a slice that ends in time,
and records of its own. -/
structure SchAfter (cfg : Cfg) (now : Nat) (q : Sch × List Event) : Prop where
  inv : SchInv cfg q.1
  wakeNear : q.1.xphase = .sleep → q.1.wake ≤ now + Config.sliceMs
  events : ∀ e ∈ q.2, e.ofSch = true

/-! ### The exit sequence (42_scheduler.md R232) -/

/-- The position after an exit is in the table, and its announcement in range. -/
theorem SchBounds.exitPos (h : SchBounds cfg x) (hcfg : cfg.wf = true) :
    (exitPos x).1 < max x.nlines 1 ∧ ∀ e ∈ (exitPos x).2, e.ofSch = true := by
  obtain hstay | ⟨q, -, hq, -, hmove⟩ := exitPos_cases x
  · rw [hstay]
    exact ⟨h.pos, nofun⟩
  · have hcmd := cmdAt_of_nextCmdAfter hq
    rw [hmove]
    refine ⟨lt_max_of_lt_left hcmd.lt, ?_⟩
    simpa [Event.ofSch, Event.inRange] using h.cmd_lt hcfg hcmd

/-- An exit needs less than the invariant: `RunDone` runs it with `finished` set (R231). -/
theorem SchAfter.exitRun {now : Nat} {q : Sch × List Event} (hq : exitRun x = .ok q)
    (hcfg : cfg.wf = true) (h : SchBounds cfg x) (hw : x.delaysWhole (some x.pos))
    (hs : x.schState = .running ∨ x.schState = .loaded) : SchAfter cfg now q := by
  obtain ⟨x', es⟩ := q
  obtain ⟨l, hl, rfl, rfl⟩ := exitRun_ok.1 hq
  obtain ⟨hpos, hann⟩ := h.exitPos hcfg
  have hloaded : (if x.schState = .running then .loaded else x.schState) = SchState.loaded := by
    rcases hs with hs | hs <;> simp [hs]
  have hb := h.setDelay hl le_rfl
  refine ⟨.of_idle { hb with pos := ?_, noErrors := ?_ } rfl (hw.restore hl) ?_ rfl rfl rfl rfl,
    nofun, ?_⟩
  · simpa [Sch.nlines] using hpos
  · exact fun _ => h.noErrors hs.symm
  · dsimp only
    rw [hloaded]
    decide
  · intro e he
    simp only [List.mem_append] at he
    obtain ((he | he) | he) | he := he
    · split at he
      · obtain rfl := List.mem_singleton.1 he
        rfl
      · cases he
    · exact hann e he
    · obtain rfl := List.mem_singleton.1 he
      rfl
    · split at he
      · obtain rfl := List.mem_singleton.1 he
        rfl
      · cases he

/-- The exit of a live executor. -/
theorem SchInv.exitRun {now : Nat} {q : Sch × List Event} (h : SchInv cfg x) (hcfg : cfg.wf = true)
    (hp : x.xphase ≠ .idle) (hq : exitRun x = .ok q) : SchAfter cfg now q :=
  .exitRun hq hcfg h.bounds (h.counting hp) (h.alive hp)

end

section
variable {cfg : Cfg} {env : Env} {now : Nat} {x : Sch} {q : Sch × List Event}

/-! ### Executor steps (42_scheduler.md R229, R230) -/

/-- HEAD at the loop head. -/
theorem SchInv.headStep (h : SchInv cfg x) (hcfg : cfg.wf = true) (hp : x.xphase = .head)
    (hq : headStep now x = .ok q) : SchAfter cfg now q := by
  have hlive : x.xphase ≠ .idle := by simp [hp]
  obtain ⟨x', es⟩ := q
  obtain ⟨-, hexit⟩ | ⟨hs, l, hl, rfl, rfl⟩ := headStep_ok.1 hq
  · exact h.exitRun hcfg hlive hexit
  · have hnone : x.callout ≠ .run := fun hc => by simp [h.callout.1 hc] at hp
    refine ⟨?_, fun _ => Nat.add_le_add_left (min_le_right ..) _, nofun⟩
    exact { h with
      slice := min_le_right ..
      restored := nofun
      counting := fun _ => h.counting hlive
      running := nofun
      callout := by simpa using hnone
      stepping := fun hc => absurd (h.stepping hc).1 hlive
      atCommand := fun _ => h.atCommand hlive
      alive := fun _ => h.alive hlive
      sliceFits := by
        rintro - l' hl'
        obtain rfl := Option.some.inj (hl.symm.trans hl')
        exact min_le_left ..
      stopNext := fun hn => ⟨nofun, (h.stopNext hn).2⟩ }

/-- A wake that counts the slept slice off and does not exit: the last slice ends in the callout
(R230), any other at the loop head. -/
theorem SchInv.counted (h : SchInv cfg x) (hlive : x.xphase ≠ .idle) {l : Line}
    (hl : x.lines[x.pos]? = some l) {d n : Nat} (hd : d ≤ l.delay) {p : XPhase} {c : Callout}
    (hp : p = .head ∧ c = .none ∧ n = x.calloutLine ∨ p = .execWait ∧ c = .run ∧ n = x.pos)
    (hcfg : cfg.wf = true) :
    SchInv cfg { x with
      lines := setDelay x.lines x.pos d, callout := c, calloutLine := n, xphase := p } := by
  have hb := h.bounds.setDelay hl (hd.trans (h.delays l (List.mem_of_getElem? hl)).1)
  have hne : p ≠ .idle := by rintro rfl; simp at hp
  exact { hb with
    slice := h.slice
    calloutLine := by
      obtain ⟨-, -, rfl⟩ | ⟨-, -, rfl⟩ := hp
      · exact h.calloutLine
      · exact h.bounds.pos_lt hcfg
    restored := fun he => absurd he hne
    counting := fun _ => (h.counting hlive).setDelay d
    running := fun _ => hne
    callout := by obtain ⟨rfl, rfl, -⟩ | ⟨rfl, rfl, -⟩ := hp <;> simp
    stepping := by rintro rfl; simp at hp
    atCommand := fun _ => (h.atCommand hlive).congr (setDelay_isCmd ..)
    alive := fun _ => h.alive hlive
    sliceFits := by rintro rfl; simp at hp
    calloutAt := by rintro rfl; exact (hp.resolve_left (by simp)).2.2
    stepAt := by rintro rfl; simp at hp
    stopNext := fun hn => ⟨hne, (h.stopNext hn).2⟩
    finished := h.finished }

/-- WAKE at the end of a slice. -/
theorem SchInv.wakeStep (h : SchInv cfg x) (hcfg : cfg.wf = true) (hp : x.xphase = .sleep)
    {stopCheck : Bool} (hq : wakeStep stopCheck x = .ok q) : SchAfter cfg now q := by
  have hlive : x.xphase ≠ .idle := by simp [hp]
  have hnone : x.callout = .none := by
    cases hc : x.callout with
    | none => rfl
    | run => simp [h.callout.1 hc] at hp
    | step => exact absurd (h.stepping hc).1 hlive
  obtain ⟨x', es⟩ := q
  obtain ⟨-, hexit⟩ | ⟨-, l, hl, ⟨-, rfl, rfl⟩ | ⟨-, rfl, rfl⟩⟩ := wakeStep_ok.1 hq
  · exact h.exitRun hcfg hlive hexit
  · refine ⟨h.counted hlive hl (Nat.zero_le _) (.inr ⟨rfl, rfl, rfl⟩) hcfg, nofun, ?_⟩
    simpa [Event.ofSch, Event.inRange, execReqOf] using h.bounds.pos_lt hcfg
  · exact ⟨h.counted hlive hl (Nat.sub_le ..) (.inl ⟨rfl, hnone, rfl⟩) hcfg, nofun, nofun⟩

/-- Every executor step keeps SCH's invariant. -/
theorem SchInv.executorStep (h : SchInv cfg x) (hcfg : cfg.wf = true)
    (hw : x.xphase = .sleep → x.wake ≤ now + Config.sliceMs)
    (hq : executorStep cfg now x = .ok q) : SchAfter cfg now q := by
  obtain ⟨x', es⟩ := q
  obtain ⟨-, rfl, rfl⟩ | ⟨hp, hq⟩ | ⟨hp, -, hq⟩ := executorStep_ok.1 hq
  · exact ⟨h, hw, nofun⟩
  · exact h.headStep hcfg hp hq
  · exact h.wakeStep hcfg hp hq

/-! ### Loading, starting and stepping (42_scheduler.md R213, R222, R223) -/

theorem Sch.busy_eq_false : x.busy = false ↔ x.xphase = .idle ∧ x.callout = .none := by
  simp [Sch.busy]

/-- A load leaves whole delays and nothing pending. -/
theorem SchInv.loadTable (h : SchInv cfg x) (fname : Bytes) {texts : List Bytes}
    (hn : texts.length ≤ cfg.maxLines) {st : SchState} (hst : st ≠ .running)
    (herr : st = .loaded → hadErrorsOf (texts.map (parseLine cfg env)) = false) :
    SchInv cfg
      { Machine.loadTable x fname (texts.map (parseLine cfg env)) with schState := st } := by
  have hline : ∀ l ∈ texts.map (parseLine cfg env),
      l.delay = l.origDelay ∧ l.origDelay ≤ maxDelay := by
    intro l hl
    obtain ⟨t, -, rfl⟩ := List.mem_map.1 hl
    exact parseLine_delays ..
  refine .of_idle ?_ rfl (fun i l hl _ => (hline l (List.mem_of_getElem? hl)).1) hst rfl rfl rfl rfl
  exact {
    nlines := by simpa [Sch.nlines, Machine.loadTable] using hn
    delays := fun l hl => ⟨(hline l hl).1.le, (hline l hl).2⟩
    pos := by
      simp only [Sch.nlines, Machine.loadTable]
      cases hf : firstCmdAtOrAfter (texts.map (parseLine cfg env)) 0 with
      | none => simp
      | some p => exact lt_max_of_lt_left (isCmdAt_lt (firstCmdAtOrAfter_some.1 hf).2.1)
    calloutLine := h.calloutLine
    stopIssuer := h.stopIssuer
    noErrors := fun hs => herr (hs.resolve_right hst) }

/-- The absolute times touch no register and no delay. -/
theorem SchInv.computeAbs (h : SchInv cfg x) (t k : Nat) :
    SchInv cfg { x with lines := computeAbs x.lines t k } :=
  { h with
    nlines := by simpa [Sch.nlines] using h.nlines
    delays := delaysBounded_computeAbs h.delays t k
    pos := by simpa [Sch.nlines] using h.pos
    restored := fun hp => (h.restored hp).computeAbs t k
    counting := fun hp => (h.counting hp).computeAbs t k
    atCommand := fun hp => (h.atCommand hp).congr (computeAbs_isCmd ..)
    sliceFits := by
      intro hp l' hl'
      obtain ⟨l, hl, hd, -⟩ := computeAbs_delays hl'
      rw [hd]
      exact h.sliceFits hp l hl
    stepAt := fun hc => (h.stepAt hc).congr (computeAbs_isCmd ..) }

theorem SchInv.finishLoad (h : SchInv cfg x) (fname : Bytes) {texts : List Bytes}
    (hn : texts.length ≤ cfg.maxLines) :
    SchAfter cfg now
      (finishLoad now (Machine.loadTable x fname (texts.map (parseLine cfg env)))) := by
  unfold Machine.finishLoad setState
  split
  · exact ⟨h.loadTable fname hn (by decide) nofun, nofun, by simp [Event.ofSch, Event.inRange]⟩
  · rename_i he
    have hload := h.loadTable (env := env) fname hn (st := .loaded) (by decide)
      fun _ => Bool.not_eq_true _ ▸ he
    exact ⟨hload.computeAbs now 0, nofun, by simp [Event.ofSch, Event.inRange]⟩

/-- A start at a command (R222). -/
theorem SchInv.startRun (h : SchInv cfg x) (hb : x.busy = false) (hs : x.schState = .loaded)
    {p : Nat} (hp : x.cmdAt p) : SchAfter cfg now (startRun now x p) := by
  obtain ⟨hidle, hnone⟩ := Sch.busy_eq_false.1 hb
  have habs := h.computeAbs now p
  refine ⟨?_, nofun, by simp [Machine.startRun, setState, Event.ofSch, Event.inRange]⟩
  exact { habs with
    pos := by simpa [Machine.startRun, setState, Sch.nlines] using .inl hp.lt
    restored := nofun
    counting := fun _ => (habs.restored hidle).weaken p
    running := nofun
    callout := by simp [Machine.startRun, setState, hnone]
    stepping := by simp [Machine.startRun, setState, hnone]
    noErrors := fun _ => h.noErrors (.inl hs)
    atCommand := fun _ => hp.congr (computeAbs_isCmd ..)
    alive := fun _ => .inl rfl
    sliceFits := nofun
    calloutAt := by simp [Machine.startRun, setState, hnone]
    stepAt := by simp [Machine.startRun, setState, hnone]
    stopNext := nofun
    finished := rfl }

/-- The issue half of a step (R223). -/
theorem SchInv.stepIssued (h : SchInv cfg x) (hcfg : cfg.wf = true) (hb : x.busy = false)
    (hs : x.schState = .loaded) {p : Nat} (hp : x.cmdAt p) :
    SchInv cfg { x with callout := .step, calloutLine := p } := by
  obtain ⟨hidle, -⟩ := Sch.busy_eq_false.1 hb
  exact { h with
    calloutLine := h.bounds.cmd_lt hcfg hp
    callout := by simp [hidle]
    stepping := fun _ => ⟨hidle, hs⟩
    calloutAt := nofun
    stepAt := fun _ => hp }

/-! ### Stopping (42_scheduler.md R224, R225) -/

/-- A step's callout is outstanding in `LOADED` only, so none is while a run goes on. -/
theorem SchInv.callout_ne_step (h : SchInv cfg x) (hs : x.schState = .running) :
    x.callout ≠ .step := fun hc => by simp [(h.stepping hc).2] at hs

/-- A stop leaves the executor to exit by itself, with or without a pending `stop_next`. -/
theorem SchInv.stopped (h : SchInv cfg x) (hs : x.schState = .running) {n : Bool} {k : Nat}
    (hk : k < 16777216) :
    SchInv cfg { x with stopNext := n, stopIssuer := k, schState := .loaded } :=
  { h with
    stopIssuer := hk
    running := nofun
    stepping := fun hc => absurd hc (h.callout_ne_step hs)
    noErrors := fun _ => h.noErrors (.inr hs)
    alive := fun _ => .inr rfl
    stopNext := fun _ => ⟨h.running hs, rfl⟩ }

/-! ### Completions (42_scheduler.md R228, R231) -/

/-- The completion of a step. -/
theorem SchInv.stepDone (h : SchInv cfg x) (hcfg : cfg.wf = true) (hc : x.callout = .step)
    (hw : x.xphase = .sleep → x.wake ≤ now + Config.sliceMs) (r : Bool) :
    SchAfter cfg now (stepDone x r) := by
  obtain ⟨hidle, -⟩ := h.stepping hc
  have hmove : ∀ p, x.cmdAt p → SchInv cfg { x with pos := p, callout := .none } := fun p hp =>
    { h with
      pos := lt_max_of_lt_left hp.lt
      counting := fun hne => absurd hidle hne
      callout := by simp [hidle]
      stepping := nofun
      atCommand := fun hne => absurd hidle hne
      sliceFits := by simp [hidle]
      calloutAt := nofun
      stepAt := nofun }
  unfold Machine.stepDone
  split
  · rename_i p hp
    have hcmd := cmdAt_of_nextCmdAfter hp
    exact ⟨hmove p hcmd, hw, completion_ofSch h.calloutLine (h.bounds.cmd_lt hcfg hcmd)⟩
  · exact ⟨hmove _ (h.stepAt hc), hw, execError_ofSch h.calloutLine⟩

/-- While a run's callout is outstanding its command's delay is the one that is counted down. -/
theorem SchInv.counting_callout (h : SchInv cfg x) (hc : x.callout = .run) :
    x.delaysWhole (some x.calloutLine) := by
  rw [h.calloutAt hc]
  exact h.counting (by simp [h.callout.1 hc])

/-- The next command of a run, its predecessor's delay restored (R231). -/
theorem SchInv.nextCommand (h : SchInv cfg x) (hc : x.callout = .run) {l : Line}
    (hl : x.lines[x.calloutLine]? = some l) {p : Nat} (hp : x.cmdAt p) :
    SchInv cfg { x with
      lines := setDelay x.lines x.calloutLine l.origDelay, callout := .none, pos := p,
      xphase := .head } := by
  have hlive : x.xphase ≠ .idle := by simp [h.callout.1 hc]
  have hb := h.bounds.setDelay hl le_rfl
  exact { hb with
    pos := by simpa [Sch.nlines] using .inl hp.lt
    slice := h.slice
    restored := nofun
    counting := fun _ => ((h.counting_callout hc).restore hl).weaken p
    running := nofun
    callout := by simp
    stepping := nofun
    atCommand := fun _ => hp.congr (setDelay_isCmd ..)
    alive := fun _ => h.alive hlive
    sliceFits := nofun
    calloutAt := nofun
    stepAt := nofun
    stopNext := fun hn => ⟨nofun, (h.stopNext hn).2⟩
    finished := h.finished }

/-- The completion of a run's callout: the next command, or the exit after the last one. -/
theorem SchInv.runDone (h : SchInv cfg x) (hcfg : cfg.wf = true) (hc : x.callout = .run) {r : Bool}
    (hq : runDone x r = .ok q) : SchAfter cfg now q := by
  obtain ⟨x', es⟩ := q
  obtain ⟨l, hl, ⟨p, hp, rfl, rfl⟩ | ⟨-, es', hexit, rfl⟩⟩ := runDone_ok.1 hq
  · have hcmd := cmdAt_of_nextCmdAfter hp
    exact ⟨h.nextCommand hc hl hcmd, nofun,
      completion_ofSch h.calloutLine (h.bounds.cmd_lt hcfg hcmd)⟩
  · have herr := execError_ofSch (r := r) h.calloutLine
    have hlive : x.xphase ≠ .idle := by simp [h.callout.1 hc]
    have hrestored := (h.counting_callout hc).restore hl
    have hb := h.bounds.setDelay hl le_rfl
    have hx := SchAfter.exitRun (now := now) hexit hcfg { hb with } (hrestored.weaken x.pos)
      (h.alive hlive)
    exact ⟨hx.inv, hx.wakeNear, fun e he => (List.mem_append.1 he).elim (herr e) (hx.events e)⟩

/-! ### Every operation -/

/-- Every scheduler operation keeps SCH's invariant. -/
theorem SchInv.schOp (h : SchInv cfg x) (hcfg : cfg.wf = true)
    (hw : x.xphase = .sleep → x.wake ≤ now + Config.sliceMs) (hop : SchOp cfg env now x q) :
    SchAfter cfg now q := by
  have hstate : ∀ e ∈ [Event.stateChanged .loaded], e.ofSch = true := by decide
  cases hop with
  | keep => exact ⟨h, hw, nofun⟩
  | load hb hn => exact h.finishLoad _ hn
  | start hb hs hp => exact h.startRun hb hs hp
  | step hb hs hp =>
    refine ⟨h.stepIssued hcfg hb hs hp, hw, ?_⟩
    simpa [execReqOf, Event.ofSch, Event.inRange] using h.bounds.cmd_lt hcfg hp
  | stop hs => exact ⟨h.stopped hs h.stopIssuer, hw, hstate⟩
  | stopNext hs => exact ⟨h.stopped hs (h.bounds.pos_lt hcfg), hw, hstate⟩
  | stepDone hc => exact h.stepDone hcfg hc hw _
  | runDone hc hq => exact h.runDone hcfg hc hq

end

end Sys2Proof.Machine
end

section
/-! SUPPORT. Every step keeps the invariant of the block and the message view: the parts of the
state one by one, then the four kinds of step. -/

namespace Sys2Proof

section
variable {imm : Imm} {data : Bytes} {i j : Instr}

theorem takeNothing_dataBlock (h : takeNothing imm data i = .ok j) (hi : i.dataBlock = []) :
    j.dataBlock = data := by
  obtain ⟨-, rfl, rfl⟩ := takeNothing_ok.1 h
  exact hi

theorem takeData_dataBlock {f : Bytes → Instr} (h : takeData imm data f = .ok j)
    (hf : (f data).dataBlock = data) : j.dataBlock = data := by
  obtain ⟨-, rfl⟩ := takeData_ok.1 h
  exact hf

theorem takeImm_dataBlock {f : Imm → Instr} (h : takeImm imm data f = .ok j)
    (hf : (f imm).dataBlock = []) : j.dataBlock = data := by
  obtain ⟨rfl, rfl⟩ := takeImm_ok.1 h
  exact hf

theorem takeAddr_dataBlock (h : takeAddr imm data = .ok j) : j.dataBlock = data := by
  obtain ⟨_, -, rfl⟩ := takeAddr_ok.1 h
  rfl

theorem takeResult_dataBlock (h : takeResult imm data = .ok j) : j.dataBlock = data := by
  obtain ⟨_, -, rfl, rfl⟩ := takeResult_ok.1 h
  rfl

end

section
variable {op : Nat} {imm : Imm} {data : Bytes} {i : Instr}

theorem decodeCodec_dataBlock (h : decodeCodec op imm data = .ok i) : i.dataBlock = data := by
  unfold decodeCodec at h
  split at h
  · exact takeNothing_dataBlock h rfl
  · exact takeNothing_dataBlock h rfl
  · exact takeData_dataBlock h rfl
  · exact takeAddr_dataBlock h
  · exact takeNothing_dataBlock h rfl
  · cases h

theorem decodeRb_dataBlock (h : decodeRb op imm data = .ok i) : i.dataBlock = data := by
  unfold decodeRb at h
  split at h
  · exact takeNothing_dataBlock h rfl
  · obtain rfl := Except.ok.inj h
    rfl
  · exact takeImm_dataBlock h rfl
  · exact takeNothing_dataBlock h rfl
  · exact takeNothing_dataBlock h rfl
  · exact takeNothing_dataBlock h rfl
  · exact takeNothing_dataBlock h rfl
  · cases h

theorem decodeSch_dataBlock (h : decodeSch op imm data = .ok i) : i.dataBlock = data := by
  unfold decodeSch at h
  split at h
  · exact takeData_dataBlock h rfl
  · exact takeImm_dataBlock h rfl
  · exact takeImm_dataBlock h rfl
  · exact takeNothing_dataBlock h rfl
  · exact takeNothing_dataBlock h rfl
  · exact takeNothing_dataBlock h rfl
  · exact takeResult_dataBlock h
  · cases h

/-- A decoded operation carries the data block it came with (R117). -/
theorem decode_dataBlock {w : CmdWord} (h : decode w data = .ok i) : i.dataBlock = data := by
  unfold decode at h
  split at h
  · exact decodeCodec_dataBlock h
  · exact decodeRb_dataBlock h
  · exact decodeSch_dataBlock h
  · cases h

end

end Sys2Proof

namespace Sys2Proof.Machine

/-! ### The parts of the state -/

section
variable {s : State}

theorem Inv.withCodec (h : Inv s) {c : Codec} (hc : CodecInv s.cfg c) : Inv (s.withCodec c) :=
  { h with codec := hc }

theorem Inv.withRb (h : Inv s) {r : Rb} (hr : RbInv s.cfg r) : Inv (s.withRb r) :=
  { h with rb := hr }

theorem Inv.emit (h : Inv s) {es : List Event} (he : ∀ e ∈ es, e.inRange = true) :
    Inv (s.emit es) :=
  { h with evq := fun e hm => (List.mem_append.1 hm).elim (h.evq e) (he e) }

theorem Inv.withSch (h : Inv s) {x : Sch} (hx : SchInv s.cfg x)
    (hw : x.xphase = .sleep → x.wake ≤ s.now + Config.sliceMs) : Inv (s.withSch x) :=
  { h with sch := hx, wakeNear := hw }

/-- A scheduler procedure's result, with its records. -/
theorem Inv.schAfter (h : Inv s) {q : Sch × List Event} (hq : SchAfter s.cfg s.now q) :
    Inv ((s.withSch q.1).emit q.2) :=
  (h.withSch hq.inv hq.wakeNear).emit fun e he => Event.inRange_of_ofSch (hq.events e he)

theorem Inv.answer (h : Inv s) (a : Reply) : Inv (s.answer a) := { h with }

theorem Inv.received (h : Inv s) (p : Port) (rest : List Input) : Inv (s.received p rest) :=
  { h with }

theorem Inv.turn (h : Inv s) (rest : List Input) : Inv (s.turn rest) := { h with }

/-- The end of a slice only comes nearer. -/
theorem Inv.advance (h : Inv s) (ms : Nat) : Inv (s.advance ms) :=
  have hle : s.now + Config.sliceMs ≤ s.now + ms + Config.sliceMs := by omega
  { h with wakeNear := fun hp => (h.wakeNear hp).trans hle }

theorem Inv.idle (h : Inv s) : Inv s.idle :=
  { h.advance (Config.idleAdvance s.idleTicks + 1) with }

/-- Records of SCH hold no message, so the view stays. -/
theorem ViewInv.emit (hv : ViewInv s) {es : List Event} (he : ∀ e ∈ es, e.ofSch = true) :
    ViewInv (s.emit es) := by
  rw [viewInv_iff, State.emit_evq, lastMsg_append, lastMsg_eq_none_of_ofSch he]
  exact hv

/-! ### The operations and the executor -/

variable {t : State} {i : Instr}

/-- Every operation keeps the invariant. -/
theorem Inv.exec (h : Inv s) (hdata : i.dataBlock.length < dataBlockBound)
    (hx : exec i s = .next t) : Inv t := by
  obtain ⟨-, c, es, a, hop, rfl⟩ | ⟨-, r, a, hop, rfl⟩ | ⟨-, q, a, hop, rfl⟩ := exec_next hx
  · obtain ⟨hc, he⟩ := h.codec.codecOp h.cfg hdata hop
    exact ((h.withCodec hc).emit he).answer a
  · exact (h.withRb (h.rb.rbOp hop)).answer a
  · exact (h.schAfter (h.sch.schOp h.cfg h.wakeNear hop)).answer a

/-- Every operation keeps the message view: CODEC's operations by their bytes, RB's touch neither
CODEC nor the events, and SCH emits no message. -/
theorem ViewInv.exec (hv : ViewInv s) (h : Inv s) (hdata : i.dataBlock.length < dataBlockBound)
    (hx : exec i s = .next t) : ViewInv t := by
  obtain ⟨-, c, es, a, hop, rfl⟩ | ⟨-, r, a, -, rfl⟩ | ⟨-, q, a, hop, rfl⟩ := exec_next hx
  · have hviews := Codec.Views.codecOp h.cfg hdata h.codec (viewInv_iff.1 hv) hop
    rwa [← lastMsg_append] at hviews
  · exact hv
  · exact ViewInv.emit (s := s.withSch q.1) hv (h.sch.schOp h.cfg h.wakeNear hop).events

end

/-! ### One step -/

/-- Settles O55: an operation by its unit's invariant, the EXECUTOR by SCH's, and TIME brings the
end of a slice nearer. -/
theorem stepKeepsTheInvariant : Obligations.StepKeepsTheInvariant := by
  intro s t h hstep
  obtain ⟨p, w, data, rest, i, -, hlen, hdec, -, hx⟩ | ⟨p, w, data, rest, -, -, -, rfl⟩ |
    ⟨rest, x, es, -, hx, rfl⟩ | ⟨rest, ms, -, rfl⟩ | ⟨-, -, rfl⟩ := step_next hstep
  · exact (h.received p rest).exec ((decode_dataBlock hdec).symm ▸ hlen) hx
  · exact (h.received p rest).answer _
  · exact (h.turn rest).schAfter (h.sch.executorStep h.cfg h.wakeNear hx)
  · exact (h.turn rest).advance ms
  · exact (h.turn []).idle

/-- Settles O21: an operation by `ViewInv.exec`, and no other step touches CODEC or emits a
message. -/
theorem stepKeepsTheMessageView : Obligations.StepKeepsTheMessageView := by
  intro s t h hv hstep
  obtain ⟨p, w, data, rest, i, -, hlen, hdec, -, hx⟩ | ⟨p, w, data, rest, -, -, -, rfl⟩ |
    ⟨rest, x, es, -, hx, rfl⟩ | ⟨rest, ms, -, rfl⟩ | ⟨-, -, rfl⟩ := step_next hstep
  · exact ViewInv.exec (s := s.received p rest) hv (h.received p rest)
      ((decode_dataBlock hdec).symm ▸ hlen) hx
  · exact hv
  · exact ViewInv.emit (s := (s.turn rest).withSch x) hv
      (h.sch.executorStep h.cfg h.wakeNear hx).events
  · exact hv
  · exact hv

end Sys2Proof.Machine
end

section
/-! SUPPORT. What one step does, by what is scheduled (20_memory.md R80): a transaction its port
carries and admits, the EXECUTOR's turn, TIME, and a step with nothing scheduled. -/

namespace Sys2Proof.Machine

/-! ### A transaction -/

/-- A decoded operation that is admitted and that a port can carry runs (R117, R118). -/
theorem transact_eq_exec {p : Port} {w : CmdWord} {data : Bytes} {i : Instr} {s : State}
    (hdec : decode w data = .ok i) (hwf : i.wf = true) (hadm : admits i p = true) :
    transact p w data s = exec i s := by
  have hlen : data.length < dataBlockBound := by
    rw [← decode_dataBlock hdec]
    exact of_decide_eq_true hwf
  have hat : decodeAt p w data = .ok i := by simp [decodeAt, hdec, hadm]
  simp only [transact, hlen, hat, if_true]

/-- Settles O5: the next step is a transaction, and the transaction runs what it decodes to. -/
theorem stepRunsTheDecodedOperation : Obligations.StepRunsTheDecodedOperation := by
  intro s p w data rest i hinputs hdec hwf hadm
  rw [step_op hinputs, transact_eq_exec hdec hwf hadm]
  rfl

/-! ### The EXECUTOR and TIME -/

/-- An executor step is enabled at the loop head and at the end of a slice only (R229, R230). -/
theorem executorEnabled_eq_true_iff {now : Nat} {x : Sch} :
    executorEnabled now x = true ↔ x.xphase = .head ∨ x.xphase = .sleep ∧ x.wake ≤ now := by
  cases hp : x.xphase <;> simp [executorEnabled, hp]

/-- No executor step is enabled outside a run, during a callout and within a slice. -/
theorem executorEnabled_eq_false_iff {now : Nat} {x : Sch} :
    executorEnabled now x = false ↔
      x.xphase = .idle ∨ x.xphase = .execWait ∨ x.xphase = .sleep ∧ now < x.wake := by
  cases hp : x.xphase <;> simp [executorEnabled, hp]

/-- The EXECUTOR's turn changes nothing where no executor step is enabled (R301). -/
theorem executorTurn_of_not_enabled {s : State} (h : executorEnabled s.now s.sch = false) :
    executorTurn s = .next s :=
  executorTurn_next.2 ⟨s.sch, [], executorStep_ok.2 (.inl ⟨h, rfl, rfl⟩), by simp⟩

/-- With nothing scheduled an enabled executor step is taken (R233). -/
theorem idleStep_of_enabled {s : State} (h : executorEnabled s.now s.sch = true) :
    idleStep s = executorTurn s :=
  if_pos h

/-- With nothing scheduled and no executor step enabled, time passes (R306). -/
theorem idleStep_of_not_enabled {s : State} (h : executorEnabled s.now s.sch = false) :
    idleStep s = .next s.idle :=
  if_neg (Bool.eq_false_iff.1 h)

/-- Settles O6: the kinds of step without a transaction, one by one. -/
theorem stepTakesTheTurnOfExecutorOrTime : Obligations.StepTakesTheTurnOfExecutorOrTime := by
  intro s rest
  refine ⟨fun ms hi => ?time, fun hi hoff => ?executor, fun hi hon => ?enabled,
    fun hi hoff => ?idle⟩
  case time => exact step_time hi
  case executor =>
    rw [step_executor hi]
    exact executorTurn_of_not_enabled (s := s.turn rest) (executorEnabled_eq_false_iff.2 hoff)
  case enabled =>
    calc step s
        = idleStep (s.turn []) := step_nil hi
      _ = executorTurn (s.turn []) :=
          idleStep_of_enabled (s := s.turn []) (executorEnabled_eq_true_iff.2 hon)
      _ = step { s with inputs := [.executor] } :=
          (step_executor (s := { s with inputs := [.executor] }) rfl).symm
  case idle =>
    refine ⟨Config.idleAdvance s.idleTicks + 1, Nat.succ_pos _, ?_⟩
    rw [step_nil hi,
      idleStep_of_not_enabled (s := s.turn []) (executorEnabled_eq_false_iff.2 hoff), ← hi]
    rfl

end Sys2Proof.Machine
end

section
/-! SUPPORT. The unread slots as a queue (20_memory.md R87, 41_ringbuffer.md R199, R200): what a
commit and a fill make of the queue, then what each operation can do to it. -/

namespace Sys2Proof.Machine

section
variable {cfg : Cfg} {r : Rb} {n : Nat}

/-! ### The queue over the commits and over a fill -/

/-- With a slot free, the write slot is none of the unread slots. -/
theorem RbInv.unread_ne_wr (h : RbInv cfg r) (hc : r.count < cfg.rbSlots) {k : Nat}
    (hk : k < r.count) : r.wr ≠ (r.rd + k) % cfg.rbSlots := by
  rw [h.cursors]
  exact (slot_ne hk (by omega)).symm

/-- Every used-length fits its slot (R42), and an entry that is not there counts as 0. -/
theorem RbInv.usedGetD_le (h : RbInv cfg r) (i : Nat) : r.used.getD i 0 ≤ cfg.slotSize := by
  rw [List.getD_eq_getElem?_getD]
  cases hu : r.used[i]? with
  | none => exact Nat.zero_le _
  | some m => exact h.usedRange m (List.mem_of_getElem? hu)

/-- A write commit appends the write slot's first `n` bytes. -/
theorem unreadSlots_commitWrite (h : RbInv cfg r) (hc : r.count < cfg.rbSlots) :
    unreadSlots cfg (commitWrite cfg r n) =
      unreadSlots cfg r ++ [readBytes .slot r.slots (slotAddr cfg r.wr 0) n] := by
  have hwr : (r.rd + r.count) % cfg.rbSlots < r.used.length := by
    rw [← h.cursors, h.usedLength]
    exact h.wr
  have hold : ∀ k ∈ List.range r.count,
      readBytes .slot r.slots (slotAddr cfg ((r.rd + k) % cfg.rbSlots) 0)
          ((r.used.set r.wr n).getD ((r.rd + k) % cfg.rbSlots) 0) =
        readBytes .slot r.slots (slotAddr cfg ((r.rd + k) % cfg.rbSlots) 0)
          (r.used.getD ((r.rd + k) % cfg.rbSlots) 0) := by
    intro k hk
    have hne := h.unread_ne_wr hc (List.mem_range.1 hk)
    rw [List.getD_eq_getElem?_getD, List.getElem?_set_ne hne, ← List.getD_eq_getElem?_getD]
  simp only [unreadSlots, commitWrite_count, commitWrite_used, commitWrite_rd, commitWrite_slots,
    List.range_succ, List.map_append, List.map_congr_left hold]
  simp [h.cursors, hwr]

/-- A read commit removes the oldest entry, the read slot's first used-length bytes. -/
theorem unreadSlots_eq_cons (hc : 1 ≤ r.count) (hn : r.used[r.rd]? = some n)
    (hrd : r.rd < cfg.rbSlots) :
    unreadSlots cfg r =
      readBytes .slot r.slots (slotAddr cfg r.rd 0) n :: unreadSlots cfg (commitRead cfg r n) := by
  obtain ⟨m, hm⟩ : ∃ m, r.count = m + 1 := ⟨r.count - 1, by omega⟩
  have hshift : ∀ k, ((r.rd + 1) % cfg.rbSlots + k) % cfg.rbSlots =
      (r.rd + (k + 1)) % cfg.rbSlots := by
    intro k
    rw [Nat.mod_add_mod, Nat.add_assoc, Nat.add_comm 1]
  simp [unreadSlots, hm, List.range_succ_eq_map, Nat.mod_eq_of_lt hrd, hn, hshift,
    Function.comp_def]

/-- Writing into one slot leaves the bytes of every other slot. -/
theorem readBytes_slotWrite_other {i j o : Nat} {data : Bytes} {m : Memory} (hij : i ≠ j)
    (hw : slotWrite cfg r i o data = .ok m) (hn : n ≤ cfg.slotSize) :
    readBytes .slot m (slotAddr cfg j 0) n = readBytes .slot r.slots (slotAddr cfg j 0) n := by
  obtain ⟨⟨-, ho⟩, rfl⟩ := slotWrite_ok.1 hw
  refine readBytes_congr fun a hlo hhi => ?_
  rw [byteAt_writeBytes, if_neg]
  rintro ⟨hlo', hhi'⟩
  refine slotAddr_ne (cfg := cfg) (o := a - slotAddr cfg i 0) (k := a - slotAddr cfg j 0) hij
    ?_ ?_ ?_
  all_goals
    simp only [slotAddr] at *
    omega

/-- A fill of the write slot changes no unread slot (R87). -/
theorem unreadSlots_fill (h : RbInv cfg r) (hc : r.count < cfg.rbSlots) {o : Nat} {data : Bytes}
    {m : Memory} (hw : slotWrite cfg r r.wr o data = .ok m) :
    unreadSlots cfg { r with slots := m } = unreadSlots cfg r :=
  List.map_congr_left fun _ hk =>
    readBytes_slotWrite_other (h.unread_ne_wr hc (List.mem_range.1 hk)) hw (h.usedGetD_le _)

/-- The bytes available after a read commit, and the bytes it took (R196). -/
theorem RbInv.bytes_commitRead (h : RbInv cfg r) (hc : 1 ≤ r.count)
    (hn : r.used[r.rd]? = some n) : (Machine.commitRead cfg r n).bytes + n = r.bytes := by
  have hsum := unreadBytes_commitRead hc hn h.rd
  rw [commitRead_bytes, h.bytes]
  omega

end

/-! ### What an operation can do to the queue -/

/-- The operations of which an accepted one moves the queue or answers from it. -/
def movesQueue : Instr → Bool
  | .rbCommitWrite _ => true
  | .rbTryGetRead => true
  | .rbCommitRead => true
  | _ => false

/-- What an operation can do to the queue of unread slots and to the bytes available. -/
inductive QueueStep (s t : State) : Instr → Prop
  | append {n : Imm} (hreply : t.reply = some (.ok .none))
      (hunread : unreadSlots t.cfg t.rb = unreadSlots s.cfg s.rb ++
        [readBytes .slot s.rb.slots (slotAddr s.cfg s.rb.wr 0) n.toNat])
      (hbytes : t.rb.bytes = s.rb.bytes + n.toNat) : QueueStep s t (.rbCommitWrite n)
  | remove {d : Bytes} (hreply : t.reply = some (.ok .none))
      (hunread : unreadSlots s.cfg s.rb = d :: unreadSlots t.cfg t.rb)
      (hbytes : t.rb.bytes + s.rb.used.getD s.rb.rd 0 = s.rb.bytes) : QueueStep s t .rbCommitRead
  | oldest {len : Nat} {d : Bytes} (hreply : t.reply = some (.ok (.slotData s.rb.rd len d)))
      (hhead : (unreadSlots s.cfg s.rb).head? = some d)
      (hunread : unreadSlots t.cfg t.rb = unreadSlots s.cfg s.rb)
      (hbytes : t.rb.bytes = s.rb.bytes) : QueueStep s t .rbTryGetRead
  | keep {i : Instr} (hreply : movesQueue i = true → ∀ v, t.reply ≠ some (.ok v))
      (hunread : unreadSlots t.cfg t.rb = unreadSlots s.cfg s.rb)
      (hbytes : t.rb.bytes = s.rb.bytes) : QueueStep s t i

section
variable {s t : State} {i : Instr}

/-- A reply that changes nothing else keeps the queue. -/
theorem QueueStep.of_done {a : Reply} (hx : s.done a = .next t)
    (hreply : movesQueue i = true → ∀ v, a ≠ .ok v) : QueueStep s t i := by
  obtain rfl := done_next.1 hx
  exact .keep (fun hi v hv => hreply hi v (Option.some.inj hv)) rfl rfl

theorem execRbTryGetWrite_queueStep (hx : execRbTryGetWrite s = .next t) :
    QueueStep s t .rbTryGetWrite := by
  unfold execRbTryGetWrite at hx
  split at hx
  · exact .of_done hx nofun
  · obtain rfl := done_next.1 hx
    exact .keep nofun rfl rfl

theorem execRbFill_queueStep {off : Imm} {data : Bytes} (h : RbInv s.cfg s.rb)
    (hx : execRbFill off data s = .next t) : QueueStep s t (.rbFill off data) := by
  unfold execRbFill at hx
  split at hx
  next hheld =>
    split at hx
    · exact .of_done hx nofun
    · obtain ⟨m, hm, ht⟩ := orFault_next.1 hx
      obtain rfl := done_next.1 ht
      exact .keep nofun (unreadSlots_fill h (h.wrHeld hheld) hm) rfl
  · exact .of_done hx nofun

theorem execRbCommitWrite_queueStep {n : Imm} (h : RbInv s.cfg s.rb)
    (hx : execRbCommitWrite n s = .next t) : QueueStep s t (.rbCommitWrite n) := by
  unfold execRbCommitWrite at hx
  split at hx
  next hheld =>
    split at hx
    · exact .of_done hx nofun
    · obtain ⟨_, -, ht⟩ := orFault_next.1 hx
      obtain rfl := done_next.1 ht
      exact .append rfl (unreadSlots_commitWrite h (h.wrHeld hheld)) rfl
  · exact .of_done hx nofun

theorem execRbTryGetRead_queueStep (h : RbInv s.cfg s.rb) (hx : execRbTryGetRead s = .next t) :
    QueueStep s t .rbTryGetRead := by
  unfold execRbTryGetRead at hx
  split at hx
  · exact .of_done hx nofun
  next hne =>
    obtain ⟨n, hn, hx⟩ := orFault_next.1 hx
    obtain ⟨d, hd, ht⟩ := orFault_next.1 hx
    obtain ⟨-, rfl⟩ := slotRead_ok.1 hd
    obtain rfl := done_next.1 ht
    have hc : s.rb.count ≠ 0 := by simpa [Rb.empty] using hne
    have hcons := unreadSlots_eq_cons (Nat.one_le_iff_ne_zero.2 hc) (usedAt_ok.1 hn) h.rd
    exact .oldest rfl (by rw [hcons, List.head?_cons]) rfl rfl

theorem execRbCommitRead_queueStep (h : RbInv s.cfg s.rb) (hx : execRbCommitRead s = .next t) :
    QueueStep s t .rbCommitRead := by
  unfold execRbCommitRead at hx
  split at hx
  next hheld =>
    obtain ⟨n, hn, ht⟩ := orFault_next.1 hx
    obtain rfl := done_next.1 ht
    have hused := usedAt_ok.1 hn
    have hc := h.rdHeld hheld
    refine .remove rfl (unreadSlots_eq_cons hc hused h.rd) ?_
    rw [List.getD_eq_getElem?_getD, hused]
    exact h.bytes_commitRead hc hused
  · exact .of_done hx nofun

theorem execRbReadHwm_queueStep (hx : execRbReadHwm s = .next t) :
    QueueStep s t .rbReadHwm := by
  unfold execRbReadHwm at hx
  obtain rfl := done_next.1 hx
  exact .keep nofun rfl rfl

/-- The operations that move the queue are RB's. -/
theorem unitOf_of_movesQueue (h : movesQueue i = true) : unitOf (encodeWord i) = 2 := by
  cases i with
  | rbCommitWrite n => exact unitOf_cmd32 ..
  | rbTryGetRead => exact unitOf_cmd32 ..
  | rbCommitRead => exact unitOf_cmd32 ..
  | _ => cases h

/-- The other units' operations leave RB, and so the queue. -/
theorem QueueStep.of_other_unit (hu : unitOf (encodeWord i) ≠ 2) (hx : exec i s = .next t) :
    QueueStep s t i := by
  have hreply : movesQueue i = true → ∀ v, t.reply ≠ some (.ok v) :=
    fun hi => absurd (unitOf_of_movesQueue hi) hu
  obtain ⟨-, _, _, _, -, rfl⟩ | ⟨hu', -⟩ | ⟨-, _, _, -, rfl⟩ := exec_next hx
  · exact .keep hreply rfl rfl
  · exact absurd hu' hu
  · exact .keep hreply rfl rfl

/-- Everything an operation can do to the queue. -/
theorem exec_queueStep (h : RbInv s.cfg s.rb) (hx : exec i s = .next t) : QueueStep s t i := by
  cases i with
  | rbTryGetWrite => exact execRbTryGetWrite_queueStep hx
  | rbFill off data => exact execRbFill_queueStep h hx
  | rbCommitWrite n => exact execRbCommitWrite_queueStep h hx
  | rbTryGetRead => exact execRbTryGetRead_queueStep h hx
  | rbCommitRead => exact execRbCommitRead_queueStep h hx
  | rbBytesAvailable => exact .of_done hx nofun
  | rbReadHwm => exact execRbReadHwm_queueStep hx
  | _ => exact .of_other_unit (by simp [encodeWord, unitOf_cmd32]) hx

/-! ### The bytes commits move -/

theorem committedBy_eq_zero (h : movesQueue i = true → ∀ v, t.reply ≠ some (.ok v)) :
    committedBy i t = 0 := by
  unfold committedBy
  split
  next v hv => exact absurd hv (h rfl v)
  · rfl

theorem consumedBy_eq_zero (h : movesQueue i = true → ∀ v, t.reply ≠ some (.ok v)) :
    consumedBy i s t = 0 := by
  unfold consumedBy
  split
  next v hv => exact absurd hv (h rfl v)
  · rfl

end

/-- Settles O29: clause by clause over what `exec_queueStep` says an operation can do. -/
theorem unreadSlotsAreAQueue : Obligations.UnreadSlotsAreAQueue := by
  intro s t i _ hrb hx
  cases exec_queueStep hrb hx with
  | append hreply hunread hbytes =>
    refine ⟨?_, nofun, fun hw _ => absurd hreply (hw _ rfl), nofun, ?_⟩
    · rintro _ ⟨⟩ -
      exact hunread
    · simp [committedBy, consumedBy, hreply, hbytes]
  | remove hreply hunread hbytes =>
    refine ⟨nofun, fun _ _ => ⟨_, hunread⟩, fun _ hr => absurd hreply (hr rfl), nofun, ?_⟩
    simpa [committedBy, consumedBy, hreply] using hbytes
  | oldest hreply hhead hunread hbytes =>
    refine ⟨nofun, nofun, fun _ _ => hunread, ?_, ?_⟩
    · intro _ n len d hanswer
      obtain ⟨rfl, rfl, rfl⟩ : s.rb.rd = n ∧ _ = len ∧ _ = d := by
        simpa using hreply.symm.trans hanswer
      exact ⟨rfl, hhead⟩
    · simp [committedBy, consumedBy, hbytes]
  | keep hreply hunread hbytes =>
    refine ⟨?_, ?_, fun _ _ => hunread, ?_, ?_⟩
    · rintro n rfl hok
      exact absurd hok (hreply rfl _)
    · rintro rfl hok
      exact absurd hok (hreply rfl _)
    · rintro rfl n len d hok
      exact absurd hok (hreply rfl _)
    · rw [committedBy_eq_zero hreply, consumedBy_eq_zero hreply, hbytes]

end Sys2Proof.Machine
end

section
/-! SUPPORT. Decode and encode are inverse (30_encoding.md R114 to R120): a word is its three fields,
what each unit's table decodes has those fields, and every operation's encoding decodes to it. -/

namespace Sys2Proof

/-! ### A word is its fields (R114) -/

theorem cmdWord_ext {v w : CmdWord} (hunit : unitOf v = unitOf w) (hop : opOf v = opOf w)
    (himm : immOf v = immOf w) : v = w := by
  obtain ⟨u, o, imm, rfl⟩ := exists_cmd32 v
  obtain ⟨u', o', imm', rfl⟩ := exists_cmd32 w
  simp only [unitOf_cmd32, opOf_cmd32, immOf_cmd32] at hunit hop himm
  rw [BitVec.eq_of_toNat_eq hunit, BitVec.eq_of_toNat_eq hop, himm]

/-! ### What a word decodes to (R116, R119) -/

/-- The command word of the operation has the given fields. -/
structure Instr.HasFields (i : Instr) (unit op : Nat) (imm : Imm) : Prop where
  unit : unitOf (encodeWord i) = unit
  op : opOf (encodeWord i) = op
  imm : immOf (encodeWord i) = imm

section
variable {op : Nat} {imm : Imm} {data : Bytes} {i : Instr}

theorem Instr.HasFields.of_cmd32 {u o : BitVec 4} (h : encodeWord i = cmd32 u o imm) :
    i.HasFields u.toNat o.toNat imm :=
  ⟨by rw [h, unitOf_cmd32], by rw [h, opOf_cmd32], by rw [h, immOf_cmd32]⟩

theorem Instr.HasFields.of_takeNothing {j : Instr} {u o : BitVec 4}
    (h : takeNothing imm data j = .ok i) (hj : encodeWord j = cmd32 u o 0#24) :
    i.HasFields u.toNat o.toNat imm := by
  obtain ⟨rfl, -, rfl⟩ := takeNothing_ok.1 h
  exact .of_cmd32 hj

theorem Instr.HasFields.of_takeData {f : Bytes → Instr} {u o : BitVec 4}
    (h : takeData imm data f = .ok i) (hf : encodeWord (f data) = cmd32 u o 0#24) :
    i.HasFields u.toNat o.toNat imm := by
  obtain ⟨rfl, rfl⟩ := takeData_ok.1 h
  exact .of_cmd32 hf

theorem Instr.HasFields.of_takeImm {f : Imm → Instr} {u o : BitVec 4}
    (h : takeImm imm data f = .ok i) (hf : encodeWord (f imm) = cmd32 u o imm) :
    i.HasFields u.toNat o.toNat imm := by
  obtain ⟨-, rfl⟩ := takeImm_ok.1 h
  exact .of_cmd32 hf

theorem decodeCodec_hasFields (h : decodeCodec op imm data = .ok i) : i.HasFields 1 op imm := by
  unfold decodeCodec at h
  split at h
  · exact .of_takeNothing (u := 1#4) (o := 0#4) h rfl
  · exact .of_takeNothing (u := 1#4) (o := 1#4) h rfl
  · exact .of_takeData (u := 1#4) (o := 2#4) h rfl
  · obtain ⟨addr, rfl, rfl⟩ := takeAddr_ok.1 h
    exact .of_cmd32 (u := 1#4) (o := 3#4) rfl
  · exact .of_takeNothing (u := 1#4) (o := 4#4) h rfl
  · cases h

theorem decodeRb_hasFields (h : decodeRb op imm data = .ok i) : i.HasFields 2 op imm := by
  unfold decodeRb at h
  split at h
  · exact .of_takeNothing (u := 2#4) (o := 0#4) h rfl
  · obtain rfl := Except.ok.inj h
    exact .of_cmd32 (u := 2#4) (o := 1#4) rfl
  · exact .of_takeImm (u := 2#4) (o := 2#4) h rfl
  · exact .of_takeNothing (u := 2#4) (o := 3#4) h rfl
  · exact .of_takeNothing (u := 2#4) (o := 4#4) h rfl
  · exact .of_takeNothing (u := 2#4) (o := 5#4) h rfl
  · exact .of_takeNothing (u := 2#4) (o := 6#4) h rfl
  · cases h

theorem decodeSch_hasFields (h : decodeSch op imm data = .ok i) : i.HasFields 3 op imm := by
  unfold decodeSch at h
  split at h
  · exact .of_takeData (u := 3#4) (o := 0#4) h rfl
  · exact .of_takeImm (u := 3#4) (o := 1#4) h rfl
  · exact .of_takeImm (u := 3#4) (o := 2#4) h rfl
  · exact .of_takeNothing (u := 3#4) (o := 3#4) h rfl
  · exact .of_takeNothing (u := 3#4) (o := 4#4) h rfl
  · exact .of_takeNothing (u := 3#4) (o := 5#4) h rfl
  · obtain ⟨r, rfl, -, rfl⟩ := takeResult_ok.1 h
    exact .of_cmd32 (u := 3#4) (o := 6#4) rfl
  · cases h

/-- A decoded operation has the fields of its word. -/
theorem decode_hasFields {w : CmdWord} (h : decode w data = .ok i) :
    i.HasFields (unitOf w) (opOf w) (immOf w) := by
  unfold decode at h
  split at h
  next hu => rw [hu]; exact decodeCodec_hasFields h
  next hu => rw [hu]; exact decodeRb_hasFields h
  next hu => rw [hu]; exact decodeSch_hasFields h
  next => cases h

/-- A word that decodes to an operation is the operation's. -/
theorem decode_encodeWord {w : CmdWord} (h : decode w data = .ok i) : encodeWord i = w :=
  have hf := decode_hasFields h
  cmdWord_ext hf.unit hf.op hf.imm

end

/-! ### What an encoding decodes to -/

section
variable (o : BitVec 4) (imm : Imm) (data : Bytes)

theorem decode_codec : decode (cmd32 0x1#4 o imm) data = decodeCodec o.toNat imm data := by
  simp [decode]

theorem decode_rb : decode (cmd32 0x2#4 o imm) data = decodeRb o.toNat imm data := by
  simp [decode]

theorem decode_sch : decode (cmd32 0x3#4 o imm) data = decodeSch o.toNat imm data := by
  simp [decode]

end

/-- Every operation's encoding decodes to it. -/
theorem decode_encode (i : Instr) : decode (encodeWord i) i.dataBlock = .ok i := by
  cases i with
  | codecDecode chunk => exact (decode_codec ..).trans (takeData_ok.2 ⟨rfl, rfl⟩)
  | codecEncode addr payload => exact (decode_codec ..).trans (takeAddr_ok.2 ⟨addr, rfl, rfl⟩)
  | rbFill off data => exact decode_rb ..
  | rbCommitWrite n => exact decode_rb ..
  | schLoad block => exact (decode_sch ..).trans (takeData_ok.2 ⟨rfl, rfl⟩)
  | schStart n => exact decode_sch ..
  | schStep n => exact decode_sch ..
  | schExecDone r => exact (decode_sch ..).trans (takeResult_ok.2 ⟨r, rfl, rfl, rfl⟩)
  | _ => rfl

/-- A command word and a data block decode to an operation exactly when they are its encoding. -/
theorem decode_eq_ok_iff {w : CmdWord} {data : Bytes} {i : Instr} :
    decode w data = .ok i ↔ (w, data) = encode i := by
  constructor
  · intro h
    rw [encode, decode_encodeWord h, decode_dataBlock h]
  · intro h
    obtain ⟨rfl, rfl⟩ := Prod.mk.inj h
    exact decode_encode i

/-! ### Ports (R120) -/

/-- Every operation is admitted at the port the model issues it at. -/
theorem admits_admittedPort (i : Instr) : admits i (admittedPort i) = true := by
  cases i <;> rfl

theorem decodeAt_admittedPort (i : Instr) :
    decodeAt (admittedPort i) (encode i).1 (encode i).2 = .ok i := by
  simp [decodeAt, encode, decode_encode, admits_admittedPort]

/-! ### The byte-wide form (20_memory.md R78) -/

@[simp] theorem msbFirst_length (k v : Nat) : (msbFirst k v).length = k := by
  induction k with
  | zero => rfl
  | succ k ih => rw [msbFirst, List.length_cons, ih]

/-- Reading on after `a` shifts `a` up by the bytes read. -/
theorem foldl_msbFirst (k v a : Nat) :
    (msbFirst k v).foldl (fun v b => v * 256 + b.toNat) a = a * 256 ^ k + v % 256 ^ k := by
  induction k generalizing a with
  | zero => simp [msbFirst, Nat.mod_one]
  | succ k ih =>
    have hbyte : (BitVec.ofNat 8 (v / 256 ^ k)).toNat = v / 256 ^ k % 256 := by simp
    rw [msbFirst, List.foldl_cons, ih, hbyte, pow_succ, Nat.mod_mul]
    ring

theorem ofMsbFirst_msbFirst (k v : Nat) : ofMsbFirst (msbFirst k v) = v % 256 ^ k := by
  rw [ofMsbFirst, foldl_msbFirst, Nat.zero_mul, Nat.zero_add]

/-- An octet stream that begins with a word decodes as the word and the rest. -/
theorem decodeOctets_word (w : CmdWord) (data : Bytes) :
    decodeOctets (msbFirst 4 w.toNat ++ data) = (decode w data).toOption := by
  have hword : BitVec.ofNat 32 (ofMsbFirst (msbFirst 4 w.toNat)) = w := by
    rw [ofMsbFirst_msbFirst, Nat.mod_eq_of_lt (show w.toNat < 256 ^ 4 from w.isLt),
      BitVec.ofNat_toNat, BitVec.setWidth_eq]
  rw [decodeOctets, if_neg (by simp), List.take_left' (msbFirst_length ..),
    List.drop_left' (msbFirst_length ..), hword]

/-- Settles O1: decoding is encoding read backwards, the words by their fields and the octets by the
number they carry. -/
theorem decodeReadsBackExactlyTheEncoding : Obligations.DecodeReadsBackExactlyTheEncoding := by
  intro i
  refine ⟨fun _ _ => decode_eq_ok_iff, decodeAt_admittedPort i, ?_⟩
  rw [encodeOctets, decodeOctets_word, decode_encode]
  rfl

/-- Settles O3: each sample is an encoding, written out. -/
theorem sampleWordsDecode : Obligations.SampleWordsDecode :=
  ⟨decode_encode .codecReset, decode_encode (.codecEncode 0x00AA#16 [0x01#8]),
    decode_encode (.rbFill 2#24 [0xAA#8, 0xBB#8]), decode_encode (.rbCommitWrite 4#24),
    decode_encode (.schStart 3#24), decode_encode (.schExecDone true),
    decode_encode (.schExecDone false)⟩

end Sys2Proof
end

section
/-! SUPPORT. The opcode map (30_encoding.md R119): the words of an operation's row are the encodings
of the operations of that row. -/

namespace Sys2Proof.Machine

/-! ### The words of a row -/

/-- Every operation's command word lies in its row. -/
theorem encodeWord_and_mask (i : Instr) :
    encodeWord i &&& (opcodeRow i).mask = (opcodeRow i).base :=
  match i with
  | .codecReset => Laws.EncodesInRow.codecReset
  | .codecReqReset => Laws.EncodesInRow.codecReqReset
  | .codecDecode chunk => Laws.EncodesInRow.codecDecode chunk
  | .codecEncode addr payload => Laws.EncodesInRow.codecEncode addr payload
  | .codecMsgCopy => Laws.EncodesInRow.codecMsgCopy
  | .rbTryGetWrite => Laws.EncodesInRow.rbTryGetWrite
  | .rbFill off data => Laws.EncodesInRow.rbFill off data
  | .rbCommitWrite n => Laws.EncodesInRow.rbCommitWrite n
  | .rbTryGetRead => Laws.EncodesInRow.rbTryGetRead
  | .rbCommitRead => Laws.EncodesInRow.rbCommitRead
  | .rbBytesAvailable => Laws.EncodesInRow.rbBytesAvailable
  | .rbReadHwm => Laws.EncodesInRow.rbReadHwm
  | .schLoad block => Laws.EncodesInRow.schLoad block
  | .schStart n => Laws.EncodesInRow.schStart n
  | .schStep n => Laws.EncodesInRow.schStep n
  | .schStop => Laws.EncodesInRow.schStop
  | .schStopNext => Laws.EncodesInRow.schStopNext
  | .schStatus => Laws.EncodesInRow.schStatus
  | .schExecDone r => Laws.EncodesInRow.schExecDone r

/-- A mask over the unit, the operation and part of the operand leaves that part to be 0. -/
theorem exists_imm_of_and_mask {w : CmdWord} {u o : BitVec 4} {m : Imm}
    (h : w &&& ((0xF#4 ++ 0xF#4) ++ m) = cmd32 u o 0#24) :
    ∃ imm, w = cmd32 u o imm ∧ imm &&& m = 0#24 := by
  obtain ⟨u', o', imm, rfl⟩ := exists_cmd32 w
  rw [Laws.cmd32_and] at h
  have hu := congrArg unitOf h
  have ho := congrArg opOf h
  have himm := congrArg immOf h
  simp only [unitOf_cmd32, opOf_cmd32, immOf_cmd32] at hu ho himm
  rw [BitVec.eq_of_toNat_eq hu, BitVec.eq_of_toNat_eq ho]
  exact ⟨imm, rfl, himm⟩

/-- A bit vector whose upper part is masked to 0 is its lower part. -/
theorem exists_eq_zero_append {a b : Nat} {x : BitVec (a + b)}
    (h : x &&& (BitVec.allOnes a ++ 0#b) = 0#(a + b)) : ∃ v : BitVec b, x = 0#a ++ v := by
  refine ⟨x.setWidth b, BitVec.eq_of_getLsbD_eq fun k hk => ?_⟩
  have hbit := congrArg (·.getLsbD k) h
  by_cases hlow : k < b
  · simp [BitVec.getLsbD_append, hlow]
  · have hhigh : k - b < a := by omega
    simpa [BitVec.getLsbD_append, hlow, hhigh] using hbit

theorem exists_ofBool (v : BitVec 1) : ∃ r, v = BitVec.ofBool r :=
  (BitVec.eq_zero_or_eq_one v).elim (fun h => ⟨false, h⟩) fun h => ⟨true, h⟩

/-- What a word in an operation's row encodes, with a data block the row takes. -/
def InRow (i : Instr) (w : CmdWord) (data : Bytes) : Prop :=
  ∃ j, (w, data) = encode j ∧ opcodeRow j = opcodeRow i

/-- A row whose mask covers the whole word holds one word. -/
theorem inRow_of_full_mask {i j : Instr} {w : CmdWord} {data : Bytes}
    (h : w &&& (opcodeRow i).mask = (opcodeRow i).base)
    (hmask : (opcodeRow i).mask = BitVec.allOnes 32) (hbase : encodeWord j = (opcodeRow i).base)
    (hrow : opcodeRow j = opcodeRow i) (hdata : data = j.dataBlock) : InRow i w data := by
  rw [hmask, BitVec.and_allOnes, ← hbase] at h
  exact ⟨j, by rw [encode, h, hdata], hrow⟩

/-- A word that matches a row, with a data block only where the row takes one, is an encoding. -/
theorem inRow_of_and_mask {i : Instr} {w : CmdWord} {data : Bytes}
    (h : w &&& (opcodeRow i).mask = (opcodeRow i).base) (hdata : takesBlock i = true ∨ data = []) :
    InRow i w data := by
  have hempty : takesBlock i = false → data = [] := fun hf => hdata.resolve_left (by simp [hf])
  cases i with
  | codecDecode chunk => exact inRow_of_full_mask (j := .codecDecode data) h rfl rfl rfl rfl
  | schLoad block => exact inRow_of_full_mask (j := .schLoad data) h rfl rfl rfl rfl
  | codecEncode addr payload =>
    obtain ⟨imm, rfl, himm⟩ := exists_imm_of_and_mask (u := 1#4) (o := 3#4) (m := 0xFF0000#24) h
    obtain ⟨addr', rfl⟩ := exists_eq_zero_append (a := 8) (b := 16) himm
    exact ⟨.codecEncode addr' data, rfl, rfl⟩
  | rbFill off block =>
    obtain ⟨imm, rfl, -⟩ := exists_imm_of_and_mask (u := 2#4) (o := 1#4) (m := 0#24) h
    exact ⟨.rbFill imm data, rfl, rfl⟩
  | rbCommitWrite n =>
    obtain ⟨imm, rfl, -⟩ := exists_imm_of_and_mask (u := 2#4) (o := 2#4) (m := 0#24) h
    obtain rfl := hempty rfl
    exact ⟨.rbCommitWrite imm, rfl, rfl⟩
  | schStart n =>
    obtain ⟨imm, rfl, -⟩ := exists_imm_of_and_mask (u := 3#4) (o := 1#4) (m := 0#24) h
    obtain rfl := hempty rfl
    exact ⟨.schStart imm, rfl, rfl⟩
  | schStep n =>
    obtain ⟨imm, rfl, -⟩ := exists_imm_of_and_mask (u := 3#4) (o := 2#4) (m := 0#24) h
    obtain rfl := hempty rfl
    exact ⟨.schStep imm, rfl, rfl⟩
  | schExecDone r =>
    obtain ⟨imm, rfl, himm⟩ := exists_imm_of_and_mask (u := 3#4) (o := 6#4) (m := 0xFFFFFE#24) h
    obtain ⟨v, rfl⟩ := exists_eq_zero_append (a := 23) (b := 1) himm
    obtain ⟨r', rfl⟩ := exists_ofBool v
    obtain rfl := hempty rfl
    exact ⟨.schExecDone r', rfl, rfl⟩
  | _ => exact inRow_of_full_mask h rfl rfl rfl (hempty rfl)

/-- Settles O2: a decoded word is an encoding, so in its row; and the words of a row are encodings of
its operations. -/
theorem opcodeMapSelectsByMatchAndMask : Obligations.OpcodeMapSelectsByMatchAndMask := by
  intro i w data
  constructor
  · intro hdec
    rw [← decode_encodeWord hdec]
    exact encodeWord_and_mask i
  · intro hmatch hdata
    obtain ⟨j, hj, hrow⟩ := inRow_of_and_mask hmatch hdata
    exact ⟨j, decode_eq_ok_iff.2 hj, hrow⟩

end Sys2Proof.Machine
end

section
/-! SUPPORT. Illegal transactions (30_encoding.md R118): when each operand form and each unit's table
answers an operation the port admits, and what an illegal transaction does. -/

namespace Sys2Proof.Machine

/-! ### What is legal at a port -/

/-- The decoder answered an operation and the port admits it. -/
def LegalAt (p : Port) (r : Except Illegal Instr) : Prop := ∃ i, r = .ok i ∧ admits i p = true

section
variable {p : Port} {w : CmdWord} {imm : Imm} {data : Bytes}

/-- A transaction is illegal exactly when its word decodes to no operation its port admits. -/
theorem decodeAt_error_iff : (∃ e, decodeAt p w data = .error e) ↔ ¬LegalAt p (decode w data) := by
  unfold decodeAt LegalAt
  cases decode w data with
  | error e => simp
  | ok i => cases hadm : admits i p <;> simp [hadm]

@[simp] theorem not_legalAt_error (e : Illegal) : ¬LegalAt p (.error e) := by
  rintro ⟨i, hi, -⟩
  cases hi

@[simp] theorem legalAt_ok {i : Instr} : LegalAt p (.ok i) ↔ admits i p = true := by
  simp [LegalAt]

@[simp] theorem legalAt_takeNothing {i : Instr} :
    LegalAt p (takeNothing imm data i) ↔ imm.toNat = 0 ∧ data = [] ∧ admits i p = true := by
  simp [LegalAt, takeNothing_ok, ← BitVec.toNat_inj, and_assoc]

@[simp] theorem legalAt_takeData {f : Bytes → Instr} :
    LegalAt p (takeData imm data f) ↔ imm.toNat = 0 ∧ admits (f data) p = true := by
  simp [LegalAt, takeData_ok, ← BitVec.toNat_inj, and_assoc]

@[simp] theorem legalAt_takeImm {f : Imm → Instr} :
    LegalAt p (takeImm imm data f) ↔ data = [] ∧ admits (f imm) p = true := by
  simp [LegalAt, takeImm_ok, and_assoc]

/-- The operand's bits from bit `k` on are 0 when it is below `2 ^ k`. -/
theorem extractLsb'_eq_zero_iff {k n : Nat} (h : k + n = 24) :
    imm.extractLsb' k n = 0#n ↔ imm.toNat / 2 ^ k = 0 := by
  have hlt : imm.toNat / 2 ^ k < 2 ^ n :=
    Nat.div_lt_of_lt_mul (by rw [← pow_add, h]; exact imm.isLt)
  rw [← BitVec.toNat_inj, BitVec.extractLsb'_toNat, Nat.shiftRight_eq_div_pow,
    Nat.mod_eq_of_lt hlt, BitVec.toNat_zero]

@[simp] theorem legalAt_takeAddr :
    LegalAt p (takeAddr imm data) ↔ imm.toNat / 65536 = 0 ∧ p = .host := by
  have hhigh : imm.extractLsb' 16 8 = 0#8 ↔ imm.toNat / 65536 = 0 :=
    extractLsb'_eq_zero_iff rfl
  unfold takeAddr
  split
  next h => simp [admits, hhigh.1 h]
  next h => simp [mt hhigh.2 h]

@[simp] theorem legalAt_takeResult :
    LegalAt p (takeResult imm data) ↔ imm.toNat / 2 = 0 ∧ data = [] ∧ p = .host := by
  have hhigh : imm.extractLsb' 1 23 = 0#23 ↔ imm.toNat / 2 = 0 := extractLsb'_eq_zero_iff rfl
  unfold takeResult
  split
  next h => split <;> simp_all [admits]
  next h => simp [mt hhigh.2 h]

end

/-! ### The fields of a word as numbers (R114) -/

section
variable (w : CmdWord)

theorem unitOf_eq_div : unitOf w = w.toNat / 268435456 := by
  obtain ⟨u, o, imm, rfl⟩ := exists_cmd32 w
  have := o.isLt; have := imm.isLt
  rw [unitOf_cmd32, cmd32_toNat]
  omega

theorem opOf_eq_div : opOf w = w.toNat / 16777216 % 16 := by
  obtain ⟨u, o, imm, rfl⟩ := exists_cmd32 w
  have := o.isLt; have := imm.isLt
  rw [opOf_cmd32, cmd32_toNat]
  omega

theorem immOf_toNat : (immOf w).toNat = w.toNat % 16777216 := by
  obtain ⟨u, o, imm, rfl⟩ := exists_cmd32 w
  have := imm.isLt
  rw [immOf_cmd32, cmd32_toNat]
  omega

end
/-! ### The grounds of R118 -/

/-- R118's five grounds on the fields of a word: the unit is reserved, the operation unassigned, a
must-be-zero bit is 1, a data block is not taken, the port does not admit the operation. -/
def IllegalGrounds (p : Port) (data : Bytes) (unit op imm : Nat) : Prop :=
  (unit = 0 ∨ 4 ≤ unit) ∨
    (unit = 1 ∧ 5 ≤ op ∨ (unit = 2 ∨ unit = 3) ∧ 7 ≤ op) ∨
    (unit = 1 ∧ op ≠ 3 ∧ imm ≠ 0 ∨ unit = 1 ∧ op = 3 ∧ imm / 65536 ≠ 0 ∨
      unit = 2 ∧ op ≠ 1 ∧ op ≠ 2 ∧ imm ≠ 0 ∨
      unit = 3 ∧ op ≠ 1 ∧ op ≠ 2 ∧ op ≠ 6 ∧ imm ≠ 0 ∨ unit = 3 ∧ op = 6 ∧ imm / 2 ≠ 0) ∨
    (data ≠ [] ∧ ¬(unit = 1 ∧ (op = 2 ∨ op = 3) ∨ unit = 2 ∧ op = 1 ∨ unit = 3 ∧ op = 0)) ∨
    (p ≠ .dec ∧ (unit = 1 ∧ (op = 0 ∨ op = 2 ∨ op = 4) ∨ unit = 2 ∧ (op = 3 ∨ op = 4)) ∨
      p ≠ .prod ∧ unit = 2 ∧ op ≤ 2 ∨
      p ≠ .host ∧ (unit = 1 ∧ op = 3 ∨ unit = 2 ∧ op = 6 ∨ unit = 3))

section
variable {p : Port} {op : Nat} {imm : Imm} {data : Bytes}

theorem not_legalAt_decodeCodec :
    ¬LegalAt p (decodeCodec op imm data) ↔ IllegalGrounds p data 1 op imm.toNat := by
  unfold decodeCodec IllegalGrounds
  split
  case h_6 _ h0 h1 h2 h3 h4 =>
    have hop : 5 ≤ op := by
      simp only [imp_false] at *
      omega
    simp [hop]
  all_goals simp [admits, not_and_or, -not_and]

theorem not_legalAt_decodeRb :
    ¬LegalAt p (decodeRb op imm data) ↔ IllegalGrounds p data 2 op imm.toNat := by
  unfold decodeRb IllegalGrounds
  split
  case h_8 _ h0 h1 h2 h3 h4 h5 h6 =>
    have hop : 7 ≤ op := by
      simp only [imp_false] at *
      omega
    simp [hop]
  all_goals simp [admits, not_and_or, -not_and]

theorem not_legalAt_decodeSch :
    ¬LegalAt p (decodeSch op imm data) ↔ IllegalGrounds p data 3 op imm.toNat := by
  unfold decodeSch IllegalGrounds
  split
  case h_8 _ h0 h1 h2 h3 h4 h5 h6 =>
    have hop : 7 ≤ op := by
      simp only [imp_false] at *
      omega
    simp [hop]
  all_goals simp [admits, not_and_or, -not_and]

/-- A word is illegal at a port exactly on R118's grounds. -/
theorem not_legalAt_decode {w : CmdWord} :
    ¬LegalAt p (decode w data) ↔ IllegalGrounds p data (unitOf w) (opOf w) (immOf w).toNat := by
  unfold decode
  split
  next hu => rw [hu]; exact not_legalAt_decodeCodec
  next hu => rw [hu]; exact not_legalAt_decodeRb
  next hu => rw [hu]; exact not_legalAt_decodeSch
  next _ h1 h2 h3 =>
    have hunit : unitOf w = 0 ∨ 4 ≤ unitOf w := by
      simp only [imp_false] at *
      omega
    exact iff_of_true (not_legalAt_error _) (.inl hunit)

end

/-! ### What an illegal transaction does -/

/-- It is answered, and nothing else happens (R118). -/
theorem transact_of_error {p : Port} {w : CmdWord} {data : Bytes} {e : Illegal} {s : State}
    (hdata : data.length < dataBlockBound) (he : decodeAt p w data = .error e) :
    transact p w data s = s.done .illegal := by
  rw [transact, if_pos hdata, he]

/-- Settles O4: no operation of the word's unit is legal at the port exactly on R118's grounds, and
the transaction is answered before any operation runs. -/
theorem illegalWordsAreExactlyR118AndChangeNothing :
    Obligations.IllegalWordsAreExactlyR118AndChangeNothing := by
  rintro p w data unit op imm rfl rfl rfl
  refine ⟨?grounds, ?answer⟩
  case grounds =>
    rw [← unitOf_eq_div, ← opOf_eq_div, ← immOf_toNat, decodeAt_error_iff]
    exact not_legalAt_decode
  case answer =>
    rintro s rest hinputs hdata ⟨e, he⟩
    rw [step_op hinputs, transact_of_error hdata he]
    rfl

end Sys2Proof.Machine
end

section
/-! SUPPORT. The CRC is linear over XOR (30_encoding.md R110, R111; 40_codec.md R177): one shift, the
table, the update and so the CRC of a sequence. -/

namespace Sys2Proof.Machine

/-- A shift XORs in the polynomial or nothing. -/
theorem crcShift_eq (c : Byte) :
    crcShift c = (c <<< 1) ^^^ (if c.msb then Config.crcPoly else 0#8) := by
  unfold crcShift
  split <;> simp

theorem crcShift_xor (c d : Byte) : crcShift (c ^^^ d) = crcShift c ^^^ crcShift d := by
  have hpoly : (if (c ^^^ d).msb then Config.crcPoly else 0#8) =
      (if c.msb then Config.crcPoly else 0#8) ^^^ (if d.msb then Config.crcPoly else 0#8) := by
    rw [BitVec.msb_xor]
    cases c.msb <;> cases d.msb <;> rfl
  rw [crcShift_eq, crcShift_eq, crcShift_eq, hpoly, BitVec.shiftLeft_xor_distrib]
  ac_rfl

theorem crcTable_xor (i j : Byte) : crcTable (i ^^^ j) = crcTable i ^^^ crcTable j := by
  simp only [crcTable, crcShift_xor]

theorem crc8Update_xor (c d a b : Byte) :
    crc8Update (c ^^^ d) (a ^^^ b) = crc8Update c a ^^^ crc8Update d b := by
  have hswap : c ^^^ d ^^^ (a ^^^ b) = c ^^^ a ^^^ (d ^^^ b) := by ac_rfl
  rw [crc8Update, hswap, crcTable_xor]
  rfl

/-- Two sequences of one length, from two running values. -/
theorem crc8From_xor {a b : Bytes} (h : a.length = b.length) (c d : Byte) :
    crc8From (c ^^^ d) (List.zipWith (· ^^^ ·) a b) = crc8From c a ^^^ crc8From d b := by
  induction a generalizing b c d with
  | nil =>
    obtain rfl := List.length_eq_zero_iff.1 h.symm
    rfl
  | cons x a ih =>
    cases b with
    | nil => cases h
    | cons y b =>
      rw [List.zipWith_cons_cons, crc8From_cons, crc8Update_xor, ih (Nat.succ.inj h)]
      rfl

/-- Settles O22: the check value is computed, and the initial value 0 is its own XOR. -/
theorem crcIsLinear : Obligations.CrcIsLinear :=
  ⟨by decide +kernel, fun _ _ h => crc8From_xor h Config.crcInit Config.crcInit⟩

end Sys2Proof.Machine
end

section
/-! SUPPORT. The time token (30_encoding.md R122, 42_scheduler.md R217, R218): digit strings, the two
forms of a token, and what each is worth. -/

namespace Sys2Proof.Machine

/-! ### Digit strings -/

theorem isDigit_iff {b : Byte} : isDigit b = true ↔ 0x30 ≤ b.toNat ∧ b.toNat ≤ 0x39 := by
  simp [isDigit]

theorem isDigits_iff {s : Bytes} :
    isDigits s = true ↔ s ≠ [] ∧ ∀ b ∈ s, 0x30 ≤ b.toNat ∧ b.toNat ≤ 0x39 := by
  simp [isDigits, isDigit_iff]

/-- The point is no digit. -/
theorem point_not_mem {s : Bytes} (h : isDigits s = true) : point ∉ s := by
  intro hp
  have hdigit := isDigit_iff.2 ((isDigits_iff.1 h).2 point hp)
  exact absurd hdigit (by decide)

/-- A fraction is a digit string, under EXACT3 one of three digits. -/
theorem isFraction_iff {mode : TimeFracMode} {s : Bytes} :
    isFraction mode s = true ↔ isDigits s = true ∧ (mode = .exact3 → s.length = 3) := by
  cases mode with
  | integerMs => simp [isFraction]
  | exact3 =>
    have hne : s.length = 3 → s ≠ [] := by
      rintro hlen rfl
      cases hlen
    simp only [isFraction, isDigits, Bool.and_eq_true, beq_iff_eq, bne_iff_ne]
    tauto

theorem decimal_append (s : Bytes) (b : Byte) :
    decimal (s ++ [b]) = decimal s * 10 + (b.toNat - 0x30) := by
  simp [decimal]

/-! ### The forms of a token (R122) -/

section
variable {mode : TimeFracMode} {s : Bytes}

/-- What a token is: a digit string, or two around a point, the second a fraction. -/
inductive IsToken (mode : TimeFracMode) : Bytes → Nat → Nat → Prop
  | seconds {secs : Bytes} (hs : isDigits secs = true) : IsToken mode secs (decimal secs) 0
  | millis {secs frac : Bytes} (hs : isDigits secs = true) (hf : isFraction mode frac = true) :
      IsToken mode (secs ++ point :: frac) (decimal secs) (decimal frac)

theorem timeFields_of_isToken {sec ms : Nat} (h : IsToken mode s sec ms) :
    timeFields mode s = some (sec, ms) := by
  cases h with
  | seconds hs => simp [timeFields, cutAt_of_not_mem (point_not_mem hs), hs]
  | millis hs hf => simp [timeFields, cutAt_append (point_not_mem hs), hs, hf]

theorem isToken_of_timeFields {sec ms : Nat} (h : timeFields mode s = some (sec, ms)) :
    IsToken mode s sec ms := by
  unfold timeFields at h
  split at h
  · split at h
    next hs =>
      cases h
      exact .seconds hs
    next => cases h
  next secs frac hcut =>
    obtain ⟨rfl, -⟩ := cutAt_eq_some.1 hcut
    split at h
    next hboth =>
      cases h
      obtain ⟨hs, hf⟩ := Bool.and_eq_true_iff.1 hboth
      exact .millis hs hf
    next => cases h

/-! ### What a token is worth (R217, R218) -/

/-- A token within the bounds is worth its seconds and milliseconds, any other nothing. -/
theorem parseTime_of_isToken {sec ms : Nat} (h : IsToken mode s sec ms) :
    parseTime mode s =
      if sec ≤ Config.maxSeconds ∧ ms ≤ Config.maxMillis then some (sec * 1000 + ms) else none := by
  rw [parseTime, timeFields_of_isToken h]
  dsimp only
  simp only [← not_le, ← not_and_or, ite_not]

/-- What is worth something is a token. -/
theorem exists_isToken_of_parseTime {d : Nat} (h : parseTime mode s = some d) :
    ∃ sec ms, IsToken mode s sec ms := by
  unfold parseTime at h
  split at h
  · cases h
  next sec ms hfields => exact ⟨sec, ms, isToken_of_timeFields hfields⟩

end

/-- Settles O36: the two forms of a token, and that nothing else is one. -/
theorem timeTokens : Obligations.TimeTokens := by
  refine ⟨fun mode secs hs => ?seconds, fun mode secs frac hs hf hlen => ?millis,
    fun mode s ms h => ⟨parseTime_le h, ?form⟩, fun s => isDigits_iff, rfl, decimal_append⟩
  case seconds =>
    rw [parseTime_of_isToken (.seconds hs)]
    simp [Config.maxSeconds]
  case millis => exact parseTime_of_isToken (.millis hs (isFraction_iff.2 ⟨hf, hlen⟩))
  case form =>
    obtain ⟨_, _, hs | ⟨hs, hf⟩⟩ := exists_isToken_of_parseTime h
    · exact .inl hs
    · obtain ⟨hdigits, hlen⟩ := isFraction_iff.1 hf
      exact .inr ⟨_, _, rfl, hs, hdigits, hlen⟩

end Sys2Proof.Machine
end

section
/-! SUPPORT. Where the invariant holds no checked access fails, so every operation answers: with `OK`
and its values, or with another status and nothing changed (30_encoding.md R125 to R127). -/

namespace Sys2Proof.Machine

/-! ### No byte of a chunk stops the decoder -/

section
variable {cfg : Cfg} {c : Codec} {b : Byte} {pos : Nat}

theorem exists_msgbufWrite {k : Nat} (h : k < cfg.msgbufSize) :
    ∃ m, msgbufWrite cfg c k b = .ok m := ⟨_, msgbufWrite_ok.2 ⟨h, rfl⟩⟩

theorem exists_emitMessage (h : c.len ≤ cfg.msgbufSize) : ∃ q, emitMessage cfg c = .ok q :=
  ⟨_, emitMessage_eq_ok.2 ⟨h, rfl⟩⟩

/-- A payload byte has its place in `MSGBUF`, in either variant. -/
theorem CodecInv.exists_readPayload (h : CodecInv cfg c) (hd : c.dstate = .readPayload) :
    (∃ q, p5ReadPayload cfg c b = .ok q) ∧ ∃ q, p7ReadPayload cfg c b = .ok q := by
  obtain ⟨hidx, hlen⟩ := h.payload hd
  obtain ⟨m, hm⟩ := exists_msgbufWrite (b := b) (c := c) (hidx.trans_le hlen)
  simp only [p5ReadPayload, p7ReadPayload, hm]
  refine ⟨⟨_, rfl⟩, ?_⟩
  split
  · exact exists_emitMessage hlen
  · exact ⟨_, rfl⟩

theorem CodecInv.exists_p5Step (h : CodecInv cfg c) (hp : cfg.protocol = .p5E4D) :
    ∃ q, p5Step cfg c b pos = .ok q := by
  have hreach := h.dstate
  unfold p5Step
  cases hd : c.dstate with
  | waitSync1 =>
    dsimp only [p5WaitSync1]
    split <;> exact ⟨_, rfl⟩
  | waitSync2 =>
    dsimp only [p5WaitSync2]
    split <;> exact ⟨_, rfl⟩
  | readAddr => exact ⟨_, rfl⟩
  | readLenHi => exact ⟨_, rfl⟩
  | readLenLo =>
    dsimp only [p5ReadLenLo]
    split
    · exact ⟨_, rfl⟩
    · split <;> exact ⟨_, rfl⟩
  | readPayload => exact (h.exists_readPayload hd).1
  | readCrc =>
    dsimp only [p5ReadCrc]
    split
    · exact exists_emitMessage (h.complete hd).2
    · exact ⟨_, rfl⟩
  | readLen8 =>
    rw [hd, hp] at hreach
    cases hreach

theorem CodecInv.exists_p7Step (h : CodecInv cfg c) (hp : cfg.protocol = .p7C6E) :
    ∃ q, p7Step cfg c b pos = .ok q := by
  have hreach := h.dstate
  unfold p7Step
  cases hd : c.dstate with
  | waitSync1 =>
    dsimp only [p7WaitSync1]
    split <;> exact ⟨_, rfl⟩
  | waitSync2 =>
    dsimp only [p7WaitSync2]
    split <;> exact ⟨_, rfl⟩
  | readAddr => exact ⟨_, rfl⟩
  | readLen8 => exact ⟨_, rfl⟩
  | readPayload => exact (h.exists_readPayload hd).2
  | _ =>
    rw [hd, hp] at hreach
    cases hreach

/-- Where the invariant holds, a byte has a step (R155). -/
theorem CodecInv.exists_decodeByte (h : CodecInv cfg c) : ∃ q, decodeByte cfg c b pos = .ok q := by
  rw [decodeByte_eq]
  cases hp : cfg.protocol with
  | p5E4D => exact h.exists_p5Step hp
  | p7C6E => exact h.exists_p7Step hp

/-- The position is in the record only. -/
theorem raiseDecodeError_fst (cfg : Cfg) (c : Codec) (pos pos' : Nat) (code : ErrCode) :
    (raiseDecodeError cfg c pos code).1 = (raiseDecodeError cfg c pos' code).1 := by
  rw [raiseDecodeError_eq, raiseDecodeError_eq]

/-- What a byte makes of CODEC it makes of it at any position. -/
theorem ByteStep.at_pos {q : Codec × List Event} (h : ByteStep cfg c b pos q) (pos' : Nat) :
    ∃ es, ByteStep cfg c b pos' (q.1, es) := by
  cases h with
  | skip hd => exact ⟨_, .skip hd⟩
  | lost hd =>
    rw [raiseDecodeError_fst cfg _ pos pos']
    exact ⟨_, .lost hd⟩
  | sync1 hd => exact ⟨_, .sync1 hd⟩
  | sync2 hd => exact ⟨_, .sync2 hd⟩
  | fail hd =>
    rw [raiseDecodeError_fst cfg _ pos pos']
    exact ⟨_, .fail hd⟩
  | addr hd hr hl => exact ⟨_, .addr hd hr hl⟩
  | lenHi hp hd => exact ⟨_, .lenHi hp hd⟩
  | oversized hd =>
    rw [raiseDecodeError_fst cfg _ pos pos']
    exact ⟨_, .oversized hd⟩
  | empty hp hd => exact ⟨_, .empty hp hd⟩
  | due hd h0 hn => exact ⟨_, .due hd h0 hn⟩
  | payload hd hl => exact ⟨_, .payload hd hl⟩
  | payloadEnd hp hd hl => exact ⟨_, .payloadEnd hp hd hl⟩
  | emitAtCrc hd => exact ⟨_, .emitAtCrc hd⟩
  | emitAtPayloadEnd hd hl => exact ⟨_, .emitAtPayloadEnd hd hl⟩

/-- A byte keeps the invariant at any position; only the width of its record needs a bound. -/
theorem CodecInv.decodeByte {q : Codec × List Event} (hcfg : cfg.wf = true) (h : CodecInv cfg c)
    (hq : decodeByte cfg c b pos = .ok q) : CodecInv cfg q.1 := by
  obtain ⟨es, hstep⟩ := (decodeByte_byteStep hq).at_pos 0
  exact (h.byteStep hcfg (by decide) hstep).1

/-- Where the invariant holds, a chunk of any length is decoded to its end (R154). -/
theorem CodecInv.exists_decodeChunk {bs : Bytes} (hcfg : cfg.wf = true) (h : CodecInv cfg c) :
    ∃ q, Machine.decodeChunk cfg c pos bs = .ok q := by
  induction bs generalizing c pos with
  | nil => exact ⟨_, rfl⟩
  | cons b bs ih =>
    obtain ⟨⟨c1, e1⟩, h1⟩ := h.exists_decodeByte (b := b) (pos := pos)
    obtain ⟨⟨c2, e2⟩, h2⟩ := ih (pos := pos + 1) (h.decodeByte hcfg h1)
    exact ⟨_, decodeChunk_cons_ok.2 ⟨c1, e1, e2, h1, h2, rfl⟩⟩

end

/-! ### No completion of a callout stops the scheduler -/

section
variable {cfg : Cfg} {x : Sch}

theorem Sch.cmdAt.exists_line {k : Nat} (h : x.cmdAt k) : ∃ l, x.lines[k]? = some l := by
  obtain ⟨l, hl, -⟩ := h
  exact ⟨l, hl⟩

/-- An exit at a command completes (R232). -/
theorem exists_exitRun (h : x.cmdAt x.pos) : ∃ q, exitRun x = .ok q := by
  obtain ⟨l, hl⟩ := h.exists_line
  exact ⟨(_, _), exitRun_ok.2 ⟨l, hl, rfl, rfl⟩⟩

/-- The completion of a run's callout completes (R231). -/
theorem SchInv.exists_runDone (h : SchInv cfg x) (hc : x.callout = .run) (r : Bool) :
    ∃ q, Machine.runDone x r = .ok q := by
  have hcmd : x.cmdAt x.pos := h.atCommand (by simp [h.callout.1 hc])
  obtain ⟨l, hl⟩ := hcmd.exists_line
  rw [← h.calloutAt hc] at hl
  cases hnext : nextCmdAfter x.lines x.calloutLine with
  | some p => exact ⟨(_, _), runDone_ok.2 ⟨l, hl, .inl ⟨p, hnext, rfl, rfl⟩⟩⟩
  | none =>
    have hrestored := hcmd.congr (y := { x with
      lines := setDelay x.lines x.calloutLine l.origDelay, callout := .none, finished := true })
      (setDelay_isCmd ..)
    obtain ⟨⟨x', es⟩, hexit⟩ := exists_exitRun hrestored
    exact ⟨(_, _), runDone_ok.2 ⟨l, hl, .inr ⟨hnext, es, hexit, rfl⟩⟩⟩

end

/-! ### How an operation answers (R125 to R127) -/

/-- The outcome is one reply to the operation: `OK` with the operation's values, or another status
with nothing else changed. -/
def Answers (i : Instr) (s : State) (out : Out) : Prop :=
  ∃ t r, out = .next t ∧ t.reply = some r ∧ (∀ v, r = .ok v → valuesFit i v) ∧
    ((∀ v, r ≠ .ok v) → t = { s with reply := some r })

section
variable {i : Instr} {s : State}

theorem Answers.ok {u : State} {v : Values} (hv : valuesFit i v) : Answers i s (u.done (.ok v)) := by
  refine ⟨_, .ok v, rfl, rfl, ?_, fun hne => absurd rfl (hne v)⟩
  rintro _ ⟨⟩
  exact hv

theorem Answers.refused {r : Reply} (hr : ∀ v, r ≠ .ok v) : Answers i s (s.done r) :=
  ⟨_, r, rfl, rfl, fun v hv => absurd hv (hr v), fun _ => rfl⟩

/-- A checked access that succeeds goes on. -/
theorem Answers.orFault {α : Type} {e : Except Fault α} {k : α → Out} (he : ∃ a, e = .ok a)
    (hk : ∀ a, e = .ok a → Answers i s (k a)) : Answers i s (orFault e k) := by
  obtain ⟨a, rfl⟩ := he
  exact hk a rfl

/-! ### CODEC -/

theorem execCodecDecode_answers (h : Inv s) (chunk : Bytes) :
    Answers (.codecDecode chunk) s (execCodecDecode chunk s) :=
  .orFault (h.codec.decodeStart.exists_decodeChunk h.cfg) fun _ _ => .ok rfl

theorem execCodecEncode_answers (addr : BitVec 16) (payload : Bytes) :
    Answers (.codecEncode addr payload) s (execCodecEncode addr payload s) := by
  unfold execCodecEncode
  split
  · exact .ok ⟨_, rfl⟩
  · exact .refused nofun

theorem execCodecMsgCopy_answers (h : Inv s) : Answers .codecMsgCopy s (execCodecMsgCopy s) := by
  unfold execCodecMsgCopy
  split
  · refine .orFault ⟨_, msgbufRead_ok.2 ⟨h.codec.msgLen, rfl⟩⟩ fun payload hread => .ok ?_
    obtain ⟨-, rfl⟩ := msgbufRead_ok.1 hread
    exact ⟨_, _, by rw [readBytes_length]⟩
  · exact .refused nofun

/-! ### RB -/

theorem RbInv.exists_usedAt {cfg : Cfg} {r : Rb} (h : RbInv cfg r) {k : Nat} (hk : k < cfg.rbSlots) :
    ∃ n, usedAt r k = .ok n :=
  ⟨_, usedAt_ok.2 (List.getElem?_eq_getElem (h.usedLength.symm ▸ hk))⟩

theorem execRbTryGetWrite_answers : Answers .rbTryGetWrite s (execRbTryGetWrite s) := by
  unfold execRbTryGetWrite
  split
  · exact .refused nofun
  · exact .ok ⟨_, rfl⟩

theorem execRbFill_answers (h : Inv s) (off : Imm) (data : Bytes) :
    Answers (.rbFill off data) s (execRbFill off data s) := by
  unfold execRbFill
  split
  · split
    · exact .refused nofun
    next hfit =>
      exact .orFault ⟨_, slotWrite_ok.2 ⟨⟨h.rb.wr, Nat.le_of_not_lt hfit⟩, rfl⟩⟩ fun _ _ => .ok rfl
  · exact .refused nofun

theorem execRbCommitWrite_answers (h : Inv s) (n : Imm) :
    Answers (.rbCommitWrite n) s (execRbCommitWrite n s) := by
  unfold execRbCommitWrite
  split
  · split
    · exact .refused nofun
    · exact .orFault (h.rb.exists_usedAt h.rb.wr) fun _ _ => .ok rfl
  · exact .refused nofun

theorem execRbTryGetRead_answers (h : Inv s) : Answers .rbTryGetRead s (execRbTryGetRead s) := by
  unfold execRbTryGetRead
  split
  · exact .refused nofun
  · refine .orFault (h.rb.exists_usedAt h.rb.rd) fun n hn => ?_
    have hfit : n ≤ s.cfg.slotSize := h.rb.usedRange n (List.mem_of_getElem? (usedAt_ok.1 hn))
    refine .orFault ⟨_, slotRead_ok.2 ⟨⟨h.rb.rd, hfit⟩, rfl⟩⟩ fun data hread => .ok ?_
    obtain ⟨-, rfl⟩ := slotRead_ok.1 hread
    exact ⟨_, _, by rw [readBytes_length]⟩

theorem execRbCommitRead_answers (h : Inv s) : Answers .rbCommitRead s (execRbCommitRead s) := by
  unfold execRbCommitRead
  split
  · exact .orFault (h.rb.exists_usedAt h.rb.rd) fun _ _ => .ok rfl
  · exact .refused nofun

/-! ### SCH -/

theorem execSchLoad_answers (block : Bytes) : Answers (.schLoad block) s (execSchLoad block s) := by
  unfold execSchLoad
  split
  · exact .refused nofun
  · split
    · exact .refused nofun
    · dsimp only
      split
      · exact .refused nofun
      · exact .ok ⟨_, rfl⟩

theorem execSchStart_answers (n : Imm) : Answers (.schStart n) s (execSchStart n s) := by
  unfold execSchStart
  split
  · exact .refused nofun
  · split
    · exact .refused nofun
    · split
      · exact .refused nofun
      · exact .ok rfl

theorem execSchStep_answers (n : Imm) : Answers (.schStep n) s (execSchStep n s) := by
  unfold execSchStep
  split
  · exact .refused nofun
  · split
    · exact .refused nofun
    · split
      · exact .refused nofun
      next p hp =>
        obtain ⟨l, hl⟩ := (cmdAt_of_firstCmdAtOrAfter hp).exists_line
        exact .orFault ⟨l, lineAt_ok.2 hl⟩ fun _ _ => .ok rfl

theorem execSchStop_answers : Answers .schStop s (execSchStop s) := by
  unfold execSchStop
  split
  · exact .refused nofun
  · exact .ok rfl

theorem execSchStopNext_answers : Answers .schStopNext s (execSchStopNext s) := by
  unfold execSchStopNext
  split
  · exact .refused nofun
  · exact .ok rfl

theorem execSchExecDone_answers (h : Inv s) (r : Bool) :
    Answers (.schExecDone r) s (execSchExecDone r s) := by
  unfold execSchExecDone
  split
  · exact .refused nofun
  · exact .ok rfl
  next hc => exact .orFault (h.sch.exists_runDone hc r) fun _ _ => .ok rfl

end

/-! ### Every operation -/

/-- Settles O57: operation by operation, the checked accesses succeeding by the invariant. -/
theorem everyOperationReplies : Obligations.EveryOperationReplies := by
  intro s i h
  show Answers i s (exec i s)
  cases i with
  | codecReset => exact .ok rfl
  | codecReqReset => exact .ok rfl
  | codecDecode chunk => exact execCodecDecode_answers h chunk
  | codecEncode addr payload => exact execCodecEncode_answers addr payload
  | codecMsgCopy => exact execCodecMsgCopy_answers h
  | rbTryGetWrite => exact execRbTryGetWrite_answers
  | rbFill off data => exact execRbFill_answers h off data
  | rbCommitWrite n => exact execRbCommitWrite_answers h n
  | rbTryGetRead => exact execRbTryGetRead_answers h
  | rbCommitRead => exact execRbCommitRead_answers h
  | rbBytesAvailable => exact .ok ⟨_, rfl⟩
  | rbReadHwm => exact .ok ⟨_, rfl⟩
  | schLoad block => exact execSchLoad_answers block
  | schStart n => exact execSchStart_answers n
  | schStep n => exact execSchStep_answers n
  | schStop => exact execSchStop_answers
  | schStopNext => exact execSchStopNext_answers
  | schStatus => exact .ok ⟨_, _, _, _, rfl⟩
  | schExecDone r => exact execSchExecDone_answers h r

end Sys2Proof.Machine
end

section
/-! SUPPORT. The CODEC operations one by one (40_codec.md R152 to R154, R171, R173): their
encodings, and what each makes of the state. -/

namespace Sys2Proof.Machine

/-! ### Encodings (30_encoding.md R116 to R120) -/

/-- An operation is encoded as its word and its data block, and by no other. -/
theorem encodedAs_of_encode {i : Instr} {w : CmdWord} {data : Bytes} {ports : List Port}
    (h : encode i = (w, data)) (hports : ∀ p, admits i p = true ↔ p ∈ ports) :
    EncodedAs i w data ports := by
  refine ⟨fun w' data' => ?_, hports⟩
  rw [decode_eq_ok_iff, h, Prod.mk.injEq]

/-- The admission test of an operation that one port alone may issue. -/
theorem beq_port_iff (p q : Port) : (p == q) = true ↔ p ∈ [q] := by
  rw [beq_iff_eq, List.mem_singleton]

/-- The address stands in the low 16 bits, under the bits of the operation. -/
theorem encodeWord_codecEncode (addr : BitVec 16) (payload : Bytes) :
    encodeWord (.codecEncode addr payload) = 0x13000000#32 ||| addr.setWidth 32 := by
  have hword : encodeWord (.codecEncode addr payload) = (0x1300#16 ++ addr : BitVec 32) := by
    apply BitVec.eq_of_toNat_eq
    show (cmd32 0x1#4 0x3#4 (0#8 ++ addr)).toNat = _
    rw [cmd32_toNat, BitVec.toNat_append, BitVec.toNat_append,
      ← Nat.shiftLeft_add_eq_or_of_lt addr.isLt, ← Nat.shiftLeft_add_eq_or_of_lt addr.isLt]
    simp
  rw [hword]
  exact BitVec.append_def _ _

section
variable (s : State)

/-! ### `CODEC.RESET` and `CODEC.REQ_RESET` -/

theorem exec_codecReset :
    exec .codecReset s = (s.withCodec (doReset s.codec)).done (.ok .none) := rfl

theorem exec_codecReqReset :
    exec .codecReqReset s = (s.withCodec { s.codec with resetReq := true }).done (.ok .none) := rfl

@[simp] theorem doReset_resetReq (c : Codec) : (doReset c).resetReq = false := rfl

theorem decodeStart_of_resetReq {c : Codec} (h : c.resetReq = true) : decodeStart c = doReset c :=
  if_pos h

theorem decodeStart_of_no_resetReq {c : Codec} (h : c.resetReq = false) : decodeStart c = c :=
  if_neg (by simp [h])

@[simp] theorem decodeStart_resetReq (c : Codec) : (decodeStart c).resetReq = false := by
  cases h : c.resetReq with
  | false => rwa [decodeStart_of_no_resetReq h]
  | true => rw [decodeStart_of_resetReq h, doReset_resetReq]

/-! ### `CODEC.DECODE` -/

variable {s}

/-- What a decode does: its byte steps, from the decoder it starts from. -/
theorem exec_codecDecode_next_iff {chunk : Bytes} {t : State} :
    exec (.codecDecode chunk) s = .next t ↔
      ∃ c es, decodeChunk s.cfg (decodeStart s.codec) 0 chunk = .ok (c, es) ∧
        t = { s with codec := c, evq := s.evq ++ es, reply := some (.ok .none) } := by
  constructor
  · intro h
    obtain ⟨⟨c, es⟩, hd, ht⟩ := orFault_next.1 h
    exact ⟨c, es, hd, done_next.1 ht⟩
  · rintro ⟨c, es, hd, rfl⟩
    exact orFault_next.2 ⟨(c, es), hd, rfl⟩

/-- A decode replaces CODEC and the reply, so it shows neither but through `decodeStart`. -/
theorem exec_codecDecode_withCodec_answer (c : Codec) (a : Reply) (chunk : Bytes) :
    exec (.codecDecode chunk) ((s.withCodec c).answer a) =
      orFault (decodeChunk s.cfg (decodeStart c) 0 chunk) fun r =>
        ((s.withCodec r.1).emit r.2).done (.ok .none) := rfl

/-! ### `CODEC.ENCODE` -/

theorem exec_codecEncode (addr : BitVec 16) (payload : Bytes) :
    exec (.codecEncode addr payload) s = .next { s with
      reply := some (encodeReply s.cfg addr payload) } :=
  execCodecEncode_eq addr payload s

theorem encodeReply_of_none {cfg : Cfg} {addr : BitVec 16} {payload : Bytes}
    (h : encodeFrame cfg addr payload = none) : encodeReply cfg addr payload = .failed := by
  rw [encodeReply, h]
  rfl

theorem encodeReply_of_some {cfg : Cfg} {addr : BitVec 16} {payload f : Bytes}
    (h : encodeFrame cfg addr payload = some f) :
    encodeReply cfg addr payload = .ok (.frame f) := by
  rw [encodeReply, h]
  rfl

/-- A frame that is answered is the encoded frame. -/
theorem encodeFrame_of_reply {t : State} {addr : BitVec 16} {payload f : Bytes}
    (h : exec (.codecEncode addr payload) s = .next t) (hr : t.reply = some (.ok (.frame f))) :
    encodeFrame s.cfg addr payload = some f := by
  obtain rfl := exec_codecEncode_next h
  have hr' := Option.some.inj hr
  cases hf : encodeFrame s.cfg addr payload with
  | none => cases (encodeReply_of_none hf).symm.trans hr'
  | some g =>
    cases (encodeReply_of_some hf).symm.trans hr'
    rfl

end

/-! ### The encoded frame (R171) -/

section
variable {cfg : Cfg} {addr : BitVec 16} {payload : Bytes}

theorem encodeFrame_of_addr_gt (h : 255 < addr.toNat) : encodeFrame cfg addr payload = none :=
  if_pos h

/-- Under P5E4D a frame is bounded by `MAX_FRAME`. -/
theorem encodeFrame_p5 (hp : cfg.protocol = .p5E4D) (h : addr.toNat ≤ 255) :
    encodeFrame cfg addr payload =
      if cfg.maxFrame < payload.length + 6 then none
      else some (frame5E4D cfg (addr.setWidth 8) payload) := by
  rw [encodeFrame, if_neg (show ¬255 < operandNat addr from Nat.not_lt.2 h), hp]
  rfl

/-- Under P7C6E a payload has 1 to 256 bytes. -/
theorem encodeFrame_p7 (hp : cfg.protocol = .p7C6E) (h : addr.toNat ≤ 255) :
    encodeFrame cfg addr payload =
      if payload.length = 0 ∨ 256 < payload.length then none
      else some (frame7C6E (addr.setWidth 8) payload) := by
  rw [encodeFrame, if_neg (show ¬255 < operandNat addr from Nat.not_lt.2 h), hp]

/-- The address of an encoded frame is one byte. -/
theorem addr_le_of_encodeFrame {f : Bytes} (h : encodeFrame cfg addr payload = some f) :
    addr.toNat ≤ 255 := by
  by_contra hlt
  cases (encodeFrame_of_addr_gt (Nat.not_le.1 hlt)).symm.trans h

/-- An encoded P5E4D frame: its payload fits, and which frame it is. -/
theorem encodeFrame_p5_eq_some {f : Bytes} (hp : cfg.protocol = .p5E4D)
    (h : encodeFrame cfg addr payload = some f) :
    payload.length + 6 ≤ cfg.maxFrame ∧ f = frame5E4D cfg (addr.setWidth 8) payload := by
  rw [encodeFrame_p5 hp (addr_le_of_encodeFrame h)] at h
  split at h
  · cases h
  · rename_i hfit
    exact ⟨Nat.not_lt.1 hfit, (Option.some.inj h).symm⟩

/-- An encoded P7C6E frame: its payload fits, and which frame it is. -/
theorem encodeFrame_p7_eq_some {f : Bytes} (hp : cfg.protocol = .p7C6E)
    (h : encodeFrame cfg addr payload = some f) :
    payload ≠ [] ∧ payload.length ≤ 256 ∧ f = frame7C6E (addr.setWidth 8) payload := by
  rw [encodeFrame_p7 hp (addr_le_of_encodeFrame h)] at h
  split at h
  · cases h
  · rename_i hfit
    obtain ⟨hne, hle⟩ := not_or.1 hfit
    exact ⟨fun he => hne (by rw [he]; rfl), Nat.not_lt.1 hle, (Option.some.inj h).symm⟩

/-- The bytes the CRC covers, by the configured coverage (R112). -/
theorem crcCover_eq (cfg : Cfg) (a : Byte) (payload : Bytes) :
    crcCover cfg a payload =
      if cfg.includeHeaderCrc = false then payload
      else if cfg.hdrCrcFirst = .sync1 then header5E4D a payload.length ++ payload
      else (header5E4D a payload.length).drop 1 ++ payload := by
  unfold crcCover
  cases cfg.includeHeaderCrc <;> cases cfg.hdrCrcFirst <;> rfl

end

/-! ### `CODEC.MSG_COPY` (R173) -/

section
variable {s : State}

theorem exec_codecMsgCopy_of_not_valid (h : s.codec.msgValid = false) :
    exec .codecMsgCopy s = .next { s with reply := some .failed } :=
  if_neg (by simp [h])

/-- A valid message is copied out of `MSGBUF`. -/
theorem exec_codecMsgCopy_of_valid (h : s.codec.msgValid = true)
    (hlen : s.codec.msgLen ≤ s.cfg.msgbufSize) :
    exec .codecMsgCopy s = .next { s with
      reply := some (.ok (.message s.codec.msgAddr s.codec.msgLen
        (readBytes .msgbuf s.codec.msgbuf 0 s.codec.msgLen))) } := by
  show execCodecMsgCopy s = _
  rw [execCodecMsgCopy, if_pos h]
  exact orFault_next.2 ⟨_, msgbufRead_ok.2 ⟨hlen, rfl⟩, rfl⟩

end

/-! ### The statements -/

/-- Settles O7. -/
theorem codecResetResult : Obligations.CodecResetResult :=
  ⟨encodedAs_of_encode rfl fun p => beq_port_iff p .dec, exec_codecReset⟩

/-- Settles O8: after the request and after the reset alike a decode starts from the reset
decoder. -/
theorem codecReqResetActsAtTheNextDecode : Obligations.CodecReqResetActsAtTheNextDecode := by
  refine ⟨encodedAs_of_encode rfl fun p => by cases p <;> decide, fun s => ?_⟩
  refine ⟨exec_codecReqReset s, fun t u ht hu => ?_⟩
  obtain rfl := done_next.1 ((exec_codecReqReset s).symm.trans ht)
  obtain rfl := done_next.1 ((exec_codecReset s).symm.trans hu)
  refine ⟨rfl, rfl, fun chunk => ?_⟩
  have hstart : decodeStart { s.codec with resetReq := true } = decodeStart (doReset s.codec) := by
    rw [decodeStart_of_resetReq rfl, decodeStart_of_no_resetReq rfl]
    rfl
  rw [exec_codecDecode_withCodec_answer, exec_codecDecode_withCodec_answer, hstart]

/-- Settles O14: the encoder replies its frame or `FAILED`, variant by variant. -/
theorem codecEncodeResult : Obligations.CodecEncodeResult := by
  intro addr payload
  refine ⟨encodedAs_of_encode (Prod.ext (encodeWord_codecEncode addr payload) rfl)
    fun p => beq_port_iff p .host, fun s => ?_⟩
  rw [exec_codecEncode]
  refine ⟨fun h => ?addrTooBig, fun h hp => ⟨fun hn => ?p5TooLong, ?p5⟩,
    fun h hp => ⟨fun hn => ?p7Refused, fun h0 hn => ?p7⟩⟩
  case addrTooBig => rw [encodeReply_of_none (encodeFrame_of_addr_gt h)]
  case p5TooLong => rw [encodeReply_of_none ((encodeFrame_p5 hp h).trans (if_pos hn))]
  case p5 =>
    rintro hn _ _ rfl rfl
    rw [encodeReply_of_some ((encodeFrame_p5 hp h).trans (if_neg (Nat.not_lt.2 hn))), frame5E4D,
      crcCover_eq]
    rfl
  case p7Refused => rw [encodeReply_of_none ((encodeFrame_p7 hp h).trans (if_pos hn))]
  case p7 =>
    rw [encodeReply_of_some ((encodeFrame_p7 hp h).trans (if_neg (by omega)))]
    rfl

/-- Settles O15. -/
theorem codecMsgCopyResult : Obligations.CodecMsgCopyResult := by
  refine ⟨encodedAs_of_encode rfl fun p => beq_port_iff p .dec, fun s => ?_⟩
  refine ⟨exec_codecMsgCopy_of_not_valid, fun hv hlen => ?_⟩
  refine ⟨_, exec_codecMsgCopy_of_valid hv hlen, readBytes_length .., fun k hk => ?_⟩
  rw [readBytes_getElem? _ _ _ _ _ hk, Nat.zero_add]

end Sys2Proof.Machine
end

section
/-! SUPPORT. The byte steps of both variants (40_codec.md R159 to R170), one equation for each
decoder state: what the byte makes of CODEC, and the records it emits. -/

namespace Sys2Proof.Machine

/-! ### What the steps share -/

theorem failFrame_eq_erred (cfg : Cfg) (c : Codec) (pos : Nat) (code : ErrCode) :
    failFrame cfg c pos code = erred cfg c pos code := failFrame_eq cfg c pos code

/-- In sync search an error leaves the decoder where it is. -/
theorem missSync1_eq_erred {cfg : Cfg} {c : Codec} (hd : c.dstate = .waitSync1) (pos : Nat) :
    missSync1 cfg c pos = if c.lastOk then erred cfg c pos .syncLost else (c, []) := by
  rw [missSync1_eq, erred, ← hd]

theorem readByte_put (sp : Space) (m : Memory) (i a : Nat) (b : Byte) :
    readByte sp (m.put i b) a = if a = i then b else readByte sp m a := by
  rw [readByte, byteAt_put]
  split <;> rfl

theorem msgbufSize_p5 {cfg : Cfg} (hp : cfg.protocol = .p5E4D) :
    cfg.msgbufSize = cfg.maxFrame - 6 := by
  rw [Cfg.msgbufSize, hp]
  rfl

theorem msgbufSize_p7 {cfg : Cfg} (hp : cfg.protocol = .p7C6E) : cfg.msgbufSize = 256 := by
  rw [Cfg.msgbufSize, hp]

/-- CODEC after a payload byte, but for the running CRC and what follows the last byte
(R164, R170). -/
def stored (c : Codec) (b : Byte) : Codec :=
  { c with msgbuf := c.msgbuf.put c.idx b, idx := c.idx + 1 }

/-! ### P5E4D (R159 to R165) -/

section
variable {cfg : Cfg} {c : Codec} (hp : cfg.protocol = .p5E4D) (b : Byte) (pos : Nat)
include hp

theorem decodeByte_p5 : decodeByte cfg c b pos = p5Step cfg c b pos := by rw [decodeByte_eq, hp]

theorem decodeByte_p5_waitSync1 (hd : c.dstate = .waitSync1) :
    decodeByte cfg c b pos = .ok (
      if b = 0x5E#8 then ({ c with crc := sync1Crc cfg, dstate := .waitSync2 }, [])
      else missSync1 cfg c pos) := by
  rw [decodeByte_p5 hp, p5Step, hd, apply_ite Except.ok]
  rfl

theorem decodeByte_p5_waitSync2 (hd : c.dstate = .waitSync2) :
    decodeByte cfg c b pos = .ok (
      if b = 0x4D#8 then ({ c with crc := hdrCrc cfg c.crc b, dstate := .readAddr }, [])
      else erred cfg c pos .sync2Missing) := by
  rw [decodeByte_p5 hp, p5Step, hd, apply_ite Except.ok, ← failFrame_eq_erred]
  rfl

theorem decodeByte_p5_readAddr (hd : c.dstate = .readAddr) :
    decodeByte cfg c b pos = .ok ({ c with
      msgAddr := b, msgValid := false, crc := hdrCrc cfg c.crc b, dstate := .readLenHi }, []) := by
  rw [decodeByte_p5 hp, p5Step, hd]
  rfl

theorem decodeByte_p5_readLenHi (hd : c.dstate = .readLenHi) :
    decodeByte cfg c b pos = .ok ({ c with
      len := b.toNat * 256, crc := hdrCrc cfg c.crc b, dstate := .readLenLo }, []) := by
  rw [decodeByte_p5 hp, p5Step, hd]
  rfl

theorem decodeByte_p5_readLenLo (hd : c.dstate = .readLenLo) :
    decodeByte cfg c b pos = .ok (
      if cfg.maxFrame < c.len + b.toNat + 6 then
        erred cfg { c with len := c.len + b.toNat, crc := hdrCrc cfg c.crc b, idx := 0 } pos
          .oversized
      else
        ({ c with
            len := c.len + b.toNat, crc := hdrCrc cfg c.crc b, idx := 0
            dstate := if c.len + b.toNat = 0 then .readCrc else .readPayload }, [])) := by
  have hstep : p5Step cfg c b pos = p5ReadLenLo cfg c b pos := by rw [p5Step, hd]
  rw [decodeByte_p5 hp, hstep, ← failFrame_eq_erred]
  by_cases hbig : cfg.maxFrame < c.len + b.toNat + 6
  · rw [if_pos hbig]
    exact if_pos hbig
  · rw [if_neg hbig]
    refine (if_neg hbig).trans ?_
    by_cases h0 : c.len + b.toNat = 0
    · rw [if_pos h0, if_pos h0]
    · rw [if_neg h0, if_neg h0]

theorem decodeByte_p5_readPayload (hd : c.dstate = .readPayload) (hi : c.idx < cfg.msgbufSize) :
    decodeByte cfg c b pos = .ok ({ stored c b with
      crc := crc8Update c.crc b
      dstate := if c.idx + 1 = c.len then .readCrc else .readPayload }, []) := by
  rw [decodeByte_p5 hp, p5Step, hd]
  dsimp only [p5ReadPayload]
  rw [msgbufWrite_ok.2 ⟨hi, rfl⟩, hd]
  rfl

theorem decodeByte_p5_readCrc_of_eq (hd : c.dstate = .readCrc) (hb : b = c.crc)
    (hl : c.len ≤ cfg.msgbufSize) : decodeByte cfg c b pos = .ok (emitted c) := by
  rw [decodeByte_p5 hp, p5Step, hd]
  exact (if_pos hb).trans (emitMessage_eq_ok.2 ⟨hl, rfl⟩)

theorem decodeByte_p5_readCrc_of_ne (hd : c.dstate = .readCrc) (hb : b ≠ c.crc) :
    decodeByte cfg c b pos = .ok (erred cfg c pos .badCrc) := by
  rw [decodeByte_p5 hp, p5Step, hd, ← failFrame_eq_erred]
  exact if_neg hb

end

/-! ### P7C6E (R166 to R170) -/

section
variable {cfg : Cfg} {c : Codec} (hp : cfg.protocol = .p7C6E) (b : Byte) (pos : Nat)
include hp

theorem decodeByte_p7 : decodeByte cfg c b pos = p7Step cfg c b pos := by rw [decodeByte_eq, hp]

theorem decodeByte_p7_waitSync1 (hd : c.dstate = .waitSync1) :
    decodeByte cfg c b pos = .ok (
      if b = 0x7C#8 then ({ c with dstate := .waitSync2 }, []) else missSync1 cfg c pos) := by
  rw [decodeByte_p7 hp, p7Step, hd, apply_ite Except.ok]
  rfl

theorem decodeByte_p7_waitSync2 (hd : c.dstate = .waitSync2) :
    decodeByte cfg c b pos = .ok (
      if b = 0x6E#8 then ({ c with dstate := .readAddr }, [])
      else erred cfg c pos .sync2Missing) := by
  rw [decodeByte_p7 hp, p7Step, hd, apply_ite Except.ok, ← failFrame_eq_erred]
  rfl

theorem decodeByte_p7_readAddr (hd : c.dstate = .readAddr) :
    decodeByte cfg c b pos = .ok ({ c with
      msgAddr := b, msgValid := false, dstate := .readLen8 }, []) := by
  rw [decodeByte_p7 hp, p7Step, hd]
  rfl

/-- The length byte 0 stands for 256. -/
theorem decodeByte_p7_readLen8 (hd : c.dstate = .readLen8) :
    decodeByte cfg c b pos = .ok ({ c with
      len := if b = 0x00#8 then 256 else b.toNat, idx := 0, dstate := .readPayload }, []) := by
  have hzero : b.toNat = 0 ↔ b = 0x00#8 := BitVec.toNat_inj (y := 0x00#8)
  rw [decodeByte_p7 hp, p7Step, hd]
  simp only [p7ReadLen8, hzero]

theorem decodeByte_p7_readPayload (hd : c.dstate = .readPayload) (hi : c.idx < 256)
    (hl : c.idx + 1 ≠ c.len) : decodeByte cfg c b pos = .ok (stored c b, []) := by
  rw [← msgbufSize_p7 hp] at hi
  rw [decodeByte_p7 hp, p7Step, hd]
  dsimp only [p7ReadPayload]
  rw [msgbufWrite_ok.2 ⟨hi, rfl⟩]
  exact if_neg hl

/-- The last payload byte ends the frame. -/
theorem decodeByte_p7_readPayload_last (hd : c.dstate = .readPayload) (hi : c.idx < 256)
    (hl : c.idx + 1 = c.len) : decodeByte cfg c b pos = .ok (emitted (stored c b)) := by
  rw [← msgbufSize_p7 hp] at hi
  rw [decodeByte_p7 hp, p7Step, hd]
  dsimp only [p7ReadPayload]
  rw [msgbufWrite_ok.2 ⟨hi, rfl⟩]
  exact (if_pos hl).trans (emitMessage_eq_ok.2 ⟨show c.len ≤ _ by omega, rfl⟩)

end

/-! ### The statements -/

/-- The running CRC after SYNC1 is the CRC of SYNC1 where the header's coverage begins there. -/
theorem sync1Crc_eq (cfg : Cfg) :
    sync1Crc cfg =
      if cfg.includeHeaderCrc = true ∧ cfg.hdrCrcFirst = .sync1 then 0x9D#8 else 0x00#8 := by
  have hseed : crc8Update Config.crcInit Config.sync1of5E4D = 0x9D#8 := by decide
  rw [sync1Crc, hseed]
  cases cfg.includeHeaderCrc <;> cases cfg.hdrCrcFirst <;> rfl

/-- Settles O10. -/
theorem p5SyncSearchSteps : Obligations.P5SyncSearchSteps := by
  intro cfg c b pos hp
  refine ⟨fun hd => ?_, decodeByte_p5_waitSync2 hp b pos⟩
  rw [decodeByte_p5_waitSync1 hp b pos hd, sync1Crc_eq, missSync1_eq_erred hd]

/-- Settles O11: the two ways on from the low length byte differ in the next state only. -/
theorem p5HeaderSteps : Obligations.P5HeaderSteps := by
  rintro cfg c b pos _ hp rfl
  refine ⟨decodeByte_p5_readAddr hp b pos, decodeByte_p5_readLenHi hp b pos, fun hd => ?_⟩
  rw [decodeByte_p5_readLenLo hp b pos hd]
  by_cases h0 : c.len + b.toNat = 0
  · rw [if_pos h0, if_pos h0, h0]
    rfl
  · rw [if_neg h0, if_neg h0]
    rfl

/-- Settles O12. -/
theorem p5PayloadAndCrcSteps : Obligations.P5PayloadAndCrcSteps := by
  intro cfg c b pos hp
  refine ⟨fun hd hi => ⟨_, decodeByte_p5_readPayload hp b pos hd hi, fun a => ?_⟩,
    decodeByte_p5_readCrc_of_eq hp b pos, decodeByte_p5_readCrc_of_ne hp b pos⟩
  exact readByte_put ..

/-- Settles O13. -/
theorem p7ByteSteps : Obligations.P7ByteSteps := by
  intro cfg c b pos hp
  refine ⟨fun hd => ?_, decodeByte_p7_waitSync2 hp b pos, decodeByte_p7_readAddr hp b pos,
    decodeByte_p7_readLen8 hp b pos, fun hd hi => ?_⟩
  · rw [decodeByte_p7_waitSync1 hp b pos hd, missSync1_eq_erred hd]
  · exact ⟨_, fun a => readByte_put .., decodeByte_p7_readPayload hp b pos hd hi,
      decodeByte_p7_readPayload_last hp b pos hd hi⟩

end Sys2Proof.Machine
end

section
/-! SUPPORT. Chunks (40_codec.md R154, R157, R174): where the invariant holds every chunk is decoded
to its end, a position stands in the `ERR` records only, and the records are the errors counted. -/

namespace Sys2Proof.Machine

/-- A chunk and one more byte. -/
theorem decodeChunk_concat {cfg : Cfg} {c c1 c2 : Codec} {b : Byte} {pos : Nat} {bs : Bytes}
    {e1 e2 : List Event} (h : decodeChunk cfg c pos bs = .ok (c1, e1))
    (hb : decodeByte cfg c1 b (pos + bs.length) = .ok (c2, e2)) :
    decodeChunk cfg c pos (bs ++ [b]) = .ok (c2, e1 ++ e2) :=
  have hlast := decodeChunk_cons_ok.2 ⟨c2, e2, [], hb, rfl, (List.append_nil e2).symm⟩
  decodeChunk_append_ok.2 ⟨c1, e1, e2, h, hlast, rfl⟩

/-! ### Every chunk completes -/

/-- The part of CODEC's invariant that keeps the decoder from stopping. Unlike the ranges of the
registers, every byte keeps it under any configuration. -/
structure DecoderReady (cfg : Cfg) (c : Codec) : Prop where
  dstate : c.dstate.reachable cfg.protocol = true
  payload : c.dstate = .readPayload → c.idx < c.len ∧ c.len ≤ cfg.msgbufSize
  complete : c.dstate = .readCrc → c.len ≤ cfg.msgbufSize

section
variable {cfg : Cfg} {c : Codec} {b : Byte} {pos : Nat}

theorem CodecInv.ready (h : CodecInv cfg c) : DecoderReady cfg c :=
  ⟨h.dstate, h.payload, fun hd => (h.complete hd).2⟩

/-- Before ADDR no register matters. -/
theorem DecoderReady.of_viewIntact (h : c.dstate.viewIntact = true) : DecoderReady cfg c where
  dstate := DState.reachable_of_viewIntact h _
  payload hd := by rw [hd] at h; cases h
  complete hd := by rw [hd] at h; cases h

theorem DecoderReady.raise (h : c.dstate.viewIntact = true) (code : ErrCode) :
    DecoderReady cfg (raiseDecodeError cfg c pos code).1 :=
  .of_viewIntact (by rwa [raiseDecodeError_eq])

theorem DecoderReady.byteStep {q : Codec × List Event} (h : DecoderReady cfg c)
    (hq : ByteStep cfg c b pos q) : DecoderReady cfg q.1 := by
  cases hq with
  | skip => exact h
  | lost hd => exact .raise (by rw [hd]; rfl) _
  | sync1 | sync2 => exact .of_viewIntact rfl
  | fail => exact .raise rfl _
  | addr hd hr hl => exact ⟨hr, by rintro rfl; simp at hl, by rintro rfl; simp at hl⟩
  | lenHi hp => exact ⟨by rw [hp]; rfl, nofun, nofun⟩
  | oversized => exact .raise rfl _
  | empty hp => exact ⟨by rw [hp]; rfl, nofun, fun _ => Nat.zero_le _⟩
  | due hd h0 hn => exact ⟨by cases cfg.protocol <;> rfl, fun _ => ⟨h0, hn⟩, nofun⟩
  | payload hd hl =>
    obtain ⟨hi, hle⟩ := h.payload hd
    exact ⟨h.dstate, fun _ => ⟨lt_of_le_of_ne hi hl, hle⟩, h.complete⟩
  | payloadEnd hp hd => exact ⟨by rw [hp]; rfl, nofun, fun _ => (h.payload hd).2⟩
  | emitAtCrc | emitAtPayloadEnd => exact .of_viewIntact rfl

theorem DecoderReady.exists_decodeByte (h : DecoderReady cfg c) :
    ∃ q, Machine.decodeByte cfg c b pos = .ok q := by
  have hreach := h.dstate
  cases hp : cfg.protocol <;> cases hd : c.dstate <;> rw [hp, hd] at hreach
  case p5E4D.waitSync1 => exact ⟨_, decodeByte_p5_waitSync1 hp b pos hd⟩
  case p5E4D.waitSync2 => exact ⟨_, decodeByte_p5_waitSync2 hp b pos hd⟩
  case p5E4D.readAddr => exact ⟨_, decodeByte_p5_readAddr hp b pos hd⟩
  case p5E4D.readLenHi => exact ⟨_, decodeByte_p5_readLenHi hp b pos hd⟩
  case p5E4D.readLenLo => exact ⟨_, decodeByte_p5_readLenLo hp b pos hd⟩
  case p5E4D.readPayload =>
    obtain ⟨hi, hle⟩ := h.payload hd
    exact ⟨_, decodeByte_p5_readPayload hp b pos hd (hi.trans_le hle)⟩
  case p5E4D.readCrc =>
    by_cases hb : b = c.crc
    · exact ⟨_, decodeByte_p5_readCrc_of_eq hp b pos hd hb (h.complete hd)⟩
    · exact ⟨_, decodeByte_p5_readCrc_of_ne hp b pos hd hb⟩
  case p7C6E.waitSync1 => exact ⟨_, decodeByte_p7_waitSync1 hp b pos hd⟩
  case p7C6E.waitSync2 => exact ⟨_, decodeByte_p7_waitSync2 hp b pos hd⟩
  case p7C6E.readAddr => exact ⟨_, decodeByte_p7_readAddr hp b pos hd⟩
  case p7C6E.readLen8 => exact ⟨_, decodeByte_p7_readLen8 hp b pos hd⟩
  case p7C6E.readPayload =>
    obtain ⟨hi, hle⟩ := h.payload hd
    rw [msgbufSize_p7 hp] at hle
    by_cases hl : c.idx + 1 = c.len
    · exact ⟨_, decodeByte_p7_readPayload_last hp b pos hd (hi.trans_le hle) hl⟩
    · exact ⟨_, decodeByte_p7_readPayload hp b pos hd (hi.trans_le hle) hl⟩
  all_goals cases hreach

theorem DecoderReady.exists_decodeChunk {bs : Bytes} (h : DecoderReady cfg c) :
    ∃ c' es, Machine.decodeChunk cfg c pos bs = .ok (c', es) ∧ DecoderReady cfg c' := by
  induction bs generalizing c pos with
  | nil => exact ⟨c, [], rfl, h⟩
  | cons b bs ih =>
    obtain ⟨⟨c1, e1⟩, h1⟩ := h.exists_decodeByte (b := b) (pos := pos)
    obtain ⟨c2, e2, h2, hc2⟩ := ih (pos := pos + 1) (h.byteStep (decodeByte_byteStep h1))
    exact ⟨c2, e1 ++ e2, decodeChunk_cons_ok.2 ⟨c1, e1, e2, h1, h2, rfl⟩, hc2⟩

end

/-! ### Positions (R174) -/

/-- What a byte or a chunk leaves, with the position of each `ERR` record moved on (R174). -/
def shifted (k : Nat) (q : Codec × List Event) : Codec × List Event := (q.1, q.2.map (shiftErr k))

section
variable (cfg : Cfg) (c : Codec) (b : Byte) (pos k : Nat)

theorem failFrame_shifted (code : ErrCode) :
    failFrame cfg c (pos + k) code = shifted k (failFrame cfg c pos code) := by
  rw [failFrame_eq, failFrame_eq, shifted]
  dsimp only
  split <;> rfl

theorem missSync1_shifted : missSync1 cfg c (pos + k) = shifted k (missSync1 cfg c pos) := by
  rw [missSync1_eq, missSync1_eq]
  split
  · rw [shifted]
    dsimp only
    split <;> rfl
  · rfl

/-- A message carries no position. -/
theorem emitMessage_shifted : (emitMessage cfg c).map (shifted k) = emitMessage cfg c := by
  unfold emitMessage
  split <;> rfl

theorem p5Step_shifted : p5Step cfg c b (pos + k) = (p5Step cfg c b pos).map (shifted k) := by
  unfold p5Step
  cases c.dstate with
  | waitSync1 =>
    dsimp only [p5WaitSync1]
    rw [missSync1_shifted]
    split <;> rfl
  | waitSync2 =>
    dsimp only [p5WaitSync2]
    rw [failFrame_shifted]
    split <;> rfl
  | readLenLo =>
    dsimp only [p5ReadLenLo]
    rw [failFrame_shifted]
    split
    · rfl
    · split <;> rfl
  | readPayload =>
    dsimp only [p5ReadPayload]
    split <;> rfl
  | readCrc =>
    dsimp only [p5ReadCrc]
    rw [failFrame_shifted]
    split
    · rw [emitMessage_shifted]
    · rfl
  | readAddr | readLenHi | readLen8 => rfl

theorem p7Step_shifted : p7Step cfg c b (pos + k) = (p7Step cfg c b pos).map (shifted k) := by
  unfold p7Step
  cases c.dstate with
  | waitSync1 =>
    dsimp only [p7WaitSync1]
    rw [missSync1_shifted]
    split <;> rfl
  | waitSync2 =>
    dsimp only [p7WaitSync2]
    rw [failFrame_shifted]
    split <;> rfl
  | readPayload =>
    dsimp only [p7ReadPayload]
    split
    · split
      · rw [emitMessage_shifted]
      · rfl
    · rfl
  | readAddr | readLenHi | readLenLo | readCrc | readLen8 => rfl

/-- A byte does at every position the same, but for the position in its `ERR` record. -/
theorem decodeByte_shifted :
    decodeByte cfg c b (pos + k) = (decodeByte cfg c b pos).map (shifted k) := by
  rw [decodeByte_eq, decodeByte_eq]
  cases cfg.protocol with
  | p5E4D => exact p5Step_shifted cfg c b pos k
  | p7C6E => exact p7Step_shifted cfg c b pos k

end

/-- A chunk does at every position the same, but for the positions in its `ERR` records. -/
theorem decodeChunk_shifted {cfg : Cfg} {c c' : Codec} {pos : Nat} {bs : Bytes} {es : List Event}
    (k : Nat) (h : decodeChunk cfg c pos bs = .ok (c', es)) :
    decodeChunk cfg c (pos + k) bs = .ok (c', es.map (shiftErr k)) := by
  induction bs generalizing c pos es with
  | nil =>
    cases h
    rfl
  | cons b bs ih =>
    obtain ⟨c1, e1, e2, h1, h2, rfl⟩ := decodeChunk_cons_ok.1 h
    have hbyte : decodeByte cfg c b (pos + k) = .ok (c1, e1.map (shiftErr k)) := by
      rw [decodeByte_shifted, h1]
      rfl
    have hrest := ih h2
    rw [Nat.add_right_comm] at hrest
    exact decodeChunk_cons_ok.2 ⟨c1, _, _, hbyte, hrest, List.map_append⟩

/-- No byte requests a reset, and none takes a request away. -/
theorem decodeChunk_resetReq {cfg : Cfg} {c c' : Codec} {pos : Nat} {bs : Bytes} {es : List Event}
    (h : decodeChunk cfg c pos bs = .ok (c', es)) : c'.resetReq = c.resetReq := by
  induction bs generalizing c pos es with
  | nil =>
    cases h
    rfl
  | cons b bs ih =>
    obtain ⟨c1, e1, e2, h1, h2, -⟩ := decodeChunk_cons_ok.1 h
    rw [ih h2, (decodeByte_keeps h1).1]

/-! ### Errors counted and reported (R157) -/

/-- The records report the errors counted, and the count stays within `MAX_ERRORS`. -/
def CountsErrors (cfg : Cfg) (c : Codec) (q : Codec × List Event) : Prop :=
  q.1.errCount = c.errCount + (q.2.filter Event.isErr).length ∧
    (c.errCount ≤ cfg.maxErrors → q.1.errCount ≤ cfg.maxErrors)

theorem raiseDecodeError_countsErrors (cfg : Cfg) (c : Codec) (pos : Nat) (code : ErrCode) :
    CountsErrors cfg c (raiseDecodeError cfg c pos code) := by
  rw [raiseDecodeError_eq, CountsErrors]
  dsimp only
  split
  · exact ⟨rfl, fun _ => by omega⟩
  · exact ⟨rfl, id⟩

theorem ByteStep.countsErrors {cfg : Cfg} {c : Codec} {b : Byte} {pos : Nat}
    {q : Codec × List Event} (h : ByteStep cfg c b pos q) : CountsErrors cfg c q := by
  cases h with
  | lost | fail | oversized => exact raiseDecodeError_countsErrors ..
  | _ => exact ⟨rfl, id⟩

theorem CountsErrors.trans {cfg : Cfg} {c c1 c2 : Codec} {e1 e2 : List Event}
    (h1 : CountsErrors cfg c (c1, e1)) (h2 : CountsErrors cfg c1 (c2, e2)) :
    CountsErrors cfg c (c2, e1 ++ e2) := by
  obtain ⟨hcount1, hmax1⟩ := h1
  obtain ⟨hcount2, hmax2⟩ := h2
  refine ⟨?_, fun h => hmax2 (hmax1 h)⟩
  dsimp only at *
  rw [List.filter_append, List.length_append]
  omega

theorem decodeChunk_countsErrors {cfg : Cfg} {c c' : Codec} {pos : Nat} {bs : Bytes}
    {es : List Event} (h : decodeChunk cfg c pos bs = .ok (c', es)) :
    CountsErrors cfg c (c', es) := by
  induction bs generalizing c pos es with
  | nil =>
    cases h
    exact ⟨rfl, id⟩
  | cons b bs ih =>
    obtain ⟨c1, e1, e2, h1, h2, rfl⟩ := decodeChunk_cons_ok.1 h
    exact (decodeByte_byteStep h1).countsErrors.trans (ih h2)

/-! ### The statements -/

/-- Settles O9: one more byte is one more step at the end of the chunk, and the invariant leaves
the decoder ready for every byte. -/
theorem codecDecodeResult : Obligations.CodecDecodeResult := by
  refine ⟨fun chunk => encodedAs_of_encode rfl fun p => beq_port_iff p .dec, fun s => ?_⟩
  refine ⟨?empty, fun chunk b t c es h hb => ?oneMore, fun h chunk => ?completes⟩
  case empty =>
    exact exec_codecDecode_next_iff.2 ⟨_, [], rfl, by rw [List.append_nil]; rfl⟩
  case oneMore =>
    obtain ⟨c1, e1, hd, rfl⟩ := exec_codecDecode_next_iff.1 h
    rw [← Nat.zero_add chunk.length] at hb
    exact exec_codecDecode_next_iff.2
      ⟨c, e1 ++ es, decodeChunk_concat hd hb, by rw [← List.append_assoc]⟩
  case completes =>
    obtain ⟨c, es, hd, -⟩ := h.decodeStart.ready.exists_decodeChunk (pos := 0) (bs := chunk)
    exact ⟨c, es, exec_codecDecode_next_iff.2 ⟨c, es, hd, rfl⟩⟩

/-- Settles O17: the first part leaves no reset requested, so the second goes on from the decoder
the first left, and only the positions tell where it began. -/
theorem fragmentationInvariance : Obligations.FragmentationInvariance := by
  intro s a b h
  obtain ⟨ca, ea, ha, hca⟩ := h.decodeStart.ready.exists_decodeChunk (pos := 0) (bs := a)
  obtain ⟨cb, eb, hb, -⟩ := hca.exists_decodeChunk (pos := 0) (bs := b)
  have hreq : ca.resetReq = false := (decodeChunk_resetReq ha).trans (decodeStart_resetReq _)
  have hjoined := decodeChunk_append_ok.2 ⟨ca, ea, _, ha, decodeChunk_shifted a.length hb, rfl⟩
  refine ⟨_, _, _, ea, eb, exec_codecDecode_next_iff.2 ⟨ca, ea, ha, rfl⟩,
    exec_codecDecode_next_iff.2 ⟨cb, eb, ?_, rfl⟩,
    exec_codecDecode_next_iff.2 ⟨cb, _, hjoined, rfl⟩, rfl, rfl, ?_⟩
  · rwa [decodeStart_of_no_resetReq hreq]
  · rw [List.append_assoc s.evq ea (eb.map _)]

/-- Settles O20. -/
theorem errorReportsAreCountedAndLimited : Obligations.ErrorReportsAreCountedAndLimited := by
  intro s t chunk hreq h
  obtain ⟨c, es, hd, rfl⟩ := exec_codecDecode_next_iff.1 h
  rw [decodeStart_of_no_resetReq hreq] at hd
  exact ⟨es, rfl, decodeChunk_countsErrors hd⟩

end Sys2Proof.Machine
end

section
/-! SUPPORT. Whole frames (40_codec.md R172, R175, R176): what the decoder makes, from sync search,
of a frame's header, of its payload and of its last byte, of bytes in which no frame begins, and of
a frame with one byte changed. -/

namespace Sys2Proof.Machine

section
variable {cfg : Cfg} {c c1 : Codec} {pos : Nat}

/-- A byte that emits nothing leaves the rest of the chunk to the decoder it makes. -/
theorem decodeChunk_cons_quiet {q : Codec × List Event} {b : Byte} {bs : Bytes}
    (hb : decodeByte cfg c b pos = .ok (c1, [])) (h : decodeChunk cfg c1 (pos + 1) bs = .ok q) :
    decodeChunk cfg c pos (b :: bs) = .ok q :=
  decodeChunk_cons_ok.2 ⟨c1, [], q.2, hb, h, rfl⟩

/-- A chunk that emits nothing leaves the rest to the decoder it makes. -/
theorem decodeChunk_append_quiet {q : Codec × List Event} {as bs : Bytes}
    (ha : decodeChunk cfg c pos as = .ok (c1, []))
    (h : decodeChunk cfg c1 (pos + as.length) bs = .ok q) :
    decodeChunk cfg c pos (as ++ bs) = .ok q :=
  decodeChunk_append_ok.2 ⟨c1, [], q.2, ha, h, rfl⟩

/-- CODEC after a frame with the given address and payload, but for the running CRC (R156). -/
def delivered (c : Codec) (a : Byte) (p : Bytes) (crc : Byte) : Codec :=
  { c with
    dstate := .waitSync1, crc := crc, len := p.length, idx := p.length, msgAddr := a
    msgLen := p.length, msgValid := true, lastOk := true, msgbuf := writeBytes c.msgbuf 0 p }

/-- `Emit` with the payload in `MSGBUF` delivers it. -/
theorem emitted_eq_delivered (c : Codec) (a : Byte) (p : Bytes) (crc : Byte) (d : DState) :
    emitted { c with
      dstate := d, crc := crc, len := p.length, idx := p.length, msgAddr := a, msgValid := false
      msgbuf := writeBytes c.msgbuf 0 p } = (delivered c a p crc, [.msg a p.length p]) := by
  rw [emitted]
  dsimp only
  rw [readBytes_writeBytes]
  rfl

/-! ### A P5E4D frame (30_encoding.md R107, R112) -/

/-- The header bytes the CRC covers (R112). -/
def hdrCover (cfg : Cfg) (a : Byte) (n : Nat) : Bytes :=
  if cfg.includeHeaderCrc = false then []
  else if cfg.hdrCrcFirst = .sync1 then header5E4D a n
  else (header5E4D a n).drop 1

theorem crcCover_eq_append (cfg : Cfg) (a : Byte) (p : Bytes) :
    crcCover cfg a p = hdrCover cfg a p.length ++ p := by
  rw [crcCover_eq, hdrCover]
  split
  · rfl
  · split <;> rfl

theorem crc8_crcCover (cfg : Cfg) (a : Byte) (p : Bytes) :
    crc8 (crcCover cfg a p) = crc8From (crc8 (hdrCover cfg a p.length)) p := by
  rw [crcCover_eq_append]
  exact crc8From_append ..

/-- The decoder's running CRC after the five header bytes is the CRC of those it covers. -/
theorem hdrCrc_header (cfg : Cfg) (a : Byte) (n : Nat) :
    hdrCrc cfg (hdrCrc cfg (hdrCrc cfg (hdrCrc cfg (sync1Crc cfg) 0x4D#8) a) (hi8 n)) (lo8 n) =
      crc8 (hdrCover cfg a n) := by
  unfold hdrCrc sync1Crc hdrCover header5E4D crc8
  cases cfg.includeHeaderCrc with
  | false => rfl
  | true => cases cfg.hdrCrcFirst <;> simp [Config.sync2of5E4D]

/-- The two length bytes carry a length of 16 bits. -/
theorem hi8_mul_add_lo8 {n : Nat} (h : n < 65536) : (hi8 n).toNat * 256 + (lo8 n).toNat = n := by
  rw [hi8, lo8, BitVec.toNat_ofNat, BitVec.toNat_ofNat]
  omega

section
variable (hp : cfg.protocol = .p5E4D)
include hp

theorem le_msgbufSize_p5 {n : Nat} (hfit : n + 6 ≤ cfg.maxFrame) : n ≤ cfg.msgbufSize := by
  rw [msgbufSize_p5 hp]
  omega

theorem decodeByte_p5_sync1 (hd : c.dstate = .waitSync1) :
    decodeByte cfg c 0x5E#8 pos = .ok ({ c with crc := sync1Crc cfg, dstate := .waitSync2 }, []) :=
  (decodeByte_p5_waitSync1 hp _ pos hd).trans (congrArg _ (if_pos rfl))

theorem decodeByte_p5_sync2 (hd : c.dstate = .waitSync2) :
    decodeByte cfg c 0x4D#8 pos =
      .ok ({ c with crc := hdrCrc cfg c.crc 0x4D#8, dstate := .readAddr }, []) :=
  (decodeByte_p5_waitSync2 hp _ pos hd).trans (congrArg _ (if_pos rfl))

/-- A length that fits is followed by its payload, or by the CRC byte when there is none. -/
theorem decodeByte_p5_lenLo {b : Byte} {n : Nat} (hd : c.dstate = .readLenLo)
    (hn : c.len + b.toNat = n) (hfit : n + 6 ≤ cfg.maxFrame) :
    decodeByte cfg c b pos = .ok ({ c with
      len := n, crc := hdrCrc cfg c.crc b, idx := 0
      dstate := if n = 0 then .readCrc else .readPayload }, []) := by
  rw [decodeByte_p5_readLenLo hp b pos hd, hn, if_neg (Nat.not_lt.2 hfit)]

theorem decodeChunk_p5_header (hd : c.dstate = .waitSync1) (a : Byte) {n : Nat}
    (hfit : n + 6 ≤ cfg.maxFrame) (hn : n < 65536) :
    decodeChunk cfg c pos (header5E4D a n) = .ok ({ c with
      crc := crc8 (hdrCover cfg a n), len := n, idx := 0, msgAddr := a, msgValid := false
      dstate := if n = 0 then .readCrc else .readPayload }, []) := by
  refine decodeChunk_cons_quiet (decodeByte_p5_sync1 hp hd) ?_
  refine decodeChunk_cons_quiet (decodeByte_p5_sync2 hp rfl) ?_
  refine decodeChunk_cons_quiet (decodeByte_p5_readAddr hp _ _ rfl) ?_
  refine decodeChunk_cons_quiet (decodeByte_p5_readLenHi hp _ _ rfl) ?_
  refine decodeChunk_cons_quiet (decodeByte_p5_lenLo hp rfl (hi8_mul_add_lo8 hn) hfit) ?_
  rw [decodeChunk_nil, hdrCrc_header]

/-- The payload goes to `MSGBUF` and under the CRC; where none is left the CRC byte is due. -/
theorem decodeChunk_p5_payload {p : Bytes}
    (hd : c.dstate = if p.length = 0 then .readCrc else .readPayload)
    (hl : c.idx + p.length = c.len) (hs : c.len ≤ cfg.msgbufSize) :
    decodeChunk cfg c pos p = .ok ({ c with
      msgbuf := writeBytes c.msgbuf c.idx p, crc := crc8From c.crc p, idx := c.len
      dstate := .readCrc }, []) := by
  induction p generalizing c pos with
  | nil =>
    have hi : c.idx = c.len := hl
    have hd' : c.dstate = .readCrc := hd
    cases c
    dsimp only at hi hd'
    subst hi hd'
    rfl
  | cons b bs ih =>
    rw [List.length_cons] at hl hd
    refine decodeChunk_cons_quiet (decodeByte_p5_readPayload hp b pos hd (by omega)) ?_
    refine ih ?_ (show c.idx + 1 + bs.length = c.len by omega) hs
    have hend : c.idx + 1 = c.len ↔ bs.length = 0 := by omega
    simp only [hend]

/-- CODEC when the CRC byte of a frame is due. -/
def received5E4D (cfg : Cfg) (c : Codec) (a : Byte) (p : Bytes) : Codec :=
  { c with
    crc := crc8 (crcCover cfg a p), len := p.length, idx := p.length, msgAddr := a
    msgValid := false, dstate := .readCrc, msgbuf := writeBytes c.msgbuf 0 p }

variable (hd : c.dstate = .waitSync1) (a : Byte) {p : Bytes} (hfit : p.length + 6 ≤ cfg.maxFrame)
  (hn : p.length < 65536)
include hd hfit hn

theorem decodeChunk_p5_toCrc :
    decodeChunk cfg c pos (header5E4D a p.length ++ p) = .ok (received5E4D cfg c a p, []) := by
  refine decodeChunk_append_quiet (decodeChunk_p5_header hp hd a hfit hn) ?_
  refine (decodeChunk_p5_payload hp rfl (Nat.zero_add _) (le_msgbufSize_p5 hp hfit)).trans ?_
  rw [received5E4D, crc8_crcCover]

/-- The right CRC byte delivers the message (R165). -/
theorem decodeChunk_p5_frame :
    decodeChunk cfg c pos (header5E4D a p.length ++ p ++ [crc8 (crcCover cfg a p)]) =
      .ok (delivered c a p (crc8 (crcCover cfg a p)), [.msg a p.length p]) := by
  have hcrc := decodeByte_p5_readCrc_of_eq (c := received5E4D cfg c a p) hp
    (crc8 (crcCover cfg a p)) (pos + (header5E4D a p.length ++ p).length) rfl rfl
    (le_msgbufSize_p5 hp hfit)
  rw [decodeChunk_concat (decodeChunk_p5_toCrc hp hd a hfit hn) hcrc]
  exact congrArg Except.ok (emitted_eq_delivered ..)

/-- Any other CRC byte is a `BAD_CRC` at its position (R165). -/
theorem decodeChunk_p5_badCrc {x : Byte} (hx : x ≠ crc8 (crcCover cfg a p)) :
    decodeChunk cfg c pos (header5E4D a p.length ++ p ++ [x]) =
      .ok (erred cfg (received5E4D cfg c a p) (pos + (p.length + 5)) .badCrc) := by
  have hlen : (header5E4D a p.length ++ p).length = p.length + 5 := by
    rw [List.length_append, Nat.add_comm]
    rfl
  rw [← hlen]
  exact decodeChunk_concat (decodeChunk_p5_toCrc hp hd a hfit hn)
    (decodeByte_p5_readCrc_of_ne hp x _ rfl hx)

end

/-! ### A P7C6E frame (30_encoding.md R109) -/

/-- The length byte carries 1 to 255 as they are and 256 as 0. -/
theorem len8_lo8 {n : Nat} (h0 : 0 < n) (hn : n ≤ 256) :
    (if lo8 n = 0x00#8 then 256 else (lo8 n).toNat) = n := by
  have hlo : (lo8 n).toNat = n % 256 := BitVec.toNat_ofNat ..
  have hzero : lo8 n = 0x00#8 ↔ n % 256 = 0 := by rw [← BitVec.toNat_inj, hlo]; rfl
  simp only [hzero, hlo]
  split <;> omega

section
variable (hp : cfg.protocol = .p7C6E)
include hp

theorem decodeByte_p7_sync1 (hd : c.dstate = .waitSync1) :
    decodeByte cfg c 0x7C#8 pos = .ok ({ c with dstate := .waitSync2 }, []) :=
  (decodeByte_p7_waitSync1 hp _ pos hd).trans (congrArg _ (if_pos rfl))

theorem decodeByte_p7_sync2 (hd : c.dstate = .waitSync2) :
    decodeByte cfg c 0x6E#8 pos = .ok ({ c with dstate := .readAddr }, []) :=
  (decodeByte_p7_waitSync2 hp _ pos hd).trans (congrArg _ (if_pos rfl))

theorem decodeChunk_p7_header (hd : c.dstate = .waitSync1) (a : Byte) {n : Nat} (h0 : 0 < n)
    (hn : n ≤ 256) :
    decodeChunk cfg c pos [0x7C#8, 0x6E#8, a, lo8 n] = .ok ({ c with
      len := n, idx := 0, msgAddr := a, msgValid := false, dstate := .readPayload }, []) := by
  refine decodeChunk_cons_quiet (decodeByte_p7_sync1 hp hd) ?_
  refine decodeChunk_cons_quiet (decodeByte_p7_sync2 hp rfl) ?_
  refine decodeChunk_cons_quiet (decodeByte_p7_readAddr hp _ _ rfl) ?_
  refine decodeChunk_cons_quiet (decodeByte_p7_readLen8 hp _ _ rfl) ?_
  rw [decodeChunk_nil, len8_lo8 h0 hn]

/-- The payload goes to `MSGBUF`, and its last byte ends the frame. -/
theorem decodeChunk_p7_payload {p : Bytes} (hne : p ≠ []) (hd : c.dstate = .readPayload)
    (hl : c.idx + p.length = c.len) (hs : c.len ≤ 256) :
    decodeChunk cfg c pos p =
      .ok (emitted { c with msgbuf := writeBytes c.msgbuf c.idx p, idx := c.len }) := by
  induction p generalizing c pos with
  | nil => exact absurd rfl hne
  | cons b bs ih =>
    rw [List.length_cons] at hl
    cases bs with
    | nil =>
      have hi : c.idx + 1 = c.len := hl
      have hlast := decodeByte_p7_readPayload_last hp b pos hd (by omega) hi
      rw [stored, hi] at hlast
      exact decodeChunk_cons_ok.2 ⟨_, _, [], hlast, rfl, rfl⟩
    | cons b' bs =>
      rw [List.length_cons] at hl
      refine decodeChunk_cons_quiet
        (decodeByte_p7_readPayload hp b pos hd (by omega) (by omega)) ?_
      refine ih (List.cons_ne_nil _ _) hd ?_ hs
      show c.idx + 1 + (bs.length + 1) = c.len
      omega

theorem decodeChunk_p7_frame (hd : c.dstate = .waitSync1) (a : Byte) {p : Bytes} (hne : p ≠ [])
    (hn : p.length ≤ 256) :
    decodeChunk cfg c pos (frame7C6E a p) = .ok (delivered c a p c.crc, [.msg a p.length p]) := by
  refine decodeChunk_append_quiet
    (decodeChunk_p7_header hp hd a (List.length_pos_of_ne_nil hne) hn) ?_
  refine (decodeChunk_p7_payload hp hne rfl (Nat.zero_add _) hn).trans ?_
  exact congrArg Except.ok (emitted_eq_delivered ..)

end

/-! ### An encoded frame, in either variant -/

variable {addr : BitVec 16} {p f : Bytes}

/-- A payload the encoder accepts has its place in `MSGBUF`. -/
theorem length_le_of_encodeFrame (h : encodeFrame cfg addr p = some f) :
    p.length ≤ cfg.msgbufSize := by
  cases hp : cfg.protocol with
  | p5E4D => exact le_msgbufSize_p5 hp (encodeFrame_p5_eq_some hp h).1
  | p7C6E =>
    rw [msgbufSize_p7 hp]
    exact (encodeFrame_p7_eq_some hp h).2.1

/-- From sync search an encoded frame delivers its message and nothing else (R172). -/
theorem decodeChunk_encodeFrame (hcfg : cfg.wf = true) (hd : c.dstate = .waitSync1)
    (h : encodeFrame cfg addr p = some f) :
    ∃ crc, decodeChunk cfg c pos f =
      .ok (delivered c (addr.setWidth 8) p crc, [.msg (addr.setWidth 8) p.length p]) := by
  have hn : p.length < 65536 := (length_le_of_encodeFrame h).trans_lt (msgbufSize_lt hcfg)
  cases hp : cfg.protocol with
  | p5E4D =>
    obtain ⟨hfit, rfl⟩ := encodeFrame_p5_eq_some hp h
    exact ⟨_, decodeChunk_p5_frame hp hd _ hfit hn⟩
  | p7C6E =>
    obtain ⟨hne, hle, rfl⟩ := encodeFrame_p7_eq_some hp h
    exact ⟨_, decodeChunk_p7_frame hp hd _ hne hle⟩

/-! ### Bytes in which no frame begins (R175) -/

theorem decodeByte_of_ne_sync1 {b : Byte} (hd : c.dstate = .waitSync1) (hb : b ≠ sync1Of cfg) :
    decodeByte cfg c b pos = .ok (missSync1 cfg c pos) := by
  unfold sync1Of at hb
  cases hp : cfg.protocol <;> rw [hp] at hb
  case p5E4D => rw [decodeByte_p5_waitSync1 hp b pos hd, if_neg hb]
  case p7C6E => rw [decodeByte_p7_waitSync1 hp b pos hd, if_neg hb]

/-- After an error, and before any frame, bytes without SYNC1 do nothing. -/
theorem decodeChunk_of_no_sync1 {g : Bytes} (hd : c.dstate = .waitSync1) (hok : c.lastOk = false)
    (hg : ∀ b ∈ g, b ≠ sync1Of cfg) : decodeChunk cfg c pos g = .ok (c, []) := by
  induction g generalizing pos with
  | nil => rfl
  | cons b g ih =>
    obtain ⟨hb, hg⟩ := List.forall_mem_cons.1 hg
    have hmiss : missSync1 cfg c pos = (c, []) := by rw [missSync1, hok]; rfl
    refine decodeChunk_cons_quiet ?_ (ih hg)
    rw [decodeByte_of_ne_sync1 hd hb, hmiss]

theorem missSync1_dstate : (missSync1 cfg c pos).1.dstate = c.dstate := by
  rw [missSync1_eq]
  split <;> rfl

theorem missSync1_lastOk : (missSync1 cfg c pos).1.lastOk = false := by
  rw [missSync1_eq]
  split
  · rfl
  · rename_i hok
    simpa using hok

theorem missSync1_events :
    (missSync1 cfg c pos).2 =
      if c.lastOk = true ∧ c.errCount < cfg.maxErrors then [.err pos .syncLost] else [] := by
  rw [missSync1_eq]
  cases c.lastOk <;> simp

/-- Of several bytes without SYNC1 the first one is all that counts. -/
theorem decodeChunk_garbage {g : Bytes} (hd : c.dstate = .waitSync1) (hne : g ≠ [])
    (hg : ∀ b ∈ g, b ≠ sync1Of cfg) : decodeChunk cfg c pos g = .ok (missSync1 cfg c pos) := by
  cases g with
  | nil => exact absurd rfl hne
  | cons b g =>
    obtain ⟨hb, hg⟩ := List.forall_mem_cons.1 hg
    exact decodeChunk_cons_ok.2 ⟨_, _, [], decodeByte_of_ne_sync1 hd hb,
      decodeChunk_of_no_sync1 (missSync1_dstate.trans hd) missSync1_lastOk hg,
      (List.append_nil _).symm⟩

end

/-! ### One byte changed under the CRC (R176, 30_encoding.md R110, R111) -/

/-- A shift loses nothing: it is linear, and only 0 is shifted to 0. -/
theorem crcShift_injective : Function.Injective crcShift := by
  have hker : ∀ x : Byte, crcShift x = 0#8 → x = 0#8 := by decide
  intro x y h
  have hxor : crcShift (x ^^^ y) = 0#8 := by rw [crcShift_xor, h, BitVec.xor_self]
  exact BitVec.xor_eq_zero_iff.1 (hker _ hxor)

theorem crcTable_injective : Function.Injective crcTable :=
  have h := crcShift_injective
  (h.comp h).comp (h.comp h) |>.comp ((h.comp h).comp (h.comp h))

/-- Different running values stay different. -/
theorem crc8From_injective (s : Bytes) : Function.Injective (crc8From · s) := by
  induction s with
  | nil => exact Function.injective_id
  | cons b s ih =>
    intro c d h
    have hupdate : crc8Update c b = crc8Update d b := ih h
    exact (BitVec.xor_left_inj b).1 (crcTable_injective hupdate)

/-- One byte changed changes the CRC. -/
theorem crc8From_set_ne (c : Byte) {s : Bytes} {k : Nat} {x : Byte} (hk : k < s.length)
    (hx : s[k]? ≠ some x) : crc8From c (s.set k x) ≠ crc8From c s := by
  induction s generalizing c k with
  | nil => cases hk
  | cons b s ih =>
    cases k with
    | zero =>
      refine (crc8From_injective s).ne fun h => hx ?_
      exact congrArg some ((BitVec.xor_right_inj c).1 (crcTable_injective h)).symm
    | succ k => exact ih _ (Nat.lt_of_succ_lt_succ hk) hx

section
variable (cfg : Cfg) (a : Byte) {p : Bytes} {x : Byte}

theorem crc8_crcCover_set_ne {k : Nat} (hk : k < p.length) (hx : p[k]? ≠ some x) :
    crc8 (crcCover cfg a (p.set k x)) ≠ crc8 (crcCover cfg a p) := by
  rw [crc8_crcCover, crc8_crcCover, List.length_set]
  exact crc8From_set_ne _ hk hx

/-- A covered address is a byte under the CRC like any other. -/
theorem crc8_crcCover_addr_ne (hinc : cfg.includeHeaderCrc = true) (hx : some a ≠ some x) :
    crc8 (crcCover cfg x p) ≠ crc8 (crcCover cfg a p) := by
  rw [crc8_crcCover, crc8_crcCover]
  refine (crc8From_injective p).ne ?_
  unfold hdrCover
  rw [hinc]
  cases cfg.hdrCrcFirst with
  | sync1 => exact crc8From_set_ne _ (k := 2) (s := header5E4D a p.length) (by simp [header5E4D]) hx
  | sync2 =>
    exact crc8From_set_ne _ (k := 1) (s := (header5E4D a p.length).drop 1) (by simp [header5E4D]) hx

/-! The bytes of a frame by their place: the address at 2, the payload from 5 on, then the CRC. -/

theorem frame5E4D_length : (frame5E4D cfg a p).length = p.length + 6 := by
  simp [frame5E4D, header5E4D]

variable {k : Nat}

theorem frame5E4D_getElem?_payload (hk : k < p.length) : (frame5E4D cfg a p)[k + 5]? = p[k]? := by
  simp [frame5E4D, header5E4D, List.getElem?_append_left hk]

theorem frame5E4D_getElem?_crc :
    (frame5E4D cfg a p)[p.length + 5]? = some (crc8 (crcCover cfg a p)) := by
  simp [frame5E4D, header5E4D]

theorem frame5E4D_set_payload (hk : k < p.length) :
    (frame5E4D cfg a p).set (k + 5) x =
      header5E4D a p.length ++ p.set k x ++ [crc8 (crcCover cfg a p)] := by
  simp [frame5E4D, header5E4D, hk]

theorem frame5E4D_set_crc :
    (frame5E4D cfg a p).set (p.length + 5) x = header5E4D a p.length ++ p ++ [x] := by
  simp [frame5E4D, header5E4D]

/-- An address that is not covered is not under the CRC at all. -/
theorem crcCover_of_not_included (hinc : cfg.includeHeaderCrc = false) (p : Bytes) :
    crcCover cfg a p = p := by
  rw [crcCover_eq, if_pos hinc]

end

/-! ### Decodes of a whole chunk -/

section
variable {s : State}

/-- A decode with no reset requested, from the byte steps of its chunk. -/
theorem exec_codecDecode_of_decodeChunk {c : Codec} {es : List Event} {chunk : Bytes}
    (hreq : s.codec.resetReq = false) (h : decodeChunk s.cfg s.codec 0 chunk = .ok (c, es)) :
    exec (.codecDecode chunk) s = .next { s with
      codec := c, evq := s.evq ++ es, reply := some (.ok .none) } :=
  exec_codecDecode_next_iff.2 ⟨c, es, by rwa [decodeStart_of_no_resetReq hreq], rfl⟩

/-- A frame whose last byte is not its CRC is reported at that byte and delivers nothing. -/
theorem exec_codecDecode_badCrc (hp : s.cfg.protocol = .p5E4D) (hd : s.codec.dstate = .waitSync1)
    (hreq : s.codec.resetReq = false) (a : Byte) {p : Bytes} (hfit : p.length + 6 ≤ s.cfg.maxFrame)
    (hn : p.length < 65536) {x : Byte} (hx : x ≠ crc8 (crcCover s.cfg a p)) :
    ∃ u, exec (.codecDecode (header5E4D a p.length ++ p ++ [x])) s = .next u ∧
      u.codec.dstate = .waitSync1 ∧ u.codec.msgValid = false ∧
      u.evq = s.evq ++
        if s.codec.errCount < s.cfg.maxErrors then [.err (p.length + 5) .badCrc] else [] := by
  have hchunk := decodeChunk_p5_badCrc (pos := 0) hp hd a hfit hn hx
  rw [Nat.zero_add] at hchunk
  exact ⟨_, exec_codecDecode_of_decodeChunk hreq hchunk, rfl, rfl, rfl⟩

end

/-! ### The statements -/

/-- Settles O16: the frame's bytes deliver the message, which then stands whole in `MSGBUF`. -/
theorem roundTrip : Obligations.RoundTrip := by
  intro s t addr payload f hcfg hd hreq henc hreply
  have hf := encodeFrame_of_reply henc hreply
  obtain ⟨crc, hchunk⟩ := decodeChunk_encodeFrame (pos := 0) hcfg hd hf
  refine ⟨_, exec_codecDecode_of_decodeChunk hreq hchunk, rfl, rfl, rfl, rfl, ?_⟩
  refine (exec_codecMsgCopy_of_valid rfl (length_le_of_encodeFrame hf)).trans ?_
  dsimp only [delivered]
  rw [readBytes_writeBytes]

/-- Settles O18: the garbage leaves the decoder in sync search, and the frame finds it there. -/
theorem resyncAfterGarbage : Obligations.ResyncAfterGarbage := by
  intro s t g f payload addr hcfg hd hreq hne hg henc hreply
  have hf := encodeFrame_of_reply henc hreply
  obtain ⟨crc, hframe⟩ := decodeChunk_encodeFrame (c := (missSync1 s.cfg s.codec 0).1)
    (pos := 0 + g.length) hcfg (missSync1_dstate.trans hd) hf
  have hgarbage : decodeChunk s.cfg s.codec 0 g =
      .ok ((missSync1 s.cfg s.codec 0).1, (missSync1 s.cfg s.codec 0).2) :=
    decodeChunk_garbage hd hne hg
  have hchunk := decodeChunk_append_ok.2 ⟨_, _, _, hgarbage, hframe, rfl⟩
  refine ⟨_, exec_codecDecode_of_decodeChunk hreq hchunk, rfl, ?_⟩
  dsimp only
  rw [missSync1_events, List.append_assoc]

/-- Settles O19: a changed byte that is the CRC or under it makes the two differ, and a changed
address that is not is delivered. -/
theorem changedByteIsDetected : Obligations.ChangedByteIsDetected := by
  intro s t f p addr j x hcfg hp hd hreq henc hreply hj hx
  have hf := encodeFrame_of_reply henc hreply
  have hn : p.length < 65536 := (length_le_of_encodeFrame hf).trans_lt (msgbufSize_lt hcfg)
  obtain ⟨hfit, rfl⟩ := encodeFrame_p5_eq_some hp hf
  rw [frame5E4D_length] at hj ⊢
  refine ⟨?detected, ?delivered⟩
  case detected =>
    rintro (h5 | ⟨rfl, hinc⟩)
    · obtain ⟨k, rfl⟩ := Nat.exists_eq_add_of_le' h5
      obtain hk | rfl : k < p.length ∨ k = p.length := by omega
      · rw [frame5E4D_getElem?_payload _ _ hk] at hx
        have h := exec_codecDecode_badCrc (p := p.set k x) hp hd hreq (addr.setWidth 8)
          (by rwa [List.length_set]) (by rwa [List.length_set])
          (crc8_crcCover_set_ne s.cfg _ hk hx).symm
        rw [List.length_set] at h
        rwa [frame5E4D_set_payload _ _ hk]
      · rw [frame5E4D_getElem?_crc] at hx
        rw [frame5E4D_set_crc]
        exact exec_codecDecode_badCrc hp hd hreq _ hfit hn fun he => hx (congrArg some he.symm)
    · exact exec_codecDecode_badCrc hp hd hreq x hfit hn (crc8_crcCover_addr_ne _ _ hinc hx).symm
  case delivered =>
    rintro rfl hinc
    have hchunk := decodeChunk_p5_frame (pos := 0) hp hd x hfit hn
    have hcrc : crcCover s.cfg x p = crcCover s.cfg (addr.setWidth 8) p := by
      rw [crcCover_of_not_included _ _ hinc, crcCover_of_not_included _ _ hinc]
    rw [hcrc] at hchunk
    exact ⟨_, exec_codecDecode_of_decodeChunk hreq hchunk, rfl, rfl⟩

end Sys2Proof.Machine
end

section
/-! SUPPORT. The RB operations one by one (41_ringbuffer.md R192 to R198): their encodings, what a
fill leaves at every address of `SLOT`, and each operation's refusals and result. -/

namespace Sys2Proof.Machine

/-! ### Encodings (30_encoding.md R116) -/

/-- The operand stands in the low 24 bits, under the bits of the unit and the operation. -/
theorem cmd32_eq_or (u o : BitVec 4) (imm : Imm) :
    cmd32 u o imm = cmd32 u o 0#24 ||| imm.setWidth 32 := by
  have hzero : cmd32 u o 0#24 = (u ++ o).shiftLeftZeroExtend 24 :=
    (BitVec.append_def _ _).trans (by simp)
  rw [hzero]
  exact BitVec.append_def _ _

/-! ### One byte of a written sequence -/

section
variable (sp : Space) (m : Memory) (a : Nat) (bs : Bytes)

/-- A byte of a written sequence reads as the byte written there. -/
theorem readByte_writeBytes_at {k : Nat} (hk : k < bs.length) :
    some (readByte sp (writeBytes m a bs) (a + k)) = bs[k]? := by
  rw [← readBytes_getElem? _ _ _ _ _ hk, readBytes_writeBytes]

/-- A byte that is none of the written ones reads as before. -/
theorem readByte_writeBytes_other {x : Nat} (hx : ∀ k, k < bs.length → x ≠ a + k) :
    readByte sp (writeBytes m a bs) x = readByte sp m x := by
  have hout : ¬(a ≤ x ∧ x < a + bs.length) := by
    rintro ⟨hle, hlt⟩
    exact hx (x - a) (by omega) (by omega)
  rw [readByte, readByte, byteAt_writeBytes, if_neg hout]

end

theorem slotAddr_add (cfg : Cfg) (i o k : Nat) :
    slotAddr cfg i (o + k) = slotAddr cfg i o + k :=
  (Nat.add_assoc ..).symm

/-! ### The conditions (R192, R195) -/

theorem Rb.full_iff {cfg : Cfg} {r : Rb} : r.full cfg = true ↔ cfg.rbSlots ≤ r.count :=
  decide_eq_true_iff

theorem Rb.empty_iff {r : Rb} : r.empty = true ↔ r.count = 0 :=
  beq_iff_eq

/-- An operation over a checked access that succeeds goes on with its result. -/
theorem orFault_of_ok {α : Type} {r : Except Fault α} {a : α} {k : α → Out} (h : r = .ok a) :
    orFault r k = k a := by
  rw [h]
  rfl

section
variable {s : State}

/-! ### `RB.TRY_GET_WRITE` (R192) -/

theorem exec_rbTryGetWrite_of_full (h : s.cfg.rbSlots ≤ s.rb.count) :
    exec .rbTryGetWrite s = s.done .failed :=
  if_pos (Rb.full_iff.2 h)

theorem exec_rbTryGetWrite_of_not_full (h : s.rb.count < s.cfg.rbSlots) :
    exec .rbTryGetWrite s =
      (s.withRb { s.rb with wrHeld := true }).done (.ok (.slot s.rb.wr)) :=
  if_neg fun hfull => Nat.not_le.2 h (Rb.full_iff.1 hfull)

/-! ### `RB.FILL` (R193) -/

section
variable {off : Imm} {data : Bytes}

theorem exec_rbFill_of_not_held (h : s.rb.wrHeld = false) :
    exec (.rbFill off data) s = s.done .seqError :=
  if_neg (by simp [h])

theorem exec_rbFill_of_too_long (h : s.rb.wrHeld = true)
    (hlong : s.cfg.slotSize < off.toNat + data.length) :
    exec (.rbFill off data) s = s.done .rangeError :=
  (if_pos h).trans (if_pos hlong)

/-- A fill that fits writes its bytes from the offset of the write slot on. -/
theorem exec_rbFill_of_fits (h : s.rb.wrHeld = true)
    (hfit : off.toNat + data.length ≤ s.cfg.slotSize) (hwr : s.rb.wr < s.cfg.rbSlots) :
    exec (.rbFill off data) s =
      (s.withRb { s.rb with
        slots := writeBytes s.rb.slots (slotAddr s.cfg s.rb.wr off.toNat) data }).done
          (.ok .none) :=
  (if_pos h).trans <| (if_neg (Nat.not_lt.2 hfit)).trans <|
    orFault_of_ok (slotWrite_ok.2 ⟨⟨hwr, hfit⟩, rfl⟩)

end

/-! ### `RB.COMMIT_WRITE` (R194) -/

section
variable {n : Imm}

theorem exec_rbCommitWrite_of_not_held (h : s.rb.wrHeld = false) :
    exec (.rbCommitWrite n) s = s.done .seqError :=
  if_neg (by simp [h])

theorem exec_rbCommitWrite_of_too_long (h : s.rb.wrHeld = true)
    (hlong : s.cfg.slotSize < n.toNat) :
    exec (.rbCommitWrite n) s = s.done .rangeError :=
  (if_pos h).trans (if_pos hlong)

theorem exec_rbCommitWrite_of_fits (h : s.rb.wrHeld = true) (hfit : n.toNat ≤ s.cfg.slotSize)
    (hwr : s.rb.wr < s.rb.used.length) :
    exec (.rbCommitWrite n) s = (s.withRb (commitWrite s.cfg s.rb n.toNat)).done (.ok .none) :=
  (if_pos h).trans <| (if_neg (Nat.not_lt.2 hfit)).trans <|
    orFault_of_ok (usedAt_ok.2 (List.getElem?_eq_getElem hwr))

end

/-! ### `RB.TRY_GET_READ` (R195) -/

theorem exec_rbTryGetRead_of_empty (h : s.rb.count = 0) :
    exec .rbTryGetRead s = s.done .failed :=
  if_pos (Rb.empty_iff.2 h)

/-- A get for reading answers the read slot's used bytes. -/
theorem exec_rbTryGetRead_of_not_empty {n : Nat} (hc : 0 < s.rb.count)
    (hn : s.rb.used[s.rb.rd]? = some n) (hrd : s.rb.rd < s.cfg.rbSlots)
    (hfit : n ≤ s.cfg.slotSize) :
    exec .rbTryGetRead s = (s.withRb { s.rb with rdHeld := true }).done
      (.ok (.slotData s.rb.rd n
        (readBytes .slot s.rb.slots (slotAddr s.cfg s.rb.rd 0) n))) :=
  (if_neg fun hempty => hc.ne' (Rb.empty_iff.1 hempty)).trans <|
    (orFault_of_ok (usedAt_ok.2 hn)).trans <|
      orFault_of_ok (slotRead_ok.2 ⟨⟨hrd, hfit⟩, rfl⟩)

/-! ### `RB.COMMIT_READ` (R196) -/

theorem exec_rbCommitRead_of_not_held (h : s.rb.rdHeld = false) :
    exec .rbCommitRead s = s.done .seqError :=
  if_neg (by simp [h])

theorem exec_rbCommitRead_of_held {n : Nat} (h : s.rb.rdHeld = true)
    (hn : s.rb.used[s.rb.rd]? = some n) :
    exec .rbCommitRead s = (s.withRb (commitRead s.cfg s.rb n)).done (.ok .none) :=
  (if_pos h).trans (orFault_of_ok (usedAt_ok.2 hn))

end

/-! ### The statements -/

/-- Settles O24: the fill's memory is `writeBytes`, read byte by byte. -/
theorem rbFillResult : Obligations.RbFillResult := by
  intro off data
  refine ⟨encodedAs_of_encode (Prod.ext (cmd32_eq_or 0x2#4 0x1#4 off) rfl)
    fun p => beq_port_iff p .prod, fun s => ?_⟩
  refine ⟨exec_rbFill_of_not_held, exec_rbFill_of_too_long, fun hheld hfit hwr => ?_⟩
  refine ⟨_, exec_rbFill_of_fits hheld hfit hwr, fun k hk => ?written, fun a ha => ?other⟩
  case written =>
    rw [slotAddr_add]
    exact readByte_writeBytes_at _ _ _ _ hk
  case other =>
    refine readByte_writeBytes_other _ _ _ _ fun k hk => ?_
    rw [← slotAddr_add]
    exact ha k hk

/-- Settles O23. -/
theorem rbTryGetWriteResult : Obligations.RbTryGetWriteResult :=
  ⟨encodedAs_of_encode rfl fun p => beq_port_iff p .prod, fun _ =>
    ⟨exec_rbTryGetWrite_of_full, exec_rbTryGetWrite_of_not_full⟩⟩

/-- Settles O25. -/
theorem rbCommitWriteResult : Obligations.RbCommitWriteResult := fun n =>
  ⟨encodedAs_of_encode (Prod.ext (cmd32_eq_or 0x2#4 0x2#4 n) rfl)
    fun p => beq_port_iff p .prod, fun _ =>
    ⟨exec_rbCommitWrite_of_not_held, exec_rbCommitWrite_of_too_long,
      exec_rbCommitWrite_of_fits⟩⟩

/-- Settles O26: the data is `readBytes`, byte by byte. -/
theorem rbTryGetReadResult : Obligations.RbTryGetReadResult := by
  refine ⟨encodedAs_of_encode rfl fun p => beq_port_iff p .dec, fun s => ?_⟩
  refine ⟨exec_rbTryGetRead_of_empty, fun n hc hn hrd hfit => ?_⟩
  refine ⟨_, exec_rbTryGetRead_of_not_empty hc hn hrd hfit, readBytes_length .., fun k hk => ?_⟩
  rw [readBytes_getElem? _ _ _ _ _ hk, ← slotAddr_add, Nat.zero_add]

/-- Settles O27. -/
theorem rbCommitReadResult : Obligations.RbCommitReadResult :=
  ⟨encodedAs_of_encode rfl fun p => beq_port_iff p .dec, fun _ =>
    ⟨exec_rbCommitRead_of_not_held, fun _ => exec_rbCommitRead_of_held⟩⟩

/-- Settles O28: both operations answer unconditionally, and every port admits the first. -/
theorem rbStatisticsResults : Obligations.RbStatisticsResults :=
  ⟨encodedAs_of_encode rfl fun p => by cases p <;> decide,
    encodedAs_of_encode rfl fun p => beq_port_iff p .host, fun _ => ⟨rfl, rfl⟩⟩

end Sys2Proof.Machine
end

section
/-! SUPPORT. The cyclogram file (30_encoding.md R121, R122; 42_scheduler.md R212 to R220): lines,
tokens, the registry, the absolute times, one parsed line, and the search for a command. -/

namespace Sys2Proof.Machine

/-! ### The search for a command (R212) -/

/-- No command stands at an index exactly when no line there is one. -/
theorem isCmdAt_eq_false_iff {ls : List Line} {i : Nat} :
    isCmdAt ls i = false ↔ ∀ l, ls[i]? = some l → l.isCmd = false := by
  rw [isCmdAt]
  cases ls[i]? <;> simp

theorem Sch.busy_iff {x : Sch} : x.busy = true ↔ x.xphase ≠ .idle ∨ x.callout ≠ .none := by
  simp [Sch.busy]

/-- Settles O30: the search's two laws, said by lines; the other helpers are their definitions. -/
theorem schedulerHelpers : Obligations.SchedulerHelpers := by
  refine ⟨fun ls k i => ?found, fun ls k => ?notFound, fun _ _ => rfl, fun _ => Sch.busy_iff,
    fun _ _ => rfl⟩
  case found =>
    simp only [firstCmdAtOrAfter_some, isCmdAt_iff, isCmdAt_eq_false_iff]
    constructor
    · rintro ⟨hk, hcmd, hleast⟩
      exact ⟨⟨hk, hcmd⟩, fun j l hj hlt => hleast j hj hlt l⟩
    · rintro ⟨⟨hk, hcmd⟩, hleast⟩
      exact ⟨hk, hcmd, fun j hj hlt l => hleast j l hj hlt⟩
  case notFound =>
    simp only [firstCmdAtOrAfter_none, isCmdAt_eq_false_iff]
    exact ⟨fun h i l hi => h i hi l, fun h i hi l => h i l hi⟩

/-! ### Lines (R214) -/

@[simp] theorem dropCr_append_cr (l : Bytes) : dropCr (l ++ [cr]) = l := by simp [dropCr]

theorem dropCr_of_no_cr {l : Bytes} (h : l.getLast? ≠ some cr) : dropCr l = l := if_neg h

/-- Settles O32: a cut at LF, and then one CR dropped of each line. -/
theorem splitLinesLaws : Obligations.SplitLinesLaws := by
  intro l hl chop hchop
  have hdrop : dropCr l = chop := by
    obtain rfl | ⟨rfl, hcr⟩ := hchop
    · exact dropCr_append_cr chop
    · exact dropCr_of_no_cr hcr
  refine ⟨?_, fun rest => ?_⟩
  · rw [splitLines, cutLines_end hl, List.nil_append]
    split
    · rfl
    · rw [List.map_singleton, hdrop]
  · calc splitLines (l ++ lf :: rest)
        = dropCr l :: splitLines rest := by
          rw [splitLines, cutLines_append hl, List.map_cons, List.nil_append, splitLines]
      _ = chop :: splitLines rest := by rw [hdrop]

/-! ### The absolute times (R215) -/

/-- What a line adds to the time of its successors: its original delay, if it is a command. -/
def cmdDelay (l : Line) : Nat := if l.isCmd then l.origDelay else 0

theorem absTimesFrom_cons_of_lt {i k t : Nat} {m : Line} {ls : List Line} (h : i < k) :
    absTimesFrom i k t (m :: ls) = m :: absTimesFrom (i + 1) k t ls := if_pos h

theorem absTimesFrom_cons_of_le {i k t : Nat} {m : Line} {ls : List Line} (h : k ≤ i) :
    absTimesFrom i k t (m :: ls) =
      { m with absTime := t + cmdDelay m } :: absTimesFrom (i + 1) k (t + cmdDelay m) ls := by
  have htime : (if m.isCmd then t + m.origDelay else t) = t + cmdDelay m := by
    cases hm : m.isCmd <;> simp [cmdDelay, hm]
  rw [← htime]
  exact if_neg (Nat.not_lt.2 h)

/-- A line of a table whose first line has index `i`, after `ComputeAbs`: as before in front of
`k`, and from `k` on with the time of the start and the delays since. -/
theorem absTimesFrom_getElem? {ls : List Line} {i k t j : Nat} {l : Line} (h : ls[j]? = some l) :
    (absTimesFrom i k t ls)[j]? = some (if i + j < k then l else
      { l with absTime := t + (((ls.take (j + 1)).drop (k - i)).map cmdDelay).sum }) := by
  induction ls generalizing i t j with
  | nil => cases h
  | cons m ls ih =>
    rcases Nat.lt_or_ge i k with hi | hi
    · rw [absTimesFrom_cons_of_lt hi]
      cases j with
      | zero => simpa [hi] using h
      | succ j =>
        have hk : k - i = k - (i + 1) + 1 := by omega
        rw [List.getElem?_cons_succ, ih h, List.take_succ_cons, hk, List.drop_succ_cons,
          Nat.add_right_comm, Nat.add_assoc]
    · have hk : k - i = 0 := by omega
      have hk1 : k - (i + 1) = 0 := by omega
      rw [absTimesFrom_cons_of_le hi, if_neg (by omega), hk]
      cases j with
      | zero =>
        obtain rfl : m = l := by simpa using h
        simp
      | succ j =>
        rw [List.getElem?_cons_succ, ih h, if_neg (by omega), hk1]
        simp [Nat.add_assoc]

/-- Settles O33, by the table's lines one by one. -/
theorem computeAbsSumsDelays : Obligations.ComputeAbsSumsDelays := by
  intro ls t0 k
  refine ⟨computeAbs_length ls t0 k, fun i l hl => ⟨fun hi => ?before, fun hi => ?after⟩⟩
  case before =>
    rw [computeAbs, absTimesFrom_getElem? hl, if_pos (by omega)]
  case after =>
    rw [computeAbs, absTimesFrom_getElem? hl, if_neg (by omega)]
    rfl

/-! ### Tokens (R216) -/

theorem isBlank_iff {b : Byte} : isBlank b = true ↔ b = 0x20#8 ∨ b = 0x09#8 := by simp [isBlank]

theorem isBlank_eq_false_iff {b : Byte} : isBlank b = false ↔ b ≠ 0x20#8 ∧ b ≠ 0x09#8 := by
  simp [isBlank]

/-- A blank adds no token. -/
theorem tokensOf_blank_cons {b : Byte} (h : isBlank b = true) (rest : Bytes) :
    tokensOf (b :: rest) = tokensOf rest := by
  rw [tokensOf, cutTokens, if_pos h, if_pos rfl, tokensOf]

/-- A token ends before a blank or with the body. -/
theorem cutTokens_eq_cons {run rest : Bytes} (hne : run ≠ [])
    (hrest : ∀ b ∈ rest.head?, isBlank b = true) : cutTokens run rest = run :: tokensOf rest := by
  cases rest with
  | nil => simp [cutTokens, tokensOf, hne]
  | cons b rest =>
    have hb : isBlank b = true := hrest b rfl
    rw [cutTokens, if_pos hb, if_neg hne, tokensOf_blank_cons hb, tokensOf]

/-- Settles O34: a blank is skipped, and a run is read up to the blank or the end behind it. -/
theorem tokensAreMaximalRuns : Obligations.TokensAreMaximalRuns := by
  refine ⟨rfl, fun b rest hb => tokensOf_blank_cons (isBlank_iff.2 hb) rest,
    fun run rest hne hrun hrest => ?_⟩
  rw [tokensOf, cutTokens_append fun b hb => isBlank_eq_false_iff.2 (hrun b hb), List.nil_append]
  refine cutTokens_eq_cons hne fun b hb => isBlank_iff.2 ?_
  obtain h | h | h := hrest
  · simp [h] at hb
  · exact .inl (Option.some.inj (hb.symm.trans h))
  · exact .inr (Option.some.inj (hb.symm.trans h))

/-! ### The registry (R219) -/

theorem lookup_eq_none_iff {reg : List RegEntry} {name : Bytes} :
    lookup reg name = none ↔ ∀ e ∈ reg, e.name ≠ name := by
  simp [lookup]

theorem lookup_some {reg : List RegEntry} {name : Bytes} {e : RegEntry}
    (h : lookup reg name = some e) : e ∈ reg ∧ e.name = name :=
  ⟨List.mem_of_find?_eq_some h, by simpa using List.find?_some h⟩

/-- Settles O37: with distinct names, what is found under an entry's name is that entry. -/
theorem registryLookupIsExact : Obligations.RegistryLookupIsExact := by
  intro reg name
  refine ⟨lookup_eq_none_iff, fun _ => lookup_some, fun hnodup e he hname => ?_⟩
  cases hfound : lookup reg name with
  | none => exact absurd hname (lookup_eq_none_iff.1 hfound e he)
  | some d =>
    obtain ⟨hd, hdname⟩ := lookup_some hfound
    rw [List.inj_on_of_nodup_map hnodup hd he (hdname.trans hname.symm)]

/-! ### One line (R216) -/

/-- A line is cut at its first `#`. -/
theorem bodyAndComment_eq {t body comment : Bytes} (hbody : hash ∉ body)
    (ht : t = body ++ hash :: comment ∨ t = body ∧ comment = []) :
    bodyAndComment t = (body, comment) := by
  obtain rfl | ⟨rfl, rfl⟩ := ht
  · rw [bodyAndComment, cutAt_append hbody]
  · rw [bodyAndComment, cutAt_of_not_mem hbody]

section
variable {cfg : Cfg} {env : Env} {t body comment : Bytes}

theorem parseLine_of_no_token (h : bodyAndComment t = (body, comment)) (htok : tokensOf body = []) :
    parseLine cfg env t = blankLine t comment := by
  simp only [parseLine, h, htok]

theorem parseLine_of_token {time : Bytes} {rest : List Bytes}
    (h : bodyAndComment t = (body, comment)) (htok : tokensOf body = time :: rest) :
    parseLine cfg env t = commandLine cfg env (blankLine t comment) time rest := by
  simp only [parseLine, h, htok]

end

section
variable {cfg : Cfg} {env : Env} {e : Line} {time name : Bytes} {params : List Bytes}

theorem commandLine_of_bad_time (h : parseTime cfg.timeFracMode time = none) :
    commandLine cfg env e time (name :: params) =
      { e with isCmd := true, cmdName := name, params := params, err := .badTime } := by
  simp only [commandLine, h]

theorem commandLine_of_time {ms : Nat} (h : parseTime cfg.timeFracMode time = some ms) :
    commandLine cfg env e time (name :: params) = resolveCommand cfg env { e with
      isCmd := true, cmdName := name, params := params, delay := ms, origDelay := ms } := by
  simp only [commandLine, h]

theorem resolveCommand_of_unknown (h : lookup cfg.registry e.cmdName = none) :
    resolveCommand cfg env e = { e with err := .unknownCmd } := by
  simp only [resolveCommand, h]

theorem resolveCommand_of_known {r : RegEntry} (h : lookup cfg.registry e.cmdName = some r) :
    resolveCommand cfg env e = { e with
      cmdId := r.id
      err := if testOracle env.testFn r.id e.params then .none else .testFailed } := by
  simp only [resolveCommand, h]

end

/-- Settles O35: the body's tokens, then R216's checks in their order. -/
theorem parseLineChecksInOrder : Obligations.ParseLineChecksInOrder := by
  rintro cfg env t body comment e hbody ht rfl
  have hcut := bodyAndComment_eq hbody ht
  refine ⟨parseLine_of_no_token hcut, fun time htok => parseLine_of_token hcut htok,
    fun time name params htok => ?_⟩
  rw [parseLine_of_token hcut htok]
  refine ⟨commandLine_of_bad_time, fun ms htime => ?_⟩
  rw [commandLine_of_time htime]
  exact ⟨fun hname => resolveCommand_of_unknown (lookup_eq_none_iff.2 hname),
    fun r hr => resolveCommand_of_known hr⟩

end Sys2Proof.Machine
end

section
/-! SUPPORT. The SCH operations one by one (42_scheduler.md R213, R222 to R231): their encodings,
refusals and results. -/

namespace Sys2Proof.Machine

/-! ### Encodings (30_encoding.md R116, R120): the HOST issues them all -/

theorem encodedAs_schLoad (block : Bytes) :
    EncodedAs (.schLoad block) 0x30000000#32 block [.host] :=
  encodedAs_of_encode rfl fun p => beq_port_iff p .host

theorem encodedAs_schStart (lineNum : Imm) :
    EncodedAs (.schStart lineNum) (0x31000000#32 ||| lineNum.setWidth 32) [] [.host] :=
  encodedAs_of_encode (Prod.ext (cmd32_eq_or 0x3#4 0x1#4 lineNum) rfl) fun p => beq_port_iff p .host

theorem encodedAs_schStep (lineNum : Imm) :
    EncodedAs (.schStep lineNum) (0x32000000#32 ||| lineNum.setWidth 32) [] [.host] :=
  encodedAs_of_encode (Prod.ext (cmd32_eq_or 0x3#4 0x2#4 lineNum) rfl) fun p => beq_port_iff p .host

theorem encodedAs_schStop : EncodedAs .schStop 0x33000000#32 [] [.host] :=
  encodedAs_of_encode rfl fun p => beq_port_iff p .host

theorem encodedAs_schStopNext : EncodedAs .schStopNext 0x34000000#32 [] [.host] :=
  encodedAs_of_encode rfl fun p => beq_port_iff p .host

theorem encodedAs_schStatus : EncodedAs .schStatus 0x35000000#32 [] [.host] :=
  encodedAs_of_encode rfl fun p => beq_port_iff p .host

theorem encodedAs_schExecDone (r : Bool) :
    EncodedAs (.schExecDone r) (if r then 0x36000001#32 else 0x36000000#32) [] [.host] := by
  refine encodedAs_of_encode (Prod.ext ?_ rfl) fun p => beq_port_iff p .host
  cases r <;> rfl

section
variable {s : State}

/-! ### `SCH.LOAD` (R213) -/

section
variable {block fname text : Bytes}

theorem exec_schLoad_of_busy (h : s.sch.busy = true) : exec (.schLoad block) s = s.done .busy :=
  if_pos h

/-- A block without a zero byte holds no file name. -/
theorem exec_schLoad_of_no_name (h : s.sch.busy = false) (hblock : loadBlock block = none) :
    exec (.schLoad block) s = s.done .rangeError := by
  show execSchLoad block s = _
  rw [execSchLoad, if_neg (by simp [h]), hblock]

theorem exec_schLoad_of_too_many (h : s.sch.busy = false)
    (hblock : loadBlock block = some (fname, text))
    (hlong : s.cfg.maxLines < (splitLines text).length) :
    exec (.schLoad block) s = s.done .rangeError := by
  show execSchLoad block s = _
  rw [execSchLoad, if_neg (by simp [h]), hblock]
  exact if_pos hlong

theorem exec_schLoad_of_fits (h : s.sch.busy = false)
    (hblock : loadBlock block = some (fname, text))
    (hfit : (splitLines text).length ≤ s.cfg.maxLines) {q : Sch × List Event}
    (hq : finishLoad s.now
      (loadTable s.sch fname ((splitLines text).map (parseLine s.cfg s.env))) = q) :
    exec (.schLoad block) s =
      ((s.withSch q.1).emit q.2).done (.ok (.hadErrors q.1.hadErrors)) := by
  subst hq
  show execSchLoad block s = _
  rw [execSchLoad, if_neg (by simp [h]), hblock]
  exact if_neg (Nat.not_lt.2 hfit)

end

/-- A load ends in the error state or, with the absolute times, in `LOADED`. -/
theorem finishLoad_eq (now : Nat) (x : Sch) :
    finishLoad now x =
      ({ x with
          lines := if x.hadErrors then x.lines else computeAbs x.lines now 0
          schState := if x.hadErrors then .loadedWithErrors else .loaded },
        [.stateChanged (if x.hadErrors then .loadedWithErrors else .loaded)]) := by
  unfold finishLoad
  split <;> rfl

theorem hadErrorsOf_iff {ls : List Line} :
    hadErrorsOf ls = true ↔ ∃ l ∈ ls, l.err ≠ .none := by
  simp [hadErrorsOf]

/-! ### `SCH.START` (R222) and `SCH.STEP` (R223) -/

section
variable {lineNum : Imm}

theorem exec_schStart_of_busy (h : s.sch.busy = true) :
    exec (.schStart lineNum) s = s.done .busy :=
  if_pos h

theorem exec_schStart_of_refused (h : s.sch.busy = false)
    (hno : s.sch.schState ≠ .loaded ∨ firstCmdAtOrAfter s.sch.lines lineNum.toNat = none) :
    exec (.schStart lineNum) s = s.done .failed := by
  show execSchStart lineNum s = _
  rw [execSchStart, if_neg (by simp [h]), operandNat]
  split
  · rfl
  next hs => rw [hno.resolve_left hs]

theorem exec_schStart_of_found {p : Nat} (h : s.sch.busy = false) (hs : s.sch.schState = .loaded)
    (hp : firstCmdAtOrAfter s.sch.lines lineNum.toNat = some p) :
    exec (.schStart lineNum) s =
      ((s.withSch { s.sch with
          pos := p, stopNext := false, finished := false
          lines := computeAbs s.sch.lines s.now p
          schState := .running
          xphase := .head }).emit [.stateChanged .running]).done (.ok .none) := by
  show execSchStart lineNum s = _
  rw [execSchStart, if_neg (by simp [h]), if_neg (not_not.2 hs), operandNat, hp]
  rfl

theorem exec_schStep_of_busy (h : s.sch.busy = true) :
    exec (.schStep lineNum) s = s.done .busy :=
  if_pos h

theorem exec_schStep_of_refused (h : s.sch.busy = false)
    (hno : s.sch.schState ≠ .loaded ∨ firstCmdAtOrAfter s.sch.lines lineNum.toNat = none) :
    exec (.schStep lineNum) s = s.done .failed := by
  show execSchStep lineNum s = _
  rw [execSchStep, if_neg (by simp [h]), operandNat]
  split
  · rfl
  next hs => rw [hno.resolve_left hs]

theorem exec_schStep_of_found {p : Nat} {l : Line} (h : s.sch.busy = false)
    (hs : s.sch.schState = .loaded)
    (hp : firstCmdAtOrAfter s.sch.lines lineNum.toNat = some p) (hl : s.sch.lines[p]? = some l) :
    exec (.schStep lineNum) s =
      ((s.withSch { s.sch with callout := .step, calloutLine := p }).emit
        [execReqOf p l]).done (.ok .none) := by
  show execSchStep lineNum s = _
  rw [execSchStep, if_neg (by simp [h]), if_neg (not_not.2 hs), operandNat, hp]
  exact orFault_of_ok (lineAt_ok.2 hl)

end

/-! ### `SCH.STOP` and `SCH.STOP_NEXT` (R224, R225) -/

theorem exec_schStop_of_not_running (h : s.sch.schState ≠ .running) :
    exec .schStop s = s.done .failed :=
  if_pos h

theorem exec_schStop_of_running (h : s.sch.schState = .running) :
    exec .schStop s =
      ((s.withSch { s.sch with schState := .loaded }).emit [.stateChanged .loaded]).done
        (.ok .none) :=
  if_neg (not_not.2 h)

theorem exec_schStopNext_of_not_running (h : s.sch.schState ≠ .running) :
    exec .schStopNext s = s.done .failed :=
  if_pos h

theorem exec_schStopNext_of_running (h : s.sch.schState = .running) :
    exec .schStopNext s =
      ((s.withSch { s.sch with
          stopNext := true, stopIssuer := s.sch.pos, schState := .loaded }).emit
        [.stateChanged .loaded]).done (.ok .none) :=
  if_neg (not_not.2 h)

/-! ### `SCH.EXEC_DONE` (R227, R228, R231) -/

section
variable {r : Bool}

theorem exec_schExecDone_of_none (h : s.sch.callout = .none) :
    exec (.schExecDone r) s = s.done .seqError := by
  show execSchExecDone r s = _
  rw [execSchExecDone, h]

theorem exec_schExecDone_of_step (h : s.sch.callout = .step) {q : Sch × List Event}
    (hq : stepDone s.sch r = q) :
    exec (.schExecDone r) s = ((s.withSch q.1).emit q.2).done (.ok .none) := by
  show execSchExecDone r s = _
  rw [execSchExecDone, h, ← hq]

theorem exec_schExecDone_of_run (h : s.sch.callout = .run) {q : Sch × List Event}
    (hq : runDone s.sch r = .ok q) :
    exec (.schExecDone r) s = ((s.withSch q.1).emit q.2).done (.ok .none) := by
  show execSchExecDone r s = _
  rw [execSchExecDone, h]
  exact orFault_of_ok hq

theorem stepDone_of_next {x : Sch} {q : Nat} (h : nextCmdAfter x.lines x.calloutLine = some q) :
    stepDone x r =
      ({ x with pos := q, callout := .none },
        execError r x.calloutLine ++ [Event.nextCommand q]) := by
  rw [stepDone, h]

theorem stepDone_of_last {x : Sch} (h : nextCmdAfter x.lines x.calloutLine = none) :
    stepDone x r =
      ({ x with pos := x.calloutLine, callout := .none }, execError r x.calloutLine) := by
  rw [stepDone, h]

end

end

/-! ### Updates of one line and the search -/

/-- Replacing a line's delay is replacing the line. -/
theorem setDelay_eq_set {ls : List Line} {i d : Nat} {l : Line} (h : ls[i]? = some l) :
    setDelay ls i d = ls.set i { l with delay := d } := by
  rw [setDelay, List.modify_eq_set_getElem?, h]
  rfl

@[simp] theorem nextCmdAfter_setDelay (ls : List Line) (i d k : Nat) :
    nextCmdAfter (setDelay ls i d) k = nextCmdAfter ls k :=
  firstCmdAtOrAfter_congr (setDelay_isCmd ls i d) _

/-! ### An exit -/

/-- An exit at a line of the table completes. -/
theorem exists_exitRun_of_line {x : Sch} {l : Line} (hl : x.lines[x.pos]? = some l) :
    ∃ x' es, exitRun x = .ok (x', es) :=
  ⟨_, _, exitRun_ok.2 ⟨l, hl, rfl, rfl⟩⟩

/-- An exit that leaves the position announces no next command. -/
theorem exitRun_of_exitPos_stays {x x' : Sch} {es : List Event} (h : exitRun x = .ok (x', es))
    (hstay : exitPos x = (x.pos, [])) : x'.pos = x.pos ∧ ∀ q, .nextCommand q ∉ es := by
  obtain ⟨l, -, rfl, rfl⟩ := exitRun_ok.1 h
  rw [hstay]
  refine ⟨rfl, fun q => ?_⟩
  split <;> split <;> simp

/-! ### The statements -/

/-- Settles O31: the refusals in order, and `finishLoad` over the parsed lines. -/
theorem schLoadResult : Obligations.SchLoadResult := by
  refine ⟨encodedAs_schLoad, fun s block => ⟨exec_schLoad_of_busy,
    fun hb hblock => exec_schLoad_of_no_name hb (cutAt_of_not_mem hblock), ?_⟩⟩
  rintro fname text ls errs hb rfl hfname rfl herrs
  have hblock := cutAt_append (r := text) hfname
  refine ⟨exec_schLoad_of_too_many hb hblock, fun hfit => ?_⟩
  rw [exec_schLoad_of_fits hb hblock hfit (finishLoad_eq ..),
    Bool.eq_iff_iff.2 (herrs.trans hadErrorsOf_iff.symm)]
  rfl

/-- Settles O38. -/
theorem schStartResult : Obligations.SchStartResult := fun lineNum =>
  ⟨encodedAs_schStart lineNum, fun _ =>
    ⟨exec_schStart_of_busy, exec_schStart_of_refused, fun _ => exec_schStart_of_found⟩⟩

/-- Settles O39: the search answers an index of the table. -/
theorem schStepIssueResult : Obligations.SchStepIssueResult := by
  refine fun lineNum => ⟨encodedAs_schStep lineNum, fun s =>
    ⟨exec_schStep_of_busy, exec_schStep_of_refused, fun p hb hs hp => ?_⟩⟩
  obtain ⟨l, hl⟩ := (cmdAt_of_firstCmdAtOrAfter hp).exists_line
  exact ⟨l, hl, exec_schStep_of_found hb hs hp hl⟩

/-- Settles O40. -/
theorem schStopResults : Obligations.SchStopResults :=
  ⟨encodedAs_schStop, encodedAs_schStopNext, fun _ =>
    ⟨fun h => ⟨exec_schStop_of_not_running h, exec_schStopNext_of_not_running h⟩,
      fun h => ⟨exec_schStop_of_running h, exec_schStopNext_of_running h⟩⟩⟩

/-- Settles O41: the status is answered in every state. -/
theorem schStatusResult : Obligations.SchStatusResult := by
  refine ⟨encodedAs_schStatus, fun s busy hbusy => ?_⟩
  rw [Bool.eq_iff_iff.2 (hbusy.trans Sch.busy_iff.symm)]
  rfl

/-- Settles O42: an answer nobody waits for, and `stepDone` with and without a next command. -/
theorem schExecDoneOfStepResult : Obligations.SchExecDoneOfStepResult := by
  refine fun r => ⟨encodedAs_schExecDone r, fun s => ⟨exec_schExecDone_of_none,
    fun hc q hq => ?next, fun hc hq => ?last⟩⟩
  case next =>
    rw [exec_schExecDone_of_step hc (stepDone_of_next hq), List.append_assoc]
    rfl
  case last =>
    rw [exec_schExecDone_of_step hc (stepDone_of_last hq)]
    rfl

/-- Settles O43: `runDone` with and without a next command; an exit moves the position only behind
the issuer of a `stop_next`, and no command is behind the last one. -/
theorem schExecDoneOfRunResult : Obligations.SchExecDoneOfRunResult := by
  rintro r s c l hc rfl hl
  rw [← setDelay_eq_set hl]
  refine ⟨fun q hq => ?next, fun hq hpos => ?last⟩
  case next =>
    rw [exec_schExecDone_of_run hc (runDone_ok.2 ⟨l, hl, .inl ⟨q, hq, rfl, rfl⟩⟩),
      List.append_assoc]
    rfl
  case last =>
    have hlen : s.sch.pos < (setDelay s.sch.lines s.sch.calloutLine l.origDelay).length := by
      rwa [setDelay_length]
    obtain ⟨x, es, hexit⟩ := exists_exitRun_of_line (x := { s.sch with
      lines := setDelay s.sch.lines s.sch.calloutLine l.origDelay, callout := .none,
      finished := true }) (List.getElem?_eq_getElem hlen)
    refine ⟨x, es, hexit, ?_, fun hat hissuer => ?_⟩
    · rw [exec_schExecDone_of_run hc (runDone_ok.2 ⟨l, hl, .inr ⟨hq, es, hexit, rfl⟩⟩),
        List.append_assoc]
      rfl
    · obtain ⟨hpos', hes⟩ := exitRun_of_exitPos_stays hexit
        (exitPos_stays (hissuer.imp_right fun hi => by simpa [hi] using hq))
      exact ⟨hpos'.trans hat, hes⟩

end Sys2Proof.Machine
end

section
/-! SUPPORT. The EXECUTOR's steps one by one (42_scheduler.md R229 to R232). -/

namespace Sys2Proof.Machine

/-- An exit moves on to the command behind the issuer of a `stop_next`, if it is not there yet. -/
theorem exitPos_of_moved {x : Sch} {q : Nat} (hstop : x.stopNext = true)
    (hq : nextCmdAfter x.lines x.stopIssuer = some q) (hne : q ≠ x.pos) :
    exitPos x = (q, [.nextCommand q]) := by
  rw [exitPos, if_pos hstop, hq]
  exact if_neg hne

theorem exitPos_of_not_moved {x : Sch}
    (h : ∀ q, x.stopNext = true → nextCmdAfter x.lines x.stopIssuer = some q → q = x.pos) :
    exitPos x = (x.pos, []) := by
  obtain hstay | ⟨q, hstop, hq, hne, -⟩ := exitPos_cases x
  · exact hstay
  · exact absurd (h q hstop hq) hne

/-- Settles O46: the position is `exitPos`, everything else stands in `exitRun_ok`. -/
theorem exitRunResult : Obligations.ExitRunResult := by
  intro x l p moved hl hp
  have hexit : exitPos x = (p, moved) := by
    obtain ⟨q, hstop, hq, hne, rfl, rfl⟩ | ⟨hstay, rfl, rfl⟩ := hp
    · exact exitPos_of_moved hstop hq hne
    · exact exitPos_of_not_moved hstay
  rw [← setDelay_eq_set hl]
  exact exitRun_ok.2 ⟨l, hl, by rw [hexit], by rw [hexit]⟩

section
variable {s : State} {rest : List Input}

/-- The EXECUTOR's turn takes the executor step of the phase (R301). -/
theorem step_of_executorStep (hi : s.inputs = .executor :: rest) {q : Sch × List Event}
    (hq : executorStep s.cfg s.now s.sch = .ok q) :
    step s = .next (((s.turn rest).withSch q.1).emit q.2) :=
  (step_executor hi).trans (orFault_of_ok hq)

theorem executorStep_head {cfg : Cfg} {now : Nat} {x : Sch} {q : Sch × List Event}
    (hp : x.xphase = .head) (hq : headStep now x = .ok q) : executorStep cfg now x = .ok q :=
  executorStep_ok.2 (.inr (.inl ⟨hp, hq⟩))

theorem executorStep_sleep {cfg : Cfg} {now : Nat} {x : Sch} {q : Sch × List Event}
    (hp : x.xphase = .sleep) (hw : x.wake ≤ now)
    (hq : wakeStep cfg.stopCheckAfterSleep x = .ok q) : executorStep cfg now x = .ok q :=
  executorStep_ok.2 (.inr (.inr ⟨hp, hw, hq⟩))

end

/-- Settles O44. -/
theorem headStepResult : Obligations.HeadStepResult := by
  refine fun s rest l hi hp hl => ⟨fun hs => ?running, fun hs => ?stopped⟩
  case running =>
    rw [step_of_executorStep hi (executorStep_head hp (headStep_ok.2 (.inr ⟨hs, l, hl, rfl, rfl⟩))),
      State.emit_nil]
    rfl
  case stopped =>
    obtain ⟨x, es, hexit⟩ := exists_exitRun_of_line hl
    exact ⟨x, es, hexit,
      step_of_executorStep hi (executorStep_head hp (headStep_ok.2 (.inl ⟨hs, hexit⟩)))⟩

/-- Settles O45: the exit, the callout and the way back to the loop head. -/
theorem wakeStepResult : Obligations.WakeStepResult := by
  refine fun s rest l hi hp hw hl => ⟨fun hs => ?stopped, fun hs _ => ?counted⟩
  case stopped =>
    obtain ⟨x, es, hexit⟩ := exists_exitRun_of_line hl
    exact ⟨x, es, hexit,
      step_of_executorStep hi (executorStep_sleep hp hw (wakeStep_ok.2 (.inl ⟨hs, hexit⟩)))⟩
  case counted =>
    have hgo : ¬(s.cfg.stopCheckAfterSleep = true ∧ s.sch.schState ≠ .running) := by
      rintro ⟨hcheck, hne⟩
      exact hs.elim (fun h => by simp [h] at hcheck) hne
    rw [← setDelay_eq_set hl, ← setDelay_eq_set hl]
    refine ⟨fun hd => ?last, fun hd => ?more⟩
    case last =>
      exact step_of_executorStep hi (executorStep_sleep hp hw
        (wakeStep_ok.2 (.inr ⟨hgo, l, hl, .inl ⟨hd, rfl, rfl⟩⟩)))
    case more =>
      rw [step_of_executorStep hi (executorStep_sleep hp hw
        (wakeStep_ok.2 (.inr ⟨hgo, l, hl, .inr ⟨hd, rfl, rfl⟩⟩))), State.emit_nil]
      rfl

end Sys2Proof.Machine
end

section
/-! SUPPORT. The transitions of the engine state and of the executor's phase (42_scheduler.md R234):
what each operation and each executor step can do to the two. -/

namespace Sys2Proof.Machine

/-! ### The operations -/

/-- What an operation can do to the engine state and the executor's phase. -/
inductive OpMoves (s t : State) : Instr → Prop
  | stay {i : Instr} (hs : t.sch.schState = s.sch.schState) (hp : t.sch.xphase = s.sch.xphase) :
      OpMoves s t i
  | load {block : Bytes} (hb : s.sch.busy = false) (hp : t.sch.xphase = .idle)
      (hs : t.sch.schState = .loaded ∨ t.sch.schState = .loadedWithErrors) :
      OpMoves s t (.schLoad block)
  | start {k : Imm} (hb : s.sch.busy = false) (hs : s.sch.schState = .loaded)
      (hat : firstCmdAtOrAfter s.sch.lines k.toNat = some t.sch.pos)
      (hs' : t.sch.schState = .running) (hp' : t.sch.xphase = .head) : OpMoves s t (.schStart k)
  | stop {i : Instr} (hi : i = .schStop ∨ i = .schStopNext) (hs : s.sch.schState = .running)
      (hs' : t.sch.schState = .loaded) (hp' : t.sch.xphase = s.sch.xphase) : OpMoves s t i
  | next {r : Bool} (hc : s.sch.callout = .run)
      (hq : nextCmdAfter s.sch.lines s.sch.calloutLine = some t.sch.pos)
      (hs' : t.sch.schState = s.sch.schState) (hp' : t.sch.xphase = .head)
      (hc' : t.sch.callout = .none) : OpMoves s t (.schExecDone r)
  | finish {r : Bool} (hc : s.sch.callout = .run)
      (hq : nextCmdAfter s.sch.lines s.sch.calloutLine = none)
      (hs' : t.sch.schState = if s.sch.schState = .running then .loaded else s.sch.schState)
      (hp' : t.sch.xphase = .idle) (hc' : t.sch.callout = .none) (hexit : exited s t) :
      OpMoves s t (.schExecDone r)

section
variable {s t : State} {i : Instr}

/-- An operation that leaves the two registers of R234. -/
theorem OpMoves.of_done {a : Reply} {x : Sch} {es : List Event}
    (hx : ((s.withSch x).emit es).done a = .next t) (hs : x.schState = s.sch.schState)
    (hp : x.xphase = s.sch.xphase) : OpMoves s t i := by
  obtain rfl := done_next.1 hx
  exact .stay hs hp

/-- An operation that only replies moves nothing. -/
theorem OpMoves.of_refused {a : Reply} (hx : s.done a = .next t) : OpMoves s t i := by
  obtain rfl := done_next.1 hx
  exact .stay rfl rfl

/-- The other units' operations leave SCH. -/
theorem OpMoves.of_other_unit (hu : unitOf (encodeWord i) ≠ 3) (hx : exec i s = .next t) :
    OpMoves s t i := by
  obtain ⟨-, _, _, _, -, rfl⟩ | ⟨-, _, _, -, rfl⟩ | ⟨hu', -⟩ := exec_next hx
  · exact .stay rfl rfl
  · exact .stay rfl rfl
  · exact absurd hu' hu

theorem exec_schLoad_moves {block : Bytes} (hx : exec (.schLoad block) s = .next t) :
    OpMoves s t (.schLoad block) := by
  cases hb : s.sch.busy with
  | true => exact .of_refused ((exec_schLoad_of_busy hb).symm.trans hx)
  | false =>
    cases hblock : loadBlock block with
    | none => exact .of_refused ((exec_schLoad_of_no_name hb hblock).symm.trans hx)
    | some parts =>
      rcases Nat.lt_or_ge s.cfg.maxLines (splitLines parts.2).length with hlong | hfit
      · exact .of_refused ((exec_schLoad_of_too_many hb hblock hlong).symm.trans hx)
      · rw [exec_schLoad_of_fits hb hblock hfit (finishLoad_eq ..)] at hx
        obtain rfl := done_next.1 hx
        refine .load hb rfl ?_
        dsimp only [State.answer_sch, State.emit_sch, State.withSch_sch]
        split
        · exact .inr rfl
        · exact .inl rfl

theorem exec_schStart_moves {k : Imm} (hx : exec (.schStart k) s = .next t) :
    OpMoves s t (.schStart k) := by
  cases hb : s.sch.busy with
  | true => exact .of_refused ((exec_schStart_of_busy hb).symm.trans hx)
  | false =>
    by_cases hs : s.sch.schState = .loaded
    · cases hp : firstCmdAtOrAfter s.sch.lines k.toNat with
      | none => exact .of_refused ((exec_schStart_of_refused hb (.inr hp)).symm.trans hx)
      | some p =>
        obtain rfl := done_next.1 ((exec_schStart_of_found hb hs hp).symm.trans hx)
        exact .start hb hs hp rfl rfl
    · exact .of_refused ((exec_schStart_of_refused hb (.inl hs)).symm.trans hx)

theorem exec_schStep_moves {k : Imm} (hx : exec (.schStep k) s = .next t) :
    OpMoves s t (.schStep k) := by
  cases hb : s.sch.busy with
  | true => exact .of_refused ((exec_schStep_of_busy hb).symm.trans hx)
  | false =>
    by_cases hs : s.sch.schState = .loaded
    · cases hp : firstCmdAtOrAfter s.sch.lines k.toNat with
      | none => exact .of_refused ((exec_schStep_of_refused hb (.inr hp)).symm.trans hx)
      | some p =>
        obtain ⟨l, hl⟩ := (cmdAt_of_firstCmdAtOrAfter hp).exists_line
        exact .of_done ((exec_schStep_of_found hb hs hp hl).symm.trans hx) rfl rfl
    · exact .of_refused ((exec_schStep_of_refused hb (.inl hs)).symm.trans hx)

theorem exec_schStop_moves (hx : exec .schStop s = .next t) : OpMoves s t .schStop := by
  by_cases hs : s.sch.schState = .running
  · obtain rfl := done_next.1 ((exec_schStop_of_running hs).symm.trans hx)
    exact .stop (.inl rfl) hs rfl rfl
  · exact .of_refused ((exec_schStop_of_not_running hs).symm.trans hx)

theorem exec_schStopNext_moves (hx : exec .schStopNext s = .next t) :
    OpMoves s t .schStopNext := by
  by_cases hs : s.sch.schState = .running
  · obtain rfl := done_next.1 ((exec_schStopNext_of_running hs).symm.trans hx)
    exact .stop (.inr rfl) hs rfl rfl
  · exact .of_refused ((exec_schStopNext_of_not_running hs).symm.trans hx)

theorem stepDone_stays (x : Sch) (r : Bool) :
    (stepDone x r).1.schState = x.schState ∧ (stepDone x r).1.xphase = x.xphase := by
  cases hq : nextCmdAfter x.lines x.calloutLine with
  | none => rw [stepDone_of_last hq]; exact ⟨rfl, rfl⟩
  | some q => rw [stepDone_of_next hq]; exact ⟨rfl, rfl⟩

/-- The completion of a run's callout, which the invariant keeps from a fault. -/
theorem exec_schExecDone_moves (h : Inv s) {r : Bool} (hx : exec (.schExecDone r) s = .next t) :
    OpMoves s t (.schExecDone r) := by
  cases hc : s.sch.callout with
  | none => exact .of_refused ((exec_schExecDone_of_none hc).symm.trans hx)
  | step =>
    obtain ⟨hs, hp⟩ := stepDone_stays s.sch r
    exact .of_done ((exec_schExecDone_of_step hc rfl).symm.trans hx) hs hp
  | run =>
    obtain ⟨⟨x, es⟩, hdone⟩ := h.sch.exists_runDone hc r
    obtain rfl := done_next.1 ((exec_schExecDone_of_run hc hdone).symm.trans hx)
    obtain ⟨l, -, ⟨q, hq, rfl, rfl⟩ | ⟨hq, es', hexit, rfl⟩⟩ := runDone_ok.1 hdone
    · exact .next hc hq rfl rfl rfl
    · have hstopped := exitRun_stopped hexit
      obtain ⟨m, -, rfl, -⟩ := exitRun_ok.1 hexit
      exact .finish hc hq rfl rfl rfl ⟨_, rfl, List.mem_append_right _ hstopped⟩

/-- Every operation's moves. -/
theorem exec_moves (h : Inv s) (hx : exec i s = .next t) : OpMoves s t i := by
  cases i with
  | schLoad block => exact exec_schLoad_moves hx
  | schStart k => exact exec_schStart_moves hx
  | schStep k => exact exec_schStep_moves hx
  | schStop => exact exec_schStop_moves hx
  | schStopNext => exact exec_schStopNext_moves hx
  | schStatus => exact .of_refused hx
  | schExecDone r => exact exec_schExecDone_moves h hx
  | _ => exact .of_other_unit (by simp [encodeWord, unitOf_cmd32]) hx

end

/-! ### The executor's steps -/

/-- What an executor step can do to the engine state and the executor's phase. -/
inductive TurnMoves (cfg : Cfg) (now : Nat) (x : Sch) (es : List Event) (y : Sch) : Prop
  | stay (hp : y.xphase = x.xphase)
  | sleep (hp : x.xphase = .head) (hp' : y.xphase = .sleep) (hs : x.schState = .running)
  | exitAtHead (hp : x.xphase = .head) (hp' : y.xphase = .idle) (hs : x.schState ≠ .running)
      (hexit : .stopped x.filename ∈ es)
  | wake (hp : x.xphase = .sleep) (hp' : y.xphase = .head ∨ y.xphase = .execWait)
      (hw : x.wake ≤ now)
  | exitAtWake (hp : x.xphase = .sleep) (hp' : y.xphase = .idle) (hw : x.wake ≤ now)
      (hcheck : cfg.stopCheckAfterSleep = true) (hs : x.schState ≠ .running)
      (hexit : .stopped x.filename ∈ es)

section
variable {cfg : Cfg} {now : Nat} {x y : Sch} {es : List Event}

/-- An exit that finds the run stopped leaves the engine state. -/
theorem exitRun_of_not_running (hs : x.schState ≠ .running) (hq : exitRun x = .ok (y, es)) :
    y.schState = x.schState ∧ y.xphase = .idle := by
  obtain ⟨l, -, rfl, -⟩ := exitRun_ok.1 hq
  exact ⟨if_neg hs, rfl⟩

/-- No executor step changes the engine state; each moves the phase along an edge of R234. -/
theorem executorStep_moves (hq : executorStep cfg now x = .ok (y, es)) :
    y.schState = x.schState ∧ TurnMoves cfg now x es y := by
  obtain ⟨-, rfl, rfl⟩ | ⟨hp, hq⟩ | ⟨hp, hw, hq⟩ := executorStep_ok.1 hq
  · exact ⟨rfl, .stay rfl⟩
  · obtain ⟨hs, hexit⟩ | ⟨hs, l, -, rfl, -⟩ := headStep_ok.1 hq
    · obtain ⟨hs', hp'⟩ := exitRun_of_not_running hs hexit
      exact ⟨hs', .exitAtHead hp hp' hs (exitRun_stopped hexit)⟩
    · exact ⟨rfl, .sleep hp rfl hs⟩
  · obtain ⟨⟨hcheck, hs⟩, hexit⟩ | ⟨-, l, -, ⟨-, rfl, -⟩ | ⟨-, rfl, -⟩⟩ := wakeStep_ok.1 hq
    · obtain ⟨hs', hp'⟩ := exitRun_of_not_running hs hexit
      exact ⟨hs', .exitAtWake hp hp' hw hcheck hs (exitRun_stopped hexit)⟩
    · exact ⟨rfl, .wake hp (.inr rfl) hw⟩
    · exact ⟨rfl, .wake hp (.inl rfl) hw⟩

end

/-! ### One step -/

/-- The EXECUTOR has its turn also where nothing is scheduled. -/
theorem executorActs_of_inputs {s : State} {rest : List Input}
    (h : s.inputs = .executor :: rest ∨ s.inputs = [] ∧ rest = []) : executorActs s :=
  h.elim (fun h => .inr ⟨rest, h⟩) fun h => .inl h.1

/-- Settles O47: an operation moves what `OpMoves` says, the EXECUTOR what `TurnMoves` says, and no
other step touches SCH. -/
theorem schedulerTransitions : Obligations.SchedulerTransitions := by
  intro s t h hstep
  obtain ⟨p, w, data, rest, i, hi, -, hdec, hadm, hx⟩ | ⟨p, w, data, rest, -, -, -, rfl⟩ |
    ⟨rest, x, es, hi, hx, rfl⟩ | ⟨rest, ms, -, rfl⟩ | ⟨-, -, rfl⟩ := step_next hstep
  · have htakes : takes s i := ⟨p, w, data, rest, hi, by simp [decodeAt, hdec, hadm]⟩
    have hmoves := exec_moves (h.received p rest) hx
    cases hmoves with
    | stay hs hp => exact ⟨.inl hs, .inl hp⟩
    | load hb hp hs =>
      obtain ⟨hidle, -⟩ := Sch.busy_eq_false.1 hb
      exact ⟨.inr ⟨_, htakes, .inl ⟨⟨_, rfl⟩, hb, hs⟩⟩, .inl (hp.trans hidle.symm)⟩
    | start hb hs hat hs' hp' =>
      obtain ⟨hidle, -⟩ := Sch.busy_eq_false.1 hb
      exact ⟨.inr ⟨_, htakes, .inr (.inl ⟨⟨_, rfl, hat⟩, hb, hs, hs'⟩)⟩,
        .inr (.inl ⟨⟨_, htakes⟩, hidle, hp', hs'⟩)⟩
    | stop hi hs hs' hp' => exact ⟨.inr ⟨_, htakes, .inr (.inr (.inl ⟨hi, hs, hs'⟩))⟩, .inl hp'⟩
    | next hc hq hs' hp' hc' =>
      have hwait := h.sch.callout.1 hc
      exact ⟨.inl hs', .inr (.inr (.inr (.inr (.inr (.inr
        ⟨⟨_, htakes⟩, hwait, hc, hc', .inl ⟨_, hq, rfl, hp'⟩⟩)))))⟩
    | finish hc hq hs' hp' hc' hexit =>
      have hwait := h.sch.callout.1 hc
      refine ⟨?_, .inr (.inr (.inr (.inr (.inr (.inr
        ⟨⟨_, htakes⟩, hwait, hc, hc', .inr ⟨hq, hp', hexit⟩⟩)))))⟩
      by_cases hs : s.sch.schState = .running
      · exact .inr ⟨_, htakes, .inr (.inr (.inr
          ⟨⟨_, rfl⟩, hc, hq, hs, hs'.trans (if_pos hs), hp'⟩))⟩
      · exact .inl (hs'.trans (if_neg hs))
  · exact ⟨.inl rfl, .inl rfl⟩
  · have hacts := executorActs_of_inputs hi
    obtain ⟨hs', hmoves⟩ := executorStep_moves hx
    refine ⟨.inl hs', ?_⟩
    cases hmoves with
    | stay hp => exact .inl hp
    | sleep hp hp' hs => exact .inr (.inr (.inl ⟨hacts, hp, hp', hs⟩))
    | exitAtHead hp hp' hs hexit =>
      exact .inr (.inr (.inr (.inl ⟨hacts, hp, hp', hs, es, rfl, hexit⟩)))
    | wake hp hp' hw => exact .inr (.inr (.inr (.inr (.inl ⟨hacts, hp, hp', hw⟩))))
    | exitAtWake hp hp' hw hcheck hs hexit =>
      exact .inr (.inr (.inr (.inr (.inr (.inl
        ⟨hacts, hp, hp', hw, hcheck, hs, es, rfl, hexit⟩)))))
  · exact ⟨.inl rfl, .inl rfl⟩
  · exact ⟨.inl rfl, .inl rfl⟩

end Sys2Proof.Machine
end

section
/-! SUPPORT. A countdown under the prompt schedule (42_scheduler.md R229, R230, R233, R238): what a
slice makes of the state, and a countdown as its slices one after the other. -/

namespace Sys2Proof.Machine

/-! ### Updates of one line, again and back -/

@[simp] theorem setDelay_setDelay (ls : List Line) (i d e : Nat) :
    setDelay (setDelay ls i d) i e = setDelay ls i e := by
  simp [setDelay, List.modify_modify_eq, Function.comp_def]

/-- A line's own delay put back leaves the table. -/
theorem setDelay_self {ls : List Line} {i : Nat} {l : Line} (h : ls[i]? = some l) :
    setDelay ls i l.delay = ls := by
  obtain ⟨hi, rfl⟩ := List.getElem?_eq_some_iff.1 h
  rw [setDelay_eq_set h]
  exact List.set_getElem_self hi

theorem setDelay_getElem?_self {ls : List Line} {i : Nat} {l : Line} (h : ls[i]? = some l)
    (d : Nat) : (setDelay ls i d)[i]? = some { l with delay := d } := by
  simp [setDelay_getElem?, h]

/-! ### One slice -/

/-- The state at the end of a slice of `n` ms that began at the loop head of `s`. -/
def slept (s : State) (n : Nat) (ins : List Input) : State :=
  { s with
    inputs := ins, issuer := none, reply := none
    now := s.now + n
    sch := { s.sch with slice := n, wake := s.now + n, xphase := .sleep } }

/-- The state at the next loop head, the slice counted off the line at the position. -/
def sliceCounted (s : State) (l : Line) (n : Nat) (ins : List Input) : State :=
  { s with
    inputs := ins, issuer := none, reply := none
    now := s.now + n
    sch := { s.sch with
      lines := setDelay s.sch.lines s.sch.pos (l.delay - n)
      slice := n, wake := s.now + n, xphase := .head } }

/-- The state at the callout that ends the countdown of `s`, with the last slice. -/
def calledOut (s : State) (l : Line) (n : Nat) (ins : List Input) : State :=
  { s with
    inputs := ins, issuer := none, reply := none
    now := s.now + l.delay
    evq := s.evq ++ [.execReq s.sch.pos l.cmdId l.params]
    sch := { s.sch with
      lines := setDelay s.sch.lines s.sch.pos 0
      slice := n
      wake := s.now + l.delay
      callout := .run
      calloutLine := s.sch.pos
      xphase := .execWait } }

/-- A countdown that goes on after a slice ends where the whole countdown does. -/
theorem calledOut_sliceCounted {s : State} {l : Line} {n m : Nat} {ins ins' : List Input}
    (h : n ≤ l.delay) :
    calledOut (sliceCounted s l n ins) { l with delay := l.delay - n } m ins' =
      calledOut s l m ins' := by
  have htime : s.now + n + (l.delay - n) = s.now + l.delay := by omega
  simp only [calledOut, sliceCounted, setDelay_setDelay, htime]

section
variable {s : State} {l : Line} {rest : List Input} {n : Nat}

/-- A slice that takes time is slept through. -/
theorem run_slept (hp : s.sch.xphase = .head) (hs : s.sch.schState = .running)
    (hl : s.sch.lines[s.sch.pos]? = some l) (hn : min l.delay 1000 = n)
    (hi : s.inputs = .executor :: .time n :: rest) : core.run 2 s = .next (slept s n rest) := by
  have hhead := (headStepResult s _ l hi hp hl).1 hs
  rw [hn] at hhead
  rw [core_run_succ hhead]
  exact core_run_succ (step_time rfl)

/-- A command without delay left is due at once. -/
theorem run_slept_zero (hp : s.sch.xphase = .head) (hs : s.sch.schState = .running)
    (hl : s.sch.lines[s.sch.pos]? = some l) (hd : l.delay = 0) (hi : s.inputs = .executor :: rest) :
    core.run 1 s = .next (slept s 0 rest) := by
  have hhead := (headStepResult s _ l hi hp hl).1 hs
  rw [hd, Nat.zero_min] at hhead
  exact core_run_succ hhead

theorem step_slept_more (hs : s.sch.schState = .running) (hl : s.sch.lines[s.sch.pos]? = some l)
    (hn : n < l.delay) :
    step (slept s n (.executor :: rest)) = .next (sliceCounted s l n rest) := by
  rw [sliceCounted, setDelay_eq_set hl]
  exact ((wakeStepResult (slept s n (.executor :: rest)) rest l rfl rfl le_rfl hl).2 (.inr hs)
    hn.le).2 (Nat.sub_ne_zero_of_lt hn)

theorem step_slept_last (hs : s.sch.schState = .running) (hl : s.sch.lines[s.sch.pos]? = some l)
    (hn : n = l.delay) :
    step (slept s n (.executor :: rest)) = .next (calledOut s l n rest) := by
  subst hn
  rw [calledOut, setDelay_eq_set hl]
  exact ((wakeStepResult (slept s l.delay (.executor :: rest)) rest l rfl rfl le_rfl hl).2
    (.inr hs) le_rfl).1 (Nat.sub_self _)

/-! ### The countdown -/

theorem countdownInputs_length_succ (n d : Nat) :
    (countdownInputs (n + 1) d).length = 3 + (countdownInputs n (d - 1000)).length := by
  rw [countdownInputs]
  simp only [List.length_cons]
  omega

/-- A full slice that is not the last. -/
theorem run_fullSlice (hp : s.sch.xphase = .head) (hs : s.sch.schState = .running)
    (hl : s.sch.lines[s.sch.pos]? = some l) (hd : 1000 < l.delay)
    (hi : s.inputs = .executor :: .time 1000 :: .executor :: rest) :
    core.run 3 s = .next (sliceCounted s l 1000 rest) := by
  rw [core_run_add (a := 2) (b := 1) (run_slept hp hs hl (min_eq_right hd.le) hi)]
  exact core_run_succ (step_slept_more hs hl hd)

/-- The last slice, of any length up to a full one. -/
theorem run_lastSlice (hp : s.sch.xphase = .head) (hs : s.sch.schState = .running)
    (hl : s.sch.lines[s.sch.pos]? = some l) (hd : l.delay ≤ 1000)
    (hi : s.inputs = countdownInputs 0 l.delay ++ rest) :
    core.run (countdownInputs 0 l.delay).length s = .next (calledOut s l l.delay rest) := by
  cases hlast : l.delay with
  | zero =>
    rw [hlast] at hi
    rw [show (countdownInputs 0 0).length = 1 + 1 from rfl,
      core_run_add (run_slept_zero hp hs hl hlast hi)]
    exact core_run_succ (step_slept_last hs hl hlast.symm)
  | succ d =>
    rw [hlast] at hi
    have hslice : min l.delay 1000 = d + 1 := by omega
    rw [show (countdownInputs 0 (d + 1)).length = 2 + 1 from rfl,
      core_run_add (run_slept hp hs hl hslice hi)]
    exact core_run_succ (step_slept_last hs hl hlast.symm)

end

/-- A countdown is its full slices, one by one, and its last one. -/
theorem run_countdown {n : Nat} {s : State} {l : Line} {rest : List Input}
    (hp : s.sch.xphase = .head) (hs : s.sch.schState = .running)
    (hl : s.sch.lines[s.sch.pos]? = some l) (hn : n = (l.delay - 1) / 1000)
    (hi : s.inputs = countdownInputs n l.delay ++ rest) :
    core.run (countdownInputs n l.delay).length s =
      .next (calledOut s l (l.delay - n * 1000) rest) := by
  induction n generalizing s l with
  | zero =>
    rw [Nat.zero_mul, Nat.sub_zero]
    exact run_lastSlice hp hs hl (by omega) hi
  | succ n ih =>
    have hd : 1000 < l.delay := by omega
    have hn' : n = (l.delay - 1000 - 1) / 1000 := by omega
    have hlast : l.delay - (n + 1) * 1000 = l.delay - 1000 - n * 1000 := by omega
    rw [countdownInputs_length_succ, hlast, core_run_add (run_fullSlice hp hs hl hd hi),
      ← calledOut_sliceCounted (ins := countdownInputs n (l.delay - 1000) ++ rest) hd.le]
    exact ih (l := { l with delay := l.delay - 1000 }) rfl hs (setDelay_getElem?_self hl _) hn' rfl

/-- Settles O48, by induction on the full slices. -/
theorem countdownTakesItsDelay : Obligations.CountdownTakesItsDelay := by
  intro s l rest n hp hs hl hn hi
  rw [← setDelay_eq_set hl]
  exact run_countdown hp hs hl hn hi

end Sys2Proof.Machine
end

section
/-! SUPPORT. A run under the prompt schedule (42_scheduler.md R236): what a loop head of the run is,
that each command leads to the next loop head, and the last one to the exit. -/

namespace Sys2Proof.Machine

/-! ### Answers of the HOST -/

/-- An operation that the HOST issues without data runs. -/
theorem step_of_encodedAs {s : State} {i : Instr} {w : CmdWord} {rest : List Input}
    (h : EncodedAs i w [] [.host]) (hi : s.inputs = .op .host w [] :: rest) :
    step s = exec i (s.received .host rest) := by
  obtain ⟨hdecode, hports⟩ := h
  have hdec : decode w [] = .ok i := (hdecode w []).2 ⟨rfl, rfl⟩
  have hwf : i.wf = true := by
    rw [Instr.wf, decode_dataBlock hdec]
    decide
  rw [step_op hi, transact_eq_exec hdec hwf ((hports .host).2 (List.mem_singleton_self _))]

/-- SCH at the loop head of the command `q`, the line `l` before it restored. -/
def nextHead (x : Sch) (l : Line) (q : Nat) : Sch :=
  { x with
    lines := setDelay x.lines x.pos l.origDelay, callout := .none, pos := q, xphase := .head }

/-- SCH after an exit that leaves the position, the line `l` there restored. -/
def exitedAt (x : Sch) (l : Line) : Sch :=
  { x with
    schState := if x.schState = .running then .loaded else x.schState
    lines := setDelay x.lines x.pos l.origDelay
    stopNext := false
    finished := false
    xphase := .idle
    callout := .none
    slice := 0 }

/-- The record of the natural end of a run (R232). -/
def endRecord (x : Sch) : List Event :=
  if x.schState = .running then [.stateChanged .loaded] else []

section
variable {x : Sch} {r : Bool} {l : Line}

/-- The completion of a command that is not the last goes on to the next one. -/
theorem runDone_of_next {q : Nat} (hl : x.lines[x.pos]? = some l) (hat : x.calloutLine = x.pos)
    (hq : nextCmdAfter x.lines x.pos = some q) :
    runDone x r = .ok (nextHead x l q, execError r x.pos ++ [Event.nextCommand q]) := by
  rw [runDone_ok, hat]
  refine ⟨l, hl, .inl ⟨q, hq, ?_, rfl⟩⟩
  rw [nextHead, hat]

/-- An exit that leaves the position. -/
theorem exitRun_of_stays (hl : x.lines[x.pos]? = some l) (hstay : exitPos x = (x.pos, [])) :
    exitRun x = .ok (exitedAt x l, endRecord x ++ [Event.stopped x.filename] ++
      if x.finished then [Event.finished x.filename] else []) :=
  exitRun_ok.2 ⟨l, hl, by rw [hstay]; rfl, by rw [hstay, List.append_nil]; rfl⟩

/-- The completion of the last command ends the run, and the position stays on it. -/
theorem runDone_of_last (hl : x.lines[x.pos]? = some l) (hat : x.calloutLine = x.pos)
    (hq : nextCmdAfter x.lines x.pos = none) (hstop : x.stopNext = false ∨ x.stopIssuer = x.pos) :
    runDone x r = .ok (exitedAt x l,
      execError r x.pos ++
        (endRecord x ++ [Event.stopped x.filename, Event.finished x.filename])) := by
  have hexit := exitRun_of_stays (x := { x with
      lines := setDelay x.lines x.pos l.origDelay, callout := .none, finished := true })
    (setDelay_getElem?_self hl _)
    (exitPos_stays (hstop.imp_right fun (hi : x.stopIssuer = x.pos) =>
      (nextCmdAfter_setDelay ..).trans (hi.symm ▸ hq)))
  rw [exitedAt, setDelay_setDelay, List.append_assoc] at hexit
  rw [runDone_ok, hat, exitedAt]
  exact ⟨l, hl, .inr ⟨hq, _, hat ▸ hexit, rfl⟩⟩

end

/-- The HOST's answer to a run's callout. -/
theorem step_answer {s : State} {r : Bool} {rest : List Input} {q : Sch × List Event}
    (hi : s.inputs = .op .host (if r then 0x36000001#32 else 0x36000000#32) [] :: rest)
    (hc : s.sch.callout = .run) (hq : runDone s.sch r = .ok q) :
    step s = .next ((((s.received .host rest).withSch q.1).emit q.2).answer (.ok .none)) := by
  rw [step_of_encodedAs (encodedAs_schExecDone r) hi]
  exact exec_schExecDone_of_run (s := s.received .host rest) hc hq

/-! ### What the schedule and the records of a run read of the table -/

section
variable (ls : List Line) (t k : Nat)

@[simp] theorem delayAt_computeAbs (c : Nat) : delayAt (computeAbs ls t k) c = delayAt ls c := by
  obtain ⟨a, ha⟩ := computeAbs_getElem? ls t k c
  rw [delayAt, ha, Option.map_map]
  rfl

@[simp] theorem execReqAt_computeAbs (c : Nat) :
    execReqAt (computeAbs ls t k) c = execReqAt ls c := by
  obtain ⟨a, ha⟩ := computeAbs_getElem? ls t k c
  rw [execReqAt, ha, Option.map_map]
  rfl

@[simp] theorem nextCmdAfter_computeAbs (c : Nat) :
    nextCmdAfter (computeAbs ls t k) c = nextCmdAfter ls c :=
  firstCmdAtOrAfter_congr (computeAbs_isCmd ls t k) _

theorem runSchedule_computeAbs (cs : List Nat) :
    runSchedule (computeAbs ls t k) cs = runSchedule ls cs := by
  induction cs with
  | nil => rfl
  | cons c cs ih => simp only [runSchedule, delayAt_computeAbs, ih]

theorem runEvents_computeAbs (fname : Bytes) (cs : List Nat) :
    runEvents (computeAbs ls t k) fname cs = runEvents ls fname cs := by
  induction cs with
  | nil => rfl
  | cons c cs ih =>
    cases cs with
    | nil => simp only [runEvents, execReqAt_computeAbs]
    | cons d cs => simp only [runEvents, execReqAt_computeAbs, ih]

theorem commandsToEnd_computeAbs (cs : List Nat) :
    commandsToEnd (computeAbs ls t k) cs ↔ commandsToEnd ls cs := by
  induction cs with
  | nil => rfl
  | cons c cs ih =>
    cases cs with
    | nil => simp only [commandsToEnd, nextCmdAfter_computeAbs]
    | cons d cs => simp only [commandsToEnd, nextCmdAfter_computeAbs, ih]

end

section
variable {ls : List Line} {c : Nat} {l : Line}

theorem delayAt_of_line (h : ls[c]? = some l) : delayAt ls c = l.origDelay := by
  simp [delayAt, h]

theorem execReqAt_of_line (h : ls[c]? = some l) :
    execReqAt ls c = [.execReq c l.cmdId l.params] := by
  simp [execReqAt, execReqOf, h]

end

/-! ### The loop head of a run -/

/-- A run of the table `ls` at the loop head of the first of the commands `cs` that are left to it,
under the prompt schedule. -/
structure AtLoopHead (ls : List Line) (fname : Bytes) (cs : List Nat) (rest : List Input)
    (s : State) : Prop where
  phase : s.sch.xphase = .head
  state : s.sch.schState = .running
  table : s.sch.lines = ls
  name : s.sch.filename = fname
  unstopped : s.sch.stopNext = false
  pos : cs.head? = some s.sch.pos
  command : s.sch.cmdAt s.sch.pos
  whole : s.sch.delaysWhole none
  commands : commandsToEnd ls cs
  schedule : s.inputs = runSchedule ls cs ++ rest

section
variable {ls : List Line} {fname : Bytes} {c d : Nat} {cs : List Nat} {rest : List Input}
  {s : State}

/-- The countdown of a run's command ends in its callout. -/
theorem AtLoopHead.callout (h : AtLoopHead ls fname (c :: cs) rest s) :
    ∃ l n, ls[c]? = some l ∧ l.delay = l.origDelay ∧ s.sch.pos = c ∧
      core.run (countdownInputs ((delayAt ls c - 1) / 1000) (delayAt ls c)).length s =
        .next (calledOut s l n (.op .host 0x36000001#32 [] :: (runSchedule ls cs ++ rest))) := by
  obtain rfl := h.table
  obtain rfl : c = s.sch.pos := by simpa using h.pos
  obtain ⟨l, hl⟩ := h.command.exists_line
  have hwhole : l.delay = l.origDelay := h.whole _ l hl nofun
  have hi := h.schedule
  rw [runSchedule, List.append_assoc, List.cons_append] at hi
  have hdelay : delayAt s.sch.lines s.sch.pos = l.delay := (delayAt_of_line hl).trans hwhole.symm
  rw [hdelay] at hi ⊢
  exact ⟨l, _, hl, hwhole, rfl, run_countdown h.phase h.state hl rfl hi⟩

end

/-! ### From a loop head to the next, or to the exit -/

/-- The state at the loop head of the command `d`, after the callout of the command before it. -/
def broughtOn (s : State) (l : Line) (n d : Nat) (ins : List Input) : State :=
  { s with
    inputs := ins, issuer := some .host, reply := some (.ok .none)
    now := s.now + l.delay
    evq := s.evq ++ ([.execReq s.sch.pos l.cmdId l.params] ++ [.nextCommand d])
    sch := { s.sch with
      pos := d, slice := n, wake := s.now + l.delay, callout := .none
      calloutLine := s.sch.pos, xphase := .head } }

/-- The state after the callout of a run's last command. -/
def runEnded (s : State) (l : Line) (ins : List Input) : State :=
  { s with
    inputs := ins, issuer := some .host, reply := some (.ok .none)
    now := s.now + l.delay
    evq := s.evq ++ ([.execReq s.sch.pos l.cmdId l.params] ++
      [.stateChanged .loaded, .stopped s.sch.filename, .finished s.sch.filename])
    sch := { s.sch with
      schState := .loaded, slice := 0, wake := s.now + l.delay, callout := .none
      calloutLine := s.sch.pos, xphase := .idle, stopNext := false, finished := false } }

section
variable {s : State} {l : Line} {n d : Nat} {rest : List Input}

/-- The answer to a callout restores the table: the delay was whole when its countdown began. -/
theorem step_calledOut_next (hl : s.sch.lines[s.sch.pos]? = some l) (hw : l.delay = l.origDelay)
    (hnext : nextCmdAfter s.sch.lines s.sch.pos = some d) :
    step (calledOut s l n (.op .host 0x36000001#32 [] :: rest)) =
      .next (broughtOn s l n d rest) := by
  rw [step_answer (s := calledOut s l n (.op .host 0x36000001#32 [] :: rest)) (r := true) rfl rfl
    (runDone_of_next (setDelay_getElem?_self hl 0) rfl ((nextCmdAfter_setDelay ..).trans hnext))]
  simp only [nextHead, calledOut, setDelay_setDelay, ← hw, setDelay_self hl, broughtOn,
    ← List.append_assoc]
  rfl

/-- The last command's answer ends the run. -/
theorem step_calledOut_last (hl : s.sch.lines[s.sch.pos]? = some l) (hw : l.delay = l.origDelay)
    (hs : s.sch.schState = .running) (hstop : s.sch.stopNext = false)
    (hnext : nextCmdAfter s.sch.lines s.sch.pos = none) :
    step (calledOut s l n (.op .host 0x36000001#32 [] :: rest)) = .next (runEnded s l rest) := by
  rw [step_answer (s := calledOut s l n (.op .host 0x36000001#32 [] :: rest)) (r := true) rfl rfl
    (runDone_of_last (setDelay_getElem?_self hl 0) rfl ((nextCmdAfter_setDelay ..).trans hnext)
      (.inl hstop))]
  simp only [exitedAt, endRecord, calledOut, setDelay_setDelay, ← hw, setDelay_self hl, runEnded,
    ← List.append_assoc, hs, if_true]
  rfl

end

section
variable {ls : List Line} {fname : Bytes} {c d : Nat} {cs : List Nat} {rest : List Input}
  {s : State}

/-- A command that is not the last leads to the next loop head. -/
theorem AtLoopHead.next (h : AtLoopHead ls fname (c :: d :: cs) rest s) :
    ∃ t, core.run ((countdownInputs ((delayAt ls c - 1) / 1000) (delayAt ls c)).length + 1) s =
        .next t ∧
      AtLoopHead ls fname (d :: cs) rest t ∧ t.now = s.now + delayAt ls c ∧
      t.evq = s.evq ++ (execReqAt ls c ++ [Event.nextCommand d]) := by
  obtain ⟨l, n, hl, hwhole, rfl, hrun⟩ := h.callout
  obtain rfl := h.table
  obtain ⟨hnext, hcommands⟩ := h.commands
  refine ⟨_, (core_run_add hrun).trans (core_run_succ (step_calledOut_next hl hwhole hnext)),
    ?_, ?_, ?_⟩
  · exact { h with
      phase := rfl
      table := rfl
      pos := rfl
      command := cmdAt_of_nextCmdAfter hnext
      commands := hcommands
      schedule := rfl }
  · rw [delayAt_of_line hl, ← hwhole]
    rfl
  · rw [execReqAt_of_line hl]
    rfl

/-- The last command leads to the end of the run. -/
theorem AtLoopHead.last (h : AtLoopHead ls fname [c] rest s) :
    ∃ t, core.run (runSchedule ls [c]).length s = .next t ∧ t.inputs = rest ∧
      t.now = s.now + delayAt ls c ∧ t.evq = s.evq ++ runEvents ls fname [c] ∧
      t.sch.schState = .loaded ∧ t.sch.xphase = .idle ∧ t.sch.pos = c := by
  obtain ⟨l, n, hl, hwhole, rfl, hrun⟩ := h.callout
  obtain rfl := h.table
  obtain rfl := h.name
  have hnext : nextCmdAfter s.sch.lines s.sch.pos = none := h.commands
  have hstep := step_calledOut_last (n := n) (rest := rest) hl hwhole h.state h.unstopped hnext
  refine ⟨runEnded s l rest, ?_, rfl, ?_, ?_, rfl, rfl, rfl⟩
  · rw [runSchedule, List.length_append]
    exact (core_run_add hrun).trans (core_run_succ hstep)
  · rw [delayAt_of_line hl, ← hwhole]
    rfl
  · rw [runEvents, execReqAt_of_line hl]
    rfl

/-- The rest of a run, from any of its loop heads. -/
theorem AtLoopHead.run (h : AtLoopHead ls fname cs rest s) :
    ∃ t, core.run (runSchedule ls cs).length s = .next t ∧ t.inputs = rest ∧
      t.now = s.now + (cs.map (delayAt ls)).sum ∧ t.evq = s.evq ++ runEvents ls fname cs ∧
      t.sch.schState = .loaded ∧ t.sch.xphase = .idle ∧ cs.getLast? = some t.sch.pos := by
  induction cs generalizing s with
  | nil => exact h.commands.elim
  | cons c cs ih =>
    cases cs with
    | nil =>
      obtain ⟨t, hrun, hi, hnow, hevq, hs, hp, rfl⟩ := h.last
      exact ⟨t, hrun, hi, by simpa using hnow, hevq, hs, hp, rfl⟩
    | cons d cs =>
      obtain ⟨u, hrun, hu, hnow, hevq⟩ := h.next
      obtain ⟨t, hrun', hi, hnow', hevq', hs, hp, hpos⟩ := ih hu
      have hlen : (runSchedule ls (c :: d :: cs)).length =
          (countdownInputs ((delayAt ls c - 1) / 1000) (delayAt ls c)).length + 1 +
            (runSchedule ls (d :: cs)).length := by
        rw [runSchedule, List.length_append, List.length_cons]
        omega
      refine ⟨t, ?_, hi, ?_, ?_, hs, hp, ?_⟩
      · rw [hlen]
        exact (core_run_add hrun).trans hrun'
      · simp only [hnow', hnow, List.map_cons, List.sum_cons, Nat.add_assoc]
      · rw [hevq', hevq, runEvents]
        simp
      · rw [List.getLast?_cons_cons, hpos]

/-- Every command of a run that is left has its callout after the delays up to it. -/
theorem AtLoopHead.exists_callout {before after : List Nat}
    (h : AtLoopHead ls fname (before ++ c :: after) rest s) :
    ∃ k t, core.run k s = .next t ∧
      t.now = s.now + (before.map (delayAt ls)).sum + delayAt ls c ∧
      (∃ es, t.evq = s.evq ++ es ++ execReqAt ls c) ∧
      t.sch.callout = .run ∧ t.sch.calloutLine = c := by
  induction before generalizing s with
  | nil =>
    obtain ⟨l, n, hl, hwhole, rfl, hrun⟩ := h.callout
    refine ⟨_, _, hrun, ?_, ⟨[], ?_⟩, rfl, rfl⟩
    · rw [delayAt_of_line hl, ← hwhole]
      rfl
    · rw [execReqAt_of_line hl, List.append_nil]
      rfl
  | cons b before ih =>
    obtain ⟨d, ds, hd⟩ : ∃ d ds, before ++ c :: after = d :: ds :=
      List.exists_cons_of_ne_nil (by simp)
    rw [List.cons_append, hd] at h
    obtain ⟨u, hrun, hu, hnow, hevq⟩ := h.next
    obtain ⟨k, t, hrun', hnow', ⟨es, hevq'⟩, hc, hline⟩ := ih (hd ▸ hu)
    refine ⟨_, t, (core_run_add hrun).trans hrun', ?_,
      ⟨execReqAt ls b ++ [Event.nextCommand d] ++ es, ?_⟩, hc, hline⟩
    · rw [hnow', hnow, List.map_cons, List.sum_cons]
      omega
    · rw [hevq', hevq]
      simp

/-! ### The start of a run -/

/-- An accepted start leads to the loop head of the first command. -/
theorem run_start {lineNum : Imm} (h : Inv s) (hb : s.sch.busy = false)
    (hs : s.sch.schState = .loaded)
    (hfirst : firstCmdAtOrAfter s.sch.lines lineNum.toNat = cs.head?)
    (hcs : commandsToEnd s.sch.lines cs)
    (hi : s.inputs = .op .host (0x31000000#32 ||| lineNum.setWidth 32) [] ::
      (runSchedule s.sch.lines cs ++ rest)) :
    ∃ k t, core.run 1 s = .next t ∧ t.now = s.now ∧ t.evq = s.evq ++ [Event.stateChanged .running] ∧
      AtLoopHead (computeAbs s.sch.lines s.now k) s.sch.filename cs rest t := by
  obtain ⟨c, cs', rfl⟩ : ∃ c cs', cs = c :: cs' := by
    cases cs with
    | nil => exact hcs.elim
    | cons c cs' => exact ⟨c, cs', rfl⟩
  obtain ⟨hidle, -⟩ := Sch.busy_eq_false.1 hb
  have hstep := (step_of_encodedAs (encodedAs_schStart lineNum) hi).trans
    (exec_schStart_of_found (s := s.received .host (runSchedule s.sch.lines (c :: cs') ++ rest))
      hb hs hfirst)
  refine ⟨c, _, core_run_succ hstep, rfl, rfl, ?_⟩
  exact {
    phase := rfl
    state := rfl
    table := rfl
    name := rfl
    unstopped := rfl
    pos := rfl
    command := (cmdAt_of_firstCmdAtOrAfter hfirst).congr (computeAbs_isCmd ..)
    whole := (h.sch.restored hidle).computeAbs s.now c
    commands := (commandsToEnd_computeAbs ..).2 hcs
    schedule := by rw [runSchedule_computeAbs]; rfl }

/-- Settles O49: the start, and the loop heads of the run one after the other. -/
theorem runTiming : Obligations.RunTiming := by
  intro s lineNum cs rest h hb hs hfirst hcs hi
  obtain ⟨k, u, hstart, hnow, hevq, hu⟩ := run_start h hb hs hfirst hcs hi
  have hdelays : delayAt (computeAbs s.sch.lines s.now k) = delayAt s.sch.lines :=
    funext (delayAt_computeAbs _ _ _)
  refine ⟨?whole, fun before c after hcut => ?callout⟩
  case whole =>
    obtain ⟨t, hrun, hrest, hnow', hevq', hs', hp', hpos⟩ := hu.run
    rw [runSchedule_computeAbs] at hrun
    refine ⟨t, (core_run_add hstart).trans hrun, hrest, ?_, ?_, hs', hp', hpos⟩
    · rw [hnow', hnow, hdelays]
    · rw [hevq', hevq, runEvents_computeAbs, List.append_assoc]
      rfl
  case callout =>
    obtain ⟨j, t, hrun, hnow', ⟨es, hevq'⟩, hc, hline⟩ := (hcut ▸ hu).exists_callout
    refine ⟨_, t, (core_run_add hstart).trans hrun, ?_, ⟨.stateChanged .running :: es, ?_⟩, hc,
      hline⟩
    · rw [hnow', hnow, hdelays]
    · rw [hevq', hevq, execReqAt_computeAbs]
      simp

end

end Sys2Proof.Machine
end

section
/-! SUPPORT. Stopped runs (42_scheduler.md R224, R225, R235): the answer to the callout of a run
that has been stopped, a stop in a slice, and a command that stops its own run. -/

namespace Sys2Proof.Machine

/-! ### The exit of a stopped run -/

section
variable {x : Sch} {l : Line}

theorem endRecord_of_stopped (hs : x.schState = .loaded) : endRecord x = [] :=
  if_neg (by simp [hs])

theorem exitedAt_schState (hs : x.schState = .loaded) : (exitedAt x l).schState = .loaded :=
  (if_neg (by simp [hs])).trans hs

theorem exitedAt_restored (hl : x.lines[x.pos]? = some l) :
    (exitedAt x l).lines[x.pos]? = some { l with delay := l.origDelay } :=
  setDelay_getElem?_self hl _

theorem exitRun_of_stopped (hl : x.lines[x.pos]? = some l)
    (hs : x.schState = .loaded) (hf : x.finished = false) (hstay : exitPos x = (x.pos, [])) :
    exitRun x = .ok (exitedAt x l, [.stopped x.filename]) := by
  simp [exitRun_of_stays hl hstay, endRecord_of_stopped hs, hf]

end

/-- The loop head of a stopped run is its exit. -/
theorem step_of_stopped_head {s : State} {rest : List Input} {q : Sch × List Event}
    (hi : s.inputs = .executor :: rest) (hp : s.sch.xphase = .head)
    (hs : s.sch.schState = .loaded) (hexit : exitRun s.sch = .ok q) :
    step s = .next (((s.turn rest).withSch q.1).emit q.2) :=
  step_of_executorStep hi (executorStep_head hp (headStep_ok.2 (.inl ⟨by simp [hs], hexit⟩)))

/-- The EXECUTOR's turn passes where no executor step is enabled. -/
theorem step_of_not_enabled {s : State} {rest : List Input} (hi : s.inputs = .executor :: rest)
    (h : executorEnabled s.now s.sch = false) : step s = .next (s.turn rest) :=
  (step_executor hi).trans (executorTurn_of_not_enabled (s := s.turn rest) h)

/-! ### The answer to the callout of a stopped run -/

/-- The callout of a run for the line `l` at the position is outstanding, and the run has been
stopped since, if by `SCH.STOP_NEXT` then at this command. -/
structure StoppedAtCallout (x : Sch) (l : Line) : Prop where
  callout : x.callout = .run
  atPos : x.calloutLine = x.pos
  state : x.schState = .loaded
  line : x.lines[x.pos]? = some l
  issuer : x.stopNext = false ∨ x.stopIssuer = x.pos
  finished : x.finished = false

/-- The run of `s` has exited with the delay of its line `l` restored, the position at `p` and the
records `es`. -/
structure RunExited (s : State) (l : Line) (p : Nat) (es : List Event) (rest : List Input)
    (t : State) : Prop where
  inputs : t.inputs = rest
  now : t.now = s.now
  phase : t.sch.xphase = .idle
  state : t.sch.schState = .loaded
  stopNext : t.sch.stopNext = false
  pos : t.sch.pos = p
  restored : t.sch.lines[s.sch.pos]? = some { l with delay := l.origDelay }
  evq : t.evq = s.evq ++ es

theorem lt_of_nextCmdAfter {ls : List Line} {k q : Nat} (h : nextCmdAfter ls k = some q) : k < q :=
  (firstCmdAtOrAfter_some.1 h).1

section
variable {s : State} {l : Line} {r : Bool} {q : Nat} {rest : List Input}

/-- The answer moves on to the next command, and the exit leaves the position there: a pending
`stop_next` would move it to that same command. -/
theorem StoppedAtCallout.run_next (h : StoppedAtCallout s.sch l)
    (hq : nextCmdAfter s.sch.lines s.sch.pos = some q)
    (hi : s.inputs =
      .op .host (if r then 0x36000001#32 else 0x36000000#32) [] :: .executor :: rest) :
    ∃ t, core.run 2 s = .next t ∧
      RunExited s l q
        (execError r s.sch.pos ++ [Event.nextCommand q, Event.stopped s.sch.filename]) rest t := by
  have hanswer := step_answer hi h.callout (runDone_of_next h.line h.atPos hq)
  have hq' : nextCmdAfter (nextHead s.sch l q).lines s.sch.pos = some q :=
    (nextCmdAfter_setDelay ..).trans hq
  obtain ⟨m, hm⟩ := (cmdAt_of_nextCmdAfter hq').exists_line
  have hexit := exitRun_of_stopped (x := nextHead s.sch l q) hm h.state h.finished <|
    exitPos_of_not_moved fun p hstop hp => by
      have hissuer : s.sch.stopIssuer = s.sch.pos := h.issuer.resolve_left
        (by simpa [nextHead] using hstop)
      exact Option.some.inj (hp.symm.trans ((congrArg _ hissuer).trans hq'))
  refine ⟨_, (core_run_succ hanswer).trans (core_run_succ
    (step_of_stopped_head rfl rfl h.state hexit)), ?_⟩
  exact {
    inputs := rfl
    now := by simp
    phase := rfl
    state := exitedAt_schState h.state
    stopNext := rfl
    pos := rfl
    restored := by
      have hne : q ≠ s.sch.pos := (lt_of_nextCmdAfter hq).ne'
      have hline := setDelay_getElem?_self h.line l.origDelay
      simp [exitedAt, nextHead, setDelay_getElem? _ q, hline, hne]
    evq := by simp [nextHead] }

/-- The answer to the last command's callout runs the exit, and the EXECUTOR's turn passes. -/
theorem StoppedAtCallout.run_last (h : StoppedAtCallout s.sch l)
    (hq : nextCmdAfter s.sch.lines s.sch.pos = none)
    (hi : s.inputs =
      .op .host (if r then 0x36000001#32 else 0x36000000#32) [] :: .executor :: rest) :
    ∃ t, core.run 2 s = .next t ∧
      RunExited s l s.sch.pos
        (execError r s.sch.pos ++ [Event.stopped s.sch.filename, Event.finished s.sch.filename])
        rest t := by
  have hanswer := step_answer hi h.callout (runDone_of_last h.line h.atPos hq h.issuer)
  refine ⟨_, (core_run_succ hanswer).trans (core_run_succ (step_of_not_enabled rfl rfl)), ?_⟩
  exact {
    inputs := rfl
    now := by simp
    phase := rfl
    state := exitedAt_schState h.state
    stopNext := rfl
    pos := rfl
    restored := exitedAt_restored h.line
    evq := by simp [endRecord_of_stopped h.state] }

end

/-! ### A stop in a slice (R235) -/

/-- The state at the end of the slice that `s` was sleeping in when it was stopped. -/
def stopSlept (s : State) (ins : List Input) : State :=
  { s with
    inputs := ins, issuer := none, reply := none
    now := max s.now s.sch.wake
    evq := s.evq ++ [.stateChanged .loaded]
    sch := { s.sch with schState := .loaded } }

/-- The state at the loop head after a slice that was not the last and in which `s` was stopped. -/
def stopLooped (s : State) (l : Line) (ins : List Input) : State :=
  { s with
    inputs := ins, issuer := none, reply := none
    now := max s.now s.sch.wake
    evq := s.evq ++ [.stateChanged .loaded]
    sch := { s.sch with
      schState := .loaded, lines := setDelay s.sch.lines s.sch.pos (l.delay - s.sch.slice)
      xphase := .head } }

/-- The state at the callout after a last slice in which `s` was stopped. -/
def stopCalledOut (s : State) (l : Line) (ins : List Input) : State :=
  { s with
    inputs := ins, issuer := none, reply := none
    now := max s.now s.sch.wake
    evq := s.evq ++ [.stateChanged .loaded] ++ [.execReq s.sch.pos l.cmdId l.params]
    sch := { s.sch with
      schState := .loaded, lines := setDelay s.sch.lines s.sch.pos 0, callout := .run
      calloutLine := s.sch.pos, xphase := .execWait } }

section
variable {s : State} {l : Line} {rest : List Input}

theorem run_stopSlept (hs : s.sch.schState = .running)
    (hi : s.inputs = .op .host 0x33000000#32 [] :: .time (s.sch.wake - s.now) :: rest) :
    core.run 2 s = .next (stopSlept s rest) := by
  have hstop := (step_of_encodedAs encodedAs_schStop hi).trans
    (exec_schStop_of_running (s := s.received .host (.time (s.sch.wake - s.now) :: rest)) hs)
  have htime : max s.now s.sch.wake = s.now + (s.sch.wake - s.now) := by omega
  rw [core_run_succ hstop, core_run_succ (step_time rfl), stopSlept, htime]
  rfl

section
variable (hp : s.sch.xphase = .sleep) (hcheck : s.cfg.stopCheckAfterSleep = false)
  (hl : s.sch.lines[s.sch.pos]? = some l)
include hp hcheck hl

theorem step_stopSlept_more (hslice : s.sch.slice < l.delay) :
    step (stopSlept s (.executor :: rest)) = .next (stopLooped s l rest) := by
  rw [stopLooped, setDelay_eq_set hl]
  exact ((wakeStepResult (stopSlept s (.executor :: rest)) rest l rfl hp (le_max_right ..) hl).2
    (.inl hcheck) hslice.le).2 (Nat.sub_ne_zero_of_lt hslice)

theorem step_stopSlept_last (hslice : s.sch.slice = l.delay) :
    step (stopSlept s (.executor :: rest)) = .next (stopCalledOut s l rest) := by
  rw [stopCalledOut, setDelay_eq_set hl]
  exact ((wakeStepResult (stopSlept s (.executor :: rest)) rest l rfl hp (le_max_right ..) hl).2
    (.inl hcheck) hslice.le).1 (Nat.sub_eq_zero_of_le hslice.ge)

end

/-- No `stop_next` is pending while a run goes on. -/
theorem SchInv.no_stopNext {cfg : Cfg} {x : Sch} (h : SchInv cfg x) (hs : x.schState = .running) :
    x.stopNext = false := by
  by_contra hn
  obtain ⟨-, hloaded⟩ := h.stopNext (by simpa using hn)
  simp [hs] at hloaded

/-- The loop head after a slice in which the run was stopped is its exit. -/
theorem step_stopLooped (h : Inv s) (hs : s.sch.schState = .running)
    (hl : s.sch.lines[s.sch.pos]? = some l) :
    ∃ t, step (stopLooped s l (.executor :: rest)) = .next t ∧ t.inputs = rest ∧
      t.now = max s.now s.sch.wake ∧ t.sch.pos = s.sch.pos ∧ t.sch.xphase = .idle ∧
      t.sch.lines[s.sch.pos]? = some { l with delay := l.origDelay } ∧
      t.evq = s.evq ++ [Event.stateChanged .loaded, Event.stopped s.sch.filename] := by
  have hline := setDelay_getElem?_self hl (l.delay - s.sch.slice)
  have hexit := exitRun_of_stopped (x := (stopLooped s l (.executor :: rest)).sch) hline rfl
    h.sch.finished (exitPos_stays (.inl (h.sch.no_stopNext hs)))
  refine ⟨_, step_of_stopped_head rfl rfl rfl hexit, rfl, rfl, rfl, rfl,
    exitedAt_restored (x := (stopLooped s l (.executor :: rest)).sch) hline, ?_⟩
  simp [stopLooped]

/-- Such a callout is one of a stopped run. -/
theorem stoppedAtCallout_stopCalledOut (h : Inv s) (hs : s.sch.schState = .running)
    (hl : s.sch.lines[s.sch.pos]? = some l) :
    StoppedAtCallout (stopCalledOut s l rest).sch { l with delay := 0 } where
  callout := rfl
  atPos := rfl
  state := rfl
  line := setDelay_getElem?_self hl 0
  issuer := .inl (h.sch.no_stopNext hs)
  finished := h.sch.finished

end

/-- Settles O50: the slice ends at `wake`, in its middle with the exit, at its end with the callout,
whose answer leads to the exit. -/
theorem stopLatency : Obligations.StopLatency := by
  intro s l rest h hp hs hcheck hl hi
  have hsoon : max s.now s.sch.wake ≤ s.now + 1000 := max_le (by omega) (h.wakeNear hp)
  have hslept := run_stopSlept hs hi
  rcases (h.sch.sliceFits hp l hl).lt_or_eq with hslice | hslice
  · obtain ⟨t, hexit, hrest, hnow, hpos, hidle, hline, hevq⟩ :=
      step_stopLooped (rest := rest) h hs hl
    have hrun : core.run 4 s = .next t :=
      (core_run_add (a := 2) (b := 2) hslept).trans
        ((core_run_succ (step_stopSlept_more hp hcheck hl hslice)).trans (core_run_succ hexit))
    exact ⟨t, hrun, hrest, hnow.trans_le hsoon, hnow, hpos, fun _ => ⟨hidle, hline, hevq⟩,
      fun heq => absurd heq hslice.ne⟩
  · have hrun : core.run 4 s = .next (stopCalledOut s l rest) :=
      (core_run_add (a := 2) (b := 2) hslept).trans
        ((core_run_succ (step_stopSlept_last hp hcheck hl hslice)).trans
          (core_run_succ (step_of_not_enabled rfl rfl)))
    have hstopped := stoppedAtCallout_stopCalledOut (rest := rest) h hs hl
    refine ⟨_, hrun, rfl, hsoon, rfl, rfl, fun hlt => absurd hslice hlt.ne,
      fun _ => ⟨rfl, List.append_assoc .., fun r rest' hrest => ?_⟩⟩
    cases hq : nextCmdAfter s.sch.lines s.sch.pos with
    | some q =>
      obtain ⟨u, hrun', hu⟩ := hstopped.run_next ((nextCmdAfter_setDelay ..).trans hq) hrest
      exact ⟨u, (core_run_add hrun).trans hrun', hu.inputs, hu.now, hu.phase, hu.state,
        hu.restored, hu.pos, by rw [hu.evq, ← List.append_assoc]; rfl⟩
    | none =>
      obtain ⟨u, hrun', hu⟩ := hstopped.run_last ((nextCmdAfter_setDelay ..).trans hq) hrest
      exact ⟨u, (core_run_add hrun).trans hrun', hu.inputs, hu.now, hu.phase, hu.state,
        hu.restored, hu.pos, by rw [hu.evq, ← List.append_assoc]; rfl⟩

/-! ### A command that stops its own run (R225, conflict C7) -/

/-- Settles O51: the stop is issued at the command whose callout is outstanding. -/
theorem embeddedStopAdvancesOnce : Obligations.EmbeddedStopAdvancesOnce := by
  intro s r q rest h hc hs hq hi
  have hlive : s.sch.xphase ≠ .idle := by simp [h.sch.callout.1 hc]
  obtain ⟨l, hl⟩ := (h.sch.atCommand hlive).exists_line
  have hstop := (step_of_encodedAs encodedAs_schStopNext hi).trans
    (exec_schStopNext_of_running (s := s.received .host _) hs)
  have hstopped : StoppedAtCallout
      { s.sch with stopNext := true, stopIssuer := s.sch.pos, schState := .loaded } l :=
    ⟨hc, h.sch.calloutAt hc, rfl, hl, .inr rfl, h.sch.finished⟩
  obtain ⟨t, hrun, ht⟩ := StoppedAtCallout.run_next (s := ((s.received .host _).withSch
    { s.sch with stopNext := true, stopIssuer := s.sch.pos, schState := .loaded }).emit
      [.stateChanged .loaded] |>.answer (.ok .none)) hstopped hq rfl
  exact ⟨t, (core_run_succ hstop).trans hrun, ht.inputs, ht.pos, ht.phase, ht.state, ht.stopNext,
    by rw [ht.evq]; simp [execError]⟩

end Sys2Proof.Machine
end

section
/-! SUPPORT. Progress (60_exceptions.md R302, R306): where the invariant holds every action has a next
state, and with nothing scheduled every sleep ends. -/

namespace Sys2Proof.Machine

/-! ### Executor steps -/

section
variable {cfg : Cfg} {x : Sch}

/-- At the loop head of a run the line at the position exists, for the slice and for the exit alike
(R229). -/
theorem SchInv.exists_headStep (h : SchInv cfg x) (hp : x.xphase = .head) (now : Nat) :
    ∃ q, Machine.headStep now x = .ok q := by
  have hcmd : x.cmdAt x.pos := h.atCommand (by simp [hp])
  by_cases hs : x.schState = .running
  · obtain ⟨l, hl⟩ := hcmd.exists_line
    exact ⟨(_, _), headStep_ok.2 (.inr ⟨hs, l, hl, rfl, rfl⟩)⟩
  · obtain ⟨⟨x', es⟩, hexit⟩ := exists_exitRun hcmd
    exact ⟨(x', es), headStep_ok.2 (.inl ⟨hs, hexit⟩)⟩

/-- At the end of a slice the line at the position exists, for the exit of a stopped run, for the
callout and for the next slice alike (R230). -/
theorem SchInv.exists_wakeStep (h : SchInv cfg x) (hp : x.xphase = .sleep) (stopCheck : Bool) :
    ∃ q, Machine.wakeStep stopCheck x = .ok q := by
  have hcmd : x.cmdAt x.pos := h.atCommand (by simp [hp])
  by_cases hstop : stopCheck = true ∧ x.schState ≠ .running
  · obtain ⟨⟨x', es⟩, hexit⟩ := exists_exitRun hcmd
    exact ⟨(x', es), wakeStep_ok.2 (.inl ⟨hstop, hexit⟩)⟩
  · obtain ⟨l, hl⟩ := hcmd.exists_line
    by_cases hlast : l.delay - x.slice = 0
    · exact ⟨(_, _), wakeStep_ok.2 (.inr ⟨hstop, l, hl, .inl ⟨hlast, rfl, rfl⟩⟩)⟩
    · exact ⟨(_, _), wakeStep_ok.2 (.inr ⟨hstop, l, hl, .inr ⟨hlast, rfl, rfl⟩⟩)⟩

/-- No executor step stops with a fault (R301). -/
theorem SchInv.exists_executorStep (h : SchInv cfg x) (now : Nat) :
    ∃ q, Machine.executorStep cfg now x = .ok q := by
  cases hon : executorEnabled now x with
  | false => exact ⟨(x, []), executorStep_ok.2 (.inl ⟨hon, rfl, rfl⟩)⟩
  | true =>
    obtain hp | ⟨hp, hw⟩ := executorEnabled_eq_true_iff.1 hon
    · obtain ⟨q, hq⟩ := h.exists_headStep hp now
      exact ⟨q, executorStep_head hp hq⟩
    · obtain ⟨q, hq⟩ := h.exists_wakeStep hp cfg.stopCheckAfterSleep
      exact ⟨q, executorStep_sleep hp hw hq⟩

end

/-! ### Every action has a next state -/

section
variable {s : State}

/-- A transaction a port can carry is answered: with its operation's reply, or `ILLEGAL` (R118,
R125). -/
theorem Inv.exists_transact (h : Inv s) (p : Port) (w : CmdWord) {data : Bytes}
    (hdata : data.length < dataBlockBound) : ∃ t, Machine.transact p w data s = .next t := by
  cases hdec : decodeAt p w data with
  | error e => exact ⟨_, transact_of_error hdata hdec⟩
  | ok i =>
    obtain ⟨t, -, hexec, -⟩ := everyOperationReplies s i h
    exact ⟨t, by simpa only [transact, hdata, hdec, if_true] using hexec⟩

/-- The EXECUTOR's turn completes (R301). -/
theorem Inv.exists_executorTurn (h : Inv s) : ∃ t, Machine.executorTurn s = .next t := by
  obtain ⟨⟨x, es⟩, hq⟩ := h.sch.exists_executorStep s.now
  exact ⟨_, executorTurn_next.2 ⟨x, es, hq, rfl⟩⟩

/-- With nothing scheduled the EXECUTOR or TIME goes on (R306). -/
theorem Inv.exists_idleStep (h : Inv s) : ∃ t, Machine.idleStep s = .next t := by
  cases hon : executorEnabled s.now s.sch with
  | false => exact ⟨_, idleStep_of_not_enabled hon⟩
  | true =>
    rw [idleStep_of_enabled hon]
    exact h.exists_executorTurn

end

/-- Settles O56, by what the schedule holds next. -/
theorem everyStepHasANextState : Obligations.EveryStepHasANextState := by
  intro s h hwf
  cases hi : s.inputs with
  | nil =>
    rw [step_nil hi]
    exact (h.turn []).exists_idleStep
  | cons a rest =>
    have ha : a.wf = true := hwf a (by simp [hi])
    cases a with
    | op p w data =>
      rw [step_op hi]
      exact (h.received p rest).exists_transact p w (of_decide_eq_true ha)
    | executor =>
      rw [step_executor hi]
      exact (h.turn rest).exists_executorTurn
    | time ms => exact ⟨_, step_time hi⟩

/-! ### A sleep with nothing scheduled -/

/-- Within a slice and with nothing scheduled, TIME advances (R306). -/
theorem step_of_sleeping {s : State} (hi : s.inputs = []) (hp : s.sch.xphase = .sleep)
    (hw : s.now < s.sch.wake) : step s = .next (s.turn []).idle := by
  rw [step_nil hi]
  exact idleStep_of_not_enabled (executorEnabled_eq_false_iff.2 (.inr (.inr ⟨hp, hw⟩)))

/-- At most `n` steps end a sleep with at most `n` ms left: each advances time by at least one. -/
theorem exists_run_to_wake {n : Nat} {s : State} (hi : s.inputs = []) (hp : s.sch.xphase = .sleep)
    (hn : s.sch.wake - s.now ≤ n) :
    ∃ k t, k ≤ n ∧ core.run k s = .next t ∧ s.sch.wake ≤ t.now ∧
      t.sch = s.sch ∧ t.evq = s.evq := by
  induction n generalizing s with
  | zero => exact ⟨0, s, le_rfl, core_run_zero s, by omega, rfl, rfl⟩
  | succ n ih =>
    by_cases hw : s.sch.wake ≤ s.now
    · exact ⟨0, s, Nat.zero_le _, core_run_zero s, hw, rfl, rfl⟩
    · have hnearer : (s.turn []).idle.sch.wake - (s.turn []).idle.now ≤ n := by
        simp only [State.idle_sch, State.idle_now, State.turn_sch, State.turn_now]
        omega
      obtain ⟨k, t, hk, hrun, hwake, hsch, hevq⟩ := ih (s := (s.turn []).idle) rfl hp hnearer
      have hstep := step_of_sleeping hi hp (Nat.lt_of_not_le hw)
      exact ⟨k + 1, t, Nat.succ_le_succ hk, (core_run_succ hstep).trans hrun, hwake, hsch, hevq⟩

/-- Settles O60: by `wake` the sleeping EXECUTOR's step is enabled. -/
theorem everySleepEnds : Obligations.EverySleepEnds := by
  intro s hi hp
  obtain ⟨k, t, hk, hrun, hwake, hsch, hevq⟩ := exists_run_to_wake hi hp le_rfl
  refine ⟨k, t, hk, hrun, hwake, hsch, hevq, ?_⟩
  rw [hsch]
  exact executorEnabled_eq_true_iff.2 (.inr ⟨hp, hwake⟩)

end Sys2Proof.Machine
end

section
/-! SUPPORT. Construction (70_reset_and_hazards.md R331): the invariants hold of what it leaves, unit by
unit, for every well-formed configuration. -/

namespace Sys2Proof.Machine

/-! ### An empty memory -/

theorem Memory.wf_nil : Memory.wf [] = true := rfl

theorem Memory.below_nil (n : Nat) : Memory.below [] n := nofun

/-! ### The units -/

/-- In sync search with no message view, nothing of `MSGBUF` need be written (R36). -/
theorem codecInv_reset (cfg : Cfg) : CodecInv cfg Codec.reset where
  dstate := DState.reachable_of_viewIntact rfl _
  len := Nat.zero_lt_succ _
  idx := Nat.zero_lt_succ _
  idxLen := fun _ => le_rfl
  lenHi := nofun
  msgLen := Nat.zero_le _
  errCount := Nat.zero_le _
  payload := nofun
  complete := nofun
  view := nofun
  canonical := Memory.wf_nil
  below := Memory.below_nil _
  written := by simp [Codec.reset]
  viewWritten := nofun

/-- Both cursors start at slot 0, so there has to be one. -/
theorem rbInv_reset {cfg : Cfg} (hslots : 1 ≤ cfg.rbSlots) : RbInv cfg (Rb.reset cfg.rbSlots) where
  usedLength := List.length_replicate
  usedRange := fun _ hn => (List.eq_of_mem_replicate hn).trans_le (Nat.zero_le _)
  wr := hslots
  rd := hslots
  count := Nat.zero_le _
  cursors := (Nat.zero_mod _).symm
  bytes := rfl
  wrHeld := nofun
  rdHeld := nofun
  hwm := Nat.zero_le _
  canonical := Memory.wf_nil
  below := Memory.below_nil _

/-- An empty table is idle: its bounds hold, and nothing is pending. -/
theorem schInv_reset (cfg : Cfg) : SchInv cfg Sch.reset := by
  have hbounds : SchBounds cfg Sch.reset := {
    nlines := Nat.zero_le _
    delays := nofun
    pos := by decide
    calloutLine := Nat.zero_lt_succ _
    stopIssuer := Nat.zero_lt_succ _
    noErrors := fun _ => rfl }
  exact .of_idle hbounds rfl nofun nofun rfl rfl rfl rfl

/-! ### The block -/

theorem inv_resetWith {cfg : Cfg} (hcfg : cfg.wf = true) (env : Env) (now : Nat) :
    Inv (State.resetWith cfg env now) := by
  obtain ⟨-, -, ⟨hslots, -⟩, -⟩ := (Cfg.wf_iff cfg).1 hcfg
  exact {
    cfg := hcfg
    codec := codecInv_reset cfg
    rb := rbInv_reset hslots
    sch := schInv_reset cfg
    evq := nofun
    wakeNear := nofun }

/-- Before the first message there is no message view. -/
theorem viewInv_resetWith (cfg : Cfg) (env : Env) (now : Nat) :
    ViewInv (State.resetWith cfg env now) := nofun

/-- Settles O53: a construction leaves `State.resetWith` of a well-formed configuration. -/
theorem constructionReset : Obligations.ConstructionReset := by
  intro cfg env now s h
  obtain ⟨hcfg, rfl⟩ := State.construct_eq_some_iff.1 h
  exact ⟨rfl, rfl, rfl, rfl, rfl, rfl, rfl, inv_resetWith hcfg env now,
    viewInv_resetWith cfg env now⟩

/-- Settles O54: the configuration of `State.reset` is well-formed. -/
theorem resetSatisfiesTheInvariant : Obligations.ResetSatisfiesTheInvariant := by
  have hcfg : Config.vectorCfg.wf = true := by decide
  have hreset : State.construct Config.vectorCfg Config.vectorEnv 0 = some State.reset :=
    State.construct_eq_some_iff.2 ⟨hcfg, rfl⟩
  exact ⟨inv_resetWith hcfg _ _, viewInv_resetWith _ _ _, hreset⟩

end Sys2Proof.Machine
end
